-- ==== Sys2Proof/Word.lean ====
section
/-! DEFINITION. The 32-bit word of the CORE and the byte it carries (00_scope.md section 5). -/

namespace Sys2Proof

/-- A word: a 32-bit pattern, read as an unsigned number except inside the DeltaZigzag filter (00_scope.md section 5, D34). -/
abbrev Word := BitVec 32

/-- A byte: VariableByte's and FastPFOR's unit inside words (20_memory.md R43), and the unit in which `M` is listed. -/
abbrev Byte := BitVec 8

end Sys2Proof
end

