-- ==== Sys2Proof/Syntax.lean ====
section
/-! DEFINITION. The commands of the CORE: one constructor for each row of spec/opcode_table.json (30_encoding.md R62, R63). -/

namespace Sys2Proof

/-- The ten general registers (10_state.md R10, 30_encoding.md R64), in index order. -/
inductive Reg
  | sp | se | dp | de | n | rc | wc | zp | page | ovh
deriving DecidableEq, Repr

/-- The ten codecs (30_encoding.md R63), in the order of their ids 0 .. 9. -/
inductive Codec
  | bp | fpf128 | fpf256 | npfd9 | npfd16 | opfd9 | opfd16 | s9 | s16 | vb
deriving DecidableEq, Repr

/-- A command with its operands. `b` is the 8-bit width field of `PACK`, `PACKU`, `UNPACK` (R110); `imm` is the second word of `SET` (R65); the second codec of
`TOP.*` is `none` for the id 15, `NONE` (R63). -/
inductive Instr
  -- 40_sequencer.md
  | nop
  | halt
  | set (rd : Reg) (imm : Word)
  | mov (rd rs : Reg)
  -- 41_bitprimitives.md
  | pack (b : Nat)
  | packu (b : Nat)
  | unpack (b : Nat)
  -- 42_blockcodec.md
  | bpHc | bpHd | bpC | bpD
  -- 43_for_patched.md
  | fpf128Hc | fpf128Hd | fpf128C | fpf128D
  | fpf256Hc | fpf256Hd | fpf256C | fpf256D
  | npfd9Hc | npfd9Hd | npfd9C | npfd9D
  | npfd16Hc | npfd16Hd | npfd16C | npfd16D
  | opfd9Hc | opfd9Hd | opfd9C | opfd9D
  | opfd16Hc | opfd16Hd | opfd16C | opfd16D
  -- 44_selectorcodec.md
  | s9Hc | s9Hd | s9C | s9D
  | s16Hc | s16Hd | s16C | s16D
  -- 46_variablebyte.md
  | vbHc | vbHd | vbC | vbD
  -- 44_selectorcodec.md, the estimates
  | s9Est | s16Est
  -- 47_composition.md
  | compC (k1 k2 : Codec)
  | compD (k1 k2 : Codec)
  | topC (k1 : Codec) (k2 : Option Codec)
  | topD (k1 : Codec) (k2 : Option Codec)
  -- 45_deltazigzag.md
  | dzEnc
  | dzDec
deriving DecidableEq, Repr

end Sys2Proof
end

