-- ==== Sys2Proof/WellFormed.lean ====
section
/-! DEFINITION. Which terms of `Instr` an encoding exists for: the types hold every operand but the 8-bit width field to its range. -/

namespace Sys2Proof

/-- The width field is 8 bits wide (30_encoding.md R62: `b` 0..255; a value above 32 is legal as an encoding, R110). -/
def Instr.wellFormed : Instr → Bool
  | .pack b | .packu b | .unpack b => decide (b ≤ 255)
  | _ => true

end Sys2Proof
end

