-- ==== Sys2Proof/Decode.lean ====
section
/-! DEFINITION. Decoding the words at `CP` (30_encoding.md R60 to R67), total, rejecting by name; and the encoder, written from the same tables. -/

namespace Sys2Proof

/-! ## Tables shared by both directions -/

/-- The register index (R64). -/
def Reg.index : Reg → Nat
  | .sp => 0 | .se => 1 | .dp => 2 | .de => 3 | .n => 4 | .rc => 5 | .wc => 6 | .zp => 7 | .page => 8 | .ovh => 9

/-- The register a field names; indices 10 to 255 name none (R64). -/
def Reg.ofIndex : Nat → Option Reg
  | 0 => some .sp | 1 => some .se | 2 => some .dp | 3 => some .de | 4 => some .n
  | 5 => some .rc | 6 => some .wc | 7 => some .zp | 8 => some .page | 9 => some .ovh
  | _ => none

/-- The codec id (R63). -/
def Codec.id : Codec → Nat
  | .bp => 0 | .fpf128 => 1 | .fpf256 => 2 | .npfd9 => 3 | .npfd16 => 4
  | .opfd9 => 5 | .opfd16 => 6 | .s9 => 7 | .s16 => 8 | .vb => 9

/-- The codec a field names; 10 .. 14 and 16 .. 255 are reserved and 15 is no codec (R63). -/
def Codec.ofId : Nat → Option Codec
  | 0 => some .bp | 1 => some .fpf128 | 2 => some .fpf256 | 3 => some .npfd9 | 4 => some .npfd16
  | 5 => some .opfd9 | 6 => some .opfd16 | 7 => some .s9 | 8 => some .s16 | 9 => some .vb
  | _ => none

/-- The field `B` of `TOP.*`: a codec id or 15, `NONE` (R63). -/
def secondId : Option Codec → Nat
  | none => 15
  | some k => k.id

/-- The second codec that the field `B` of `TOP.*` names, 15 being "no second codec" (R63, R66). -/
def secondOfId (b : Nat) : Option (Option Codec) :=
  if b = 15 then some none else (Codec.ofId b).map some

/-- The command of opcode `0x20`, `<K>.HC` (R62, R63). -/
def hcOf : Codec → Instr
  | .bp => .bpHc | .fpf128 => .fpf128Hc | .fpf256 => .fpf256Hc | .npfd9 => .npfd9Hc | .npfd16 => .npfd16Hc
  | .opfd9 => .opfd9Hc | .opfd16 => .opfd16Hc | .s9 => .s9Hc | .s16 => .s16Hc | .vb => .vbHc

/-- The command of opcode `0x21`, `<K>.HD`. -/
def hdOf : Codec → Instr
  | .bp => .bpHd | .fpf128 => .fpf128Hd | .fpf256 => .fpf256Hd | .npfd9 => .npfd9Hd | .npfd16 => .npfd16Hd
  | .opfd9 => .opfd9Hd | .opfd16 => .opfd16Hd | .s9 => .s9Hd | .s16 => .s16Hd | .vb => .vbHd

/-- The command of opcode `0x22`, `<K>.C`. -/
def cOf : Codec → Instr
  | .bp => .bpC | .fpf128 => .fpf128C | .fpf256 => .fpf256C | .npfd9 => .npfd9C | .npfd16 => .npfd16C
  | .opfd9 => .opfd9C | .opfd16 => .opfd16C | .s9 => .s9C | .s16 => .s16C | .vb => .vbC

/-- The command of opcode `0x23`, `<K>.D`. -/
def dOf : Codec → Instr
  | .bp => .bpD | .fpf128 => .fpf128D | .fpf256 => .fpf256D | .npfd9 => .npfd9D | .npfd16 => .npfd16D
  | .opfd9 => .opfd9D | .opfd16 => .opfd16D | .s9 => .s9D | .s16 => .s16D | .vb => .vbD

/-- The command of opcode `0x24`, `<K>.EST`: `k` is 7 or 8 (R62, R66). -/
def estOfId : Nat → Option Instr
  | 7 => some .s9Est
  | 8 => some .s16Est
  | _ => none

/-! ## Decoding -/

/-- The field of bits `hi` down to `lo` of a word, as a number (00_scope.md section 5). -/
def field (w : Word) (hi lo : Nat) : Nat := w.toNat / 2 ^ lo % 2 ^ (hi - lo + 1)

/-- What one legal command word says: a whole command, or a `SET` that still needs its immediate word (R60, R67). -/
inductive Head
  | whole (i : Instr)
  | setOf (rd : Reg)
deriving DecidableEq, Repr

/-- The meaning of the four fields, `none` when the word is illegal by rule R66. The reserved field `C` is checked first; an opcode outside the table of R62 falls
to the last arm; a field the command does not use must be 0. -/
def decodeFields (opc a b c : Nat) : Option Head :=
  if c ≠ 0 then none else
  match opc with
  | 0x00 => if a = 0 ∧ b = 0 then some (.whole .nop) else none
  | 0x01 => if a = 0 ∧ b = 0 then some (.whole .halt) else none
  | 0x02 => if b = 0 then (Reg.ofIndex a).map .setOf else none
  | 0x03 => (Reg.ofIndex a).bind fun rd => (Reg.ofIndex b).map fun rs => .whole (.mov rd rs)
  | 0x10 => if b = 0 then some (.whole (.pack a)) else none
  | 0x11 => if b = 0 then some (.whole (.packu a)) else none
  | 0x12 => if b = 0 then some (.whole (.unpack a)) else none
  | 0x20 => if b = 0 then (Codec.ofId a).map fun k => .whole (hcOf k) else none
  | 0x21 => if b = 0 then (Codec.ofId a).map fun k => .whole (hdOf k) else none
  | 0x22 => if b = 0 then (Codec.ofId a).map fun k => .whole (cOf k) else none
  | 0x23 => if b = 0 then (Codec.ofId a).map fun k => .whole (dOf k) else none
  | 0x24 => if b = 0 then (estOfId a).map .whole else none
  | 0x28 => (Codec.ofId a).bind fun k1 => (Codec.ofId b).map fun k2 => .whole (.compC k1 k2)
  | 0x29 => (Codec.ofId a).bind fun k1 => (Codec.ofId b).map fun k2 => .whole (.compD k1 k2)
  | 0x2A => (Codec.ofId a).bind fun k1 => (secondOfId b).map fun k2 => .whole (.topC k1 k2)
  | 0x2B => (Codec.ofId a).bind fun k1 => (secondOfId b).map fun k2 => .whole (.topD k1 k2)
  | 0x30 => if a = 0 ∧ b = 0 then some (.whole .dzEnc) else none
  | 0x31 => if a = 0 ∧ b = 0 then some (.whole .dzDec) else none
  | _ => none

/-- The command word's meaning (R61), `none` when it is illegal by rule R66. -/
def decodeHead (w : Word) : Option Head := decodeFields (field w 31 24) (field w 23 16) (field w 15 8) (field w 7 0)

/-- Why no command could be read from a list of words. -/
inductive Reject
  /-- there is no command word at all (R90: a fetch at `CP ≥ MEMWORDS`) -/
  | noCommand
  /-- the command word is illegal by rule R66 -/
  | illegal (w : Word)
  /-- a legal `SET` whose immediate word is missing (R90: `CP + 1 ≥ MEMWORDS`) -/
  | noImmediate
deriving DecidableEq, Repr

/-- Read one command from the words at `CP`: the command and the words after it. An illegal word is one word long and is found before a missing immediate
(R67, R314 (2) before (3)). -/
def decode : List Word → Except Reject (Instr × List Word)
  | [] => .error .noCommand
  | w :: rest =>
    match decodeHead w with
    | none => .error (.illegal w)
    | some (.whole i) => .ok (i, rest)
    | some (.setOf rd) =>
      match rest with
      | [] => .error .noImmediate
      | imm :: rest' => .ok (.set rd imm, rest')

/-! ## Encoding -/

/-- A command word from its fields (R61); `C` is 0. -/
def commandWord (opc a b : Nat) : Word := BitVec.ofNat 32 (opc * 2 ^ 24 + a * 2 ^ 16 + b * 2 ^ 8)

/-- The command word of an instruction: opcode and operand fields (R62, R63, R64). -/
def Instr.head : Instr → Word
  | .nop => commandWord 0x00 0 0
  | .halt => commandWord 0x01 0 0
  | .set rd _ => commandWord 0x02 rd.index 0
  | .mov rd rs => commandWord 0x03 rd.index rs.index
  | .pack b => commandWord 0x10 b 0
  | .packu b => commandWord 0x11 b 0
  | .unpack b => commandWord 0x12 b 0
  | .bpHc => commandWord 0x20 0 0 | .bpHd => commandWord 0x21 0 0 | .bpC => commandWord 0x22 0 0 | .bpD => commandWord 0x23 0 0
  | .fpf128Hc => commandWord 0x20 1 0 | .fpf128Hd => commandWord 0x21 1 0 | .fpf128C => commandWord 0x22 1 0 | .fpf128D => commandWord 0x23 1 0
  | .fpf256Hc => commandWord 0x20 2 0 | .fpf256Hd => commandWord 0x21 2 0 | .fpf256C => commandWord 0x22 2 0 | .fpf256D => commandWord 0x23 2 0
  | .npfd9Hc => commandWord 0x20 3 0 | .npfd9Hd => commandWord 0x21 3 0 | .npfd9C => commandWord 0x22 3 0 | .npfd9D => commandWord 0x23 3 0
  | .npfd16Hc => commandWord 0x20 4 0 | .npfd16Hd => commandWord 0x21 4 0 | .npfd16C => commandWord 0x22 4 0 | .npfd16D => commandWord 0x23 4 0
  | .opfd9Hc => commandWord 0x20 5 0 | .opfd9Hd => commandWord 0x21 5 0 | .opfd9C => commandWord 0x22 5 0 | .opfd9D => commandWord 0x23 5 0
  | .opfd16Hc => commandWord 0x20 6 0 | .opfd16Hd => commandWord 0x21 6 0 | .opfd16C => commandWord 0x22 6 0 | .opfd16D => commandWord 0x23 6 0
  | .s9Hc => commandWord 0x20 7 0 | .s9Hd => commandWord 0x21 7 0 | .s9C => commandWord 0x22 7 0 | .s9D => commandWord 0x23 7 0
  | .s16Hc => commandWord 0x20 8 0 | .s16Hd => commandWord 0x21 8 0 | .s16C => commandWord 0x22 8 0 | .s16D => commandWord 0x23 8 0
  | .vbHc => commandWord 0x20 9 0 | .vbHd => commandWord 0x21 9 0 | .vbC => commandWord 0x22 9 0 | .vbD => commandWord 0x23 9 0
  | .s9Est => commandWord 0x24 7 0
  | .s16Est => commandWord 0x24 8 0
  | .compC k1 k2 => commandWord 0x28 k1.id k2.id
  | .compD k1 k2 => commandWord 0x29 k1.id k2.id
  | .topC k1 k2 => commandWord 0x2A k1.id (secondId k2)
  | .topD k1 k2 => commandWord 0x2B k1.id (secondId k2)
  | .dzEnc => commandWord 0x30 0 0
  | .dzDec => commandWord 0x31 0 0

/-- The words of an instruction: two for `SET`, one for every other (R60). -/
def encode (i : Instr) : List Word :=
  match i with
  | .set _ imm => [i.head, imm]
  | _ => [i.head]

/-! ## The opcode table's numbering of an instruction's bits -/

/-- The two words an instruction can have, from its bits as the opcode table numbers them: bit 0 is the least significant bit of the first word, the second word
follows; bits from `nbits` up are 0. -/
def tableWords (nbits w : Nat) : List Word :=
  let v := w % 2 ^ nbits
  [BitVec.ofNat 32 v, BitVec.ofNat 32 (v / 2 ^ 32)]

/-- The instruction the decoder reads from an instruction's bits. -/
def decodeTableWord (nbits w : Nat) : Option Instr :=
  match decode (tableWords nbits w) with
  | .ok (i, _) => some i
  | .error _ => none

end Sys2Proof
end

