-- ==== Sys2Proof/Config.lean ====
section
/-! DEFINITION. What an implementation fixes and what the spec leaves free: the free values have no body, so no proof can use a number for one. -/

namespace Sys2Proof.Config

/-- FREE VALUE (log 3). Byte `i` of the word memory after power-on number `epoch`, while nothing has written it: R28 "the content of every word of `M` is
unspecified (a model takes it as an argument of the launch ...; it must not assume zero)". -/
opaque powerOnByte (epoch i : Nat) : Byte

/-- FREE VALUE (log 4, log 12). The `k`-th word the engine has drawn: the words of a destination view after a fault (R52 "a free draw"), the words
`PACKU` writes for inputs that do not fit (R114), the words a RESET leaves where it cut a command short (R340). -/
opaque freeWord (k : Nat) : Word

/-- DESIGN CHOICE (log 1). The size of the word memory in `State.reset`. `MEMWORDS` is an open parameter, 1 .. 2^31 (R3): the field `State.memwords` carries
it, every statement holds for every value of the field, and this is only the value the one state `State.reset` has. -/
def resetMemwords : Nat := 2 ^ 31

/-- The largest legal `MEMWORDS` (R3). -/
def maxMemwords : Nat := 2 ^ 31

end Sys2Proof.Config
end

