-- ==== Sys2Proof/Machine/State.lean ====
section
/-! DEFINITION. The state of the CORE as plain data (10_state.md), the reasons a step can stop, and the state after reset. -/

namespace Sys2Proof.Machine

/-- `STATUS`, a 2-bit register (10_state.md R22): its four values by name. -/
inductive Status
  /-- 0: reset, or cleared by the host -/
  | idle
  /-- 1: between the host's START and the end of the run -/
  | running
  /-- 2: a `HALT` command ended the run -/
  | halted
  /-- 3: a fault ended the run -/
  | faulted
deriving DecidableEq, Repr

/-- Everything the spec gives the machine (10_state.md; INVENTORY.md lists each with its rule). The last two fields are the model's own counters for free
values (log 3, log 4). -/
structure State where
  /-- `MEMWORDS`, the size of the word memory in words: configuration, never written by a step (R3, R29; log 1) -/
  memwords : Nat
  /-- `SP`, x[0]: the next source word (R11) -/
  sp : Word
  /-- `SE`, x[1]: one past the source view (R12) -/
  se : Word
  /-- `DP`, x[2]: the next destination word (R13) -/
  dp : Word
  /-- `DE`, x[3]: one past the destination view (R14) -/
  de : Word
  /-- `N`, x[4]: the count of a headless decompress (R15) -/
  n : Word
  /-- `RC`, x[5]: words read by the last data command (R16) -/
  rc : Word
  /-- `WC`, x[6]: words written by the last data command (R17) -/
  wc : Word
  /-- `ZP`, x[7]: DeltaZigzag's previous value (R18) -/
  zp : Word
  /-- `PAGE`, x[8]: FastPFOR's page bound in integers (R19) -/
  page : Word
  /-- `OVH`, x[9]: overhead per exception of the cost model (R20) -/
  ovh : Word
  /-- `CP`: the command pointer (R21) -/
  cp : Word
  /-- `STATUS` (R22) -/
  status : Status
  /-- `CAUSE` (R23) -/
  cause : BitVec 8
  /-- `FINFO` (R24) -/
  finfo : Word
  /-- the bytes of `M` written since power-on, byte `k` of word `a` at key `4a+k`, keys strictly rising (R26; log 2); an unlisted byte is a free value (log 3) -/
  mem : List Host.Cell
  /-- the model's own: how many power-on resets there have been (log 3) -/
  epoch : Nat
  /-- the model's own: how many free words have been drawn (log 4) -/
  draws : Nat
deriving DecidableEq, Repr

/-- Reasons for which the machine stops with no next state: none. Every failure of a command is a state of the machine (`STATUS` = `FAULTED`, R315), and
93_implementation_defined.md says "Nothing in the engine is `stuck`" (log 13). Safe: no claim can rest on a stop that never happens. -/
inductive Fault
deriving DecidableEq, Repr

/-- Reasons for which the model has no move. -/
inductive Refusal
  /-- raised by an arm of `exec` for a command that has no meaning yet; no arm is left that does; safe -/
  | notModelled (mnemonic : String)
  /-- raised by `hostMove` alone: the host accesses `M` or a register, or STARTs, while `STATUS = RUNNING`, which R51 puts "outside the spec" and U12 tells a model to refuse; safe -/
  | hostWhileRunning
  /-- raised by `hostMove` alone: the host writes a word address at or above `MEMWORDS`, which names no word of `M` (R40); safe (log 17) -/
  | hostNoSuchWord
deriving DecidableEq, Repr

/-- The state after a reset of an engine of `memwords` words (R28, R340): every register of the table of R28 at its value, nothing of `M` written. -/
def State.resetOf (memwords : Nat) : State where
  memwords := memwords
  sp := 0
  se := 0
  dp := 0
  de := 0
  n := 0
  rc := 0
  wc := 0
  zp := 0
  page := 65536
  ovh := 8
  cp := 0
  status := .idle
  cause := 0
  finfo := 0
  mem := []
  epoch := 0
  draws := 0

/-- The machine right after reset (R28), with the memory size of log 1. -/
def State.reset : State := State.resetOf Config.resetMemwords

end Sys2Proof.Machine
end

