-- ==== Sys2Proof/Machine/Flags.lean ====
section
/-! DEFINITION. What the engine has in place of flags (10_state.md R25: "no condition codes, carry, overflow or predicate flags"): the codes of `STATUS`, the
causes of a fault and their codes, and a fault on its way to `CAUSE` and `FINFO` (60_exceptions.md R301 to R312). -/

namespace Sys2Proof.Machine

/-- The number the host reads from `STATUS` (R22). -/
def Status.code : Status → BitVec 2
  | .idle => 0
  | .running => 1
  | .halted => 2
  | .faulted => 3

/-- The eleven causes of a fault (R301 to R311). -/
inductive Cause
  | illegalCommand | fetchOutOfRange | badWidth | badView | overlap | sourceUnderrun
  | destinationOverflow | valueTooLarge | malformedStream | badConfig | badCount
deriving DecidableEq, Repr

/-- The code a fault writes to `CAUSE` (R301 to R311); 0 and 12..255 are written by none (R312). -/
def Cause.code : Cause → BitVec 8
  | .illegalCommand => 1
  | .fetchOutOfRange => 2
  | .badWidth => 3
  | .badView => 4
  | .overlap => 5
  | .sourceUnderrun => 6
  | .destinationOverflow => 7
  | .valueTooLarge => 8
  | .malformedStream => 9
  | .badConfig => 10
  | .badCount => 11

/-- `raise <cause>(info)` (00_scope.md section 6): a fault with its information word (R312). -/
structure Trap where
  cause : Cause
  info : Word
deriving DecidableEq, Repr

/-- `raise SourceUnderrun(0)` (R306). -/
def underrun : Trap := ⟨.sourceUnderrun, 0⟩

/-- `raise MalformedStream(0)` (R309). -/
def malformed : Trap := ⟨.malformedStream, 0⟩

end Sys2Proof.Machine
end

