-- ==== Sys2Proof/Machine/Memory.lean ====
section
/-! DEFINITION. The word memory `M` (10_state.md R26, 20_memory.md R40) over its list of written bytes: byte `k` of word `a` has the key `4a + k` (R43, log 2).
Nothing in the engine addresses a byte: commands use `wordAt`, `memRead` and `memWrite` only. -/

namespace Sys2Proof.Machine

/-- Byte `k` of a word: bits `8k+7 : 8k` (R43). -/
def wordByte (w : Word) (k : Nat) : Byte := BitVec.ofNat 8 (w.toNat / 2 ^ (8 * k))

/-- The word that carries four bytes, byte 0 in its low end (R43). -/
def joinBytes (b0 b1 b2 b3 : Byte) : Word :=
  BitVec.ofNat 32 (b0.toNat + 2 ^ 8 * b1.toNat + 2 ^ 16 * b2.toNat + 2 ^ 24 * b3.toNat)

/-- The canonical form of the list: keys strictly rising, hence no key twice. An unlisted key has no value in the list, so no entry can equal it. -/
abbrev Memory.wf (m : List Host.Cell) : Prop := (m.map (·.1)).Pairwise (· < ·)

/-- The listed byte at a key, if there is one. -/
def findByte (i : Nat) : List Host.Cell → Option Byte
  | [] => none
  | c :: m => if i = c.1 then some c.2 else findByte i m

/-- The list from its first key not below `i`. -/
def dropBelow (i : Nat) : List Host.Cell → List Host.Cell
  | [] => []
  | c :: m => if c.1 < i then dropBelow i m else c :: m

/-- What an unlisted byte reads as: a free value fixed at power-on, "a read of a word nothing has written since reset returns that argument's value" (R28). -/
def unlistedByte (epoch i : Nat) : Byte := Config.powerOnByte epoch i

/-- One byte of memory. -/
def readByte (epoch : Nat) (m : List Host.Cell) (i : Nat) : Byte :=
  match findByte i m with
  | some b => b
  | none => unlistedByte epoch i

/-- The word at a word address. -/
def readWord (epoch : Nat) (m : List Host.Cell) (a : Nat) : Word :=
  joinBytes (readByte epoch m (4 * a)) (readByte epoch m (4 * a + 1)) (readByte epoch m (4 * a + 2)) (readByte epoch m (4 * a + 3))

/-- `n` consecutive words from `a`: each read starts where the list reaches its word. -/
def readWords (epoch : Nat) (m : List Host.Cell) (a : Nat) : Nat → List Word
  | 0 => []
  | n + 1 =>
    let rest := dropBelow (4 * a) m
    readWord epoch rest a :: readWords epoch rest (a + 1) n

/-- The cells of a list of words stored from word address `a` on. -/
def cellsOf (a : Nat) : List Word → List Host.Cell
  | [] => []
  | w :: ws =>
    (4 * a, wordByte w 0) :: (4 * a + 1, wordByte w 1) :: (4 * a + 2, wordByte w 2) :: (4 * a + 3, wordByte w 3) :: cellsOf (a + 1) ws

/-- The list with the words `ws` stored from word address `a` on: what lies below, the new cells, what lies above. -/
def writeWords (m : List Host.Cell) (a : Nat) (ws : List Word) : List Host.Cell :=
  m.filter (fun c => Nat.blt c.1 (4 * a)) ++ cellsOf a ws ++ m.filter (fun c => Nat.ble (4 * (a + ws.length)) c.1)

/-- One byte of the machine's memory. -/
def State.byteAt (s : State) (i : Nat) : Byte := readByte s.epoch s.mem i

/-- `M[a]`. -/
def State.wordAt (s : State) (a : Nat) : Word := readWord s.epoch s.mem a

/-- `MemRead(a, n)`: the words `M[a] .. M[a+n-1]` (00_scope.md section 6). -/
def State.memRead (s : State) (a n : Nat) : List Word := readWords s.epoch s.mem a n

/-- `MemWrite(a, |ws|, ws)` (00_scope.md section 6). -/
def State.memWrite (s : State) (a : Nat) (ws : List Word) : State := { s with mem := writeWords s.mem a ws }

end Sys2Proof.Machine
end

