-- ==== Sys2Proof/Machine/Operands.lean ====
section
/-! DEFINITION. The operand forms: a general register by name (10_state.md R10) and the two views (20_memory.md R41, R42, R46: "The only addressing mode is
therefore cursor-relative with post-increment"). -/

namespace Sys2Proof.Machine

/-- `x[r]` (R10). -/
def State.reg (s : State) : Reg → Word
  | .sp => s.sp
  | .se => s.se
  | .dp => s.dp
  | .de => s.de
  | .n => s.n
  | .rc => s.rc
  | .wc => s.wc
  | .zp => s.zp
  | .page => s.page
  | .ovh => s.ovh

/-- `x[r] <- v` (R10). -/
def State.setReg (s : State) (r : Reg) (v : Word) : State :=
  match r with
  | .sp => { s with sp := v }
  | .se => { s with se := v }
  | .dp => { s with dp := v }
  | .de => { s with de := v }
  | .n => { s with n := v }
  | .rc => { s with rc := v }
  | .wc => { s with wc := v }
  | .zp => { s with zp := v }
  | .page => { s with page := v }
  | .ovh => { s with ovh := v }

/-- The source view is valid: `SP ≤ SE ≤ MEMWORDS` (R41). -/
abbrev State.sourceValid (s : State) : Prop := s.sp.toNat ≤ s.se.toNat ∧ s.se.toNat ≤ s.memwords

/-- The destination view is valid: `DP ≤ DE ≤ MEMWORDS` (R41). -/
abbrev State.destValid (s : State) : Prop := s.dp.toNat ≤ s.de.toNat ∧ s.de.toNat ≤ s.memwords

/-- The views are both non-empty and share a word (R42). -/
abbrev State.overlapping (s : State) : Prop :=
  s.sp.toNat < s.se.toNat ∧ s.dp.toNat < s.de.toNat ∧ s.sp.toNat < s.de.toNat ∧ s.dp.toNat < s.se.toNat

/-- The fault of the view checks, the source view first, then the destination, then the overlap (R314 (5), (6)). -/
def State.viewFault (s : State) : Option Cause :=
  if ¬ s.sourceValid then some .badView
  else if ¬ s.destValid then some .badView
  else if s.overlapping then some .overlap
  else none

/-- `src`, the words of the source view (R46 (1)). -/
def State.source (s : State) : List Word := s.memRead s.sp.toNat (s.se.toNat - s.sp.toNat)

/-- `DE - DP`, how many words the command may write (R14). -/
def State.capacity (s : State) : Nat := s.de.toNat - s.dp.toNat

end Sys2Proof.Machine
end

