-- ==== Sys2Proof/Machine/Ops.lean ====
section
/-! DEFINITION. The shared operations: taking a fault (60_exceptions.md R315), clearing it (R316), the free words a fault leaves (20_memory.md R52), the frame of every
data command (R46), and the reader over a list of words (00_scope.md section 6). -/

namespace Sys2Proof.Machine

/-- What one command or step answers. -/
abbrev Result := Host.Outcome State Fault Refusal

/-! ## Faults -/

/-- Fault entry: `CAUSE <- c`, `FINFO <- info`, `STATUS <- FAULTED`, nothing else (R315). -/
def State.takeFault (s : State) (t : Trap) : State :=
  { s with cause := t.cause.code, finfo := t.info, status := .faulted }

/-- The end of the fault state, the host's CLEAR: when `STATUS` is `HALTED` or `FAULTED` it becomes `IDLE`, and nothing else changes (R316); otherwise a host write
of `STATUS` is ignored (R22). -/
def State.clear (s : State) : State :=
  match s.status with
  | .halted | .faulted => { s with status := .idle }
  | .idle | .running => s

/-- `n` fresh free words (log 4). -/
def State.freeWords (s : State) (n : Nat) : List Word := (List.range n).map fun i => Config.freeWord (s.draws + i)

/-- The words of `[DP, DE)` become unspecified: fresh free words (R52, U3). -/
def State.voidDestination (s : State) : State :=
  { s with mem := writeWords s.mem s.dp.toNat (s.freeWords s.capacity), draws := s.draws + s.capacity }

/-- What a fault leaves in `M`: "only if the views were valid and disjoint" the destination view is unspecified, else "nothing in `M` changes" (R52). -/
def State.voidIfViews (s : State) : State :=
  match s.viewFault with
  | none => s.voidDestination
  | some _ => s

/-! ## The frame of the data commands -/

/-- `CP <- CP + len` (R21). -/
def State.advance (s : State) (len : Nat) : State := { s with cp := s.cp + BitVec.ofNat 32 len }

/-- What a data command's pure function gives: words consumed, destination words, the new `ZP` of `DZ.*`, and how many free words it drew (R46 (2)). -/
structure Evaluated where
  read : Nat
  out : List Word
  zp : Option Word := none
  drawn : Nat := 0
deriving DecidableEq, Repr

/-- Commit (R46 (5)). -/
def State.commit (s : State) (e : Evaluated) : State :=
  { s with
    mem := writeWords s.mem s.dp.toNat e.out
    sp := BitVec.ofNat 32 (s.sp.toNat + e.read)
    dp := BitVec.ofNat 32 (s.dp.toNat + e.out.length)
    rc := BitVec.ofNat 32 e.read
    wc := BitVec.ofNat 32 e.out.length
    zp := e.zp.getD s.zp
    cp := s.cp + 1
    draws := s.draws + e.drawn }

/-- Every data command but the estimates (R46, R314): the views, the pure function `f` of the source words, the capacity, the commit. -/
def dataCommand (f : List Word → Except Trap Evaluated) (s : State) : Result :=
  match s.viewFault with
  | some c => .next (s.takeFault ⟨c, 0⟩)
  | none =>
    match f s.source with
    | .error t => .next (s.voidDestination.takeFault t)
    | .ok e =>
      if s.capacity < e.out.length then .next (s.voidDestination.takeFault ⟨.destinationOverflow, 0⟩)
      else .next (s.commit e)

/-- A data command with a width operand: `BadWidth(b)` when `b > 32`, before the view checks (R110, R314 (4)); the words of valid disjoint views are then
unspecified too (R52 "any fault"; log 6). -/
def widthCommand (b : Nat) (f : List Word → Except Trap Evaluated) (s : State) : Result :=
  if 32 < b then .next (s.voidIfViews.takeFault ⟨.badWidth, BitVec.ofNat 32 b⟩)
  else dataCommand f s

/-- A codec function's pair `(r, out)` (R130). -/
abbrev CodecResult := Except Trap (Nat × List Word)

/-- A data command whose pure function gives a pair `(r, out)` (R132, R133). -/
def codecCommand (f : List Word → CodecResult) (s : State) : Result :=
  dataCommand (fun src => (f src).map fun p => { read := p.1, out := p.2 }) s

/-! ## The reader -/

/-- `get()`: the next word, `SourceUnderrun` when none is left. -/
def getWord : List Word → Except Trap (Word × List Word)
  | [] => .error underrun
  | w :: s => .ok (w, s)

/-- `take(n)`: the next `n` words, `SourceUnderrun` when there are fewer. -/
def takeWords (n : Nat) (s : List Word) : Except Trap (List Word × List Word) :=
  if s.length < n then .error underrun else .ok (s.take n, s.drop n)

/-! ## Arithmetic of 00_scope.md section 5 -/

/-- `floor_G(n)`. -/
def floorTo (g n : Nat) : Nat := n - n % g

/-- `ceil4(n)`. -/
def ceil4 (n : Nat) : Nat := (n + 3) / 4

/-- `ceil32(n)`. -/
def ceil32 (n : Nat) : Nat := (n + 31) / 32

/-- `bitlen(v)`: 0 for 0, else the index of the highest set bit plus 1. -/
def bitlen (v : Word) : Nat := if v.toNat = 0 then 0 else v.toNat.log2 + 1

/-- `count` consecutive slices of `size` words. -/
def chunks (size : Nat) : Nat → List Word → List (List Word)
  | 0, _ => []
  | k + 1, a => a.take size :: chunks size k (a.drop size)

/-- The words of a byte list: four bytes a word, byte 0 lowest, the missing bytes of the last word `00` (R266, R172). -/
def wordsOfBytes : List Byte → List Word
  | [] => []
  | [b0] => [joinBytes b0 0 0 0]
  | [b0, b1] => [joinBytes b0 b1 0 0]
  | [b0, b1, b2] => [joinBytes b0 b1 b2 0]
  | b0 :: b1 :: b2 :: b3 :: bs => joinBytes b0 b1 b2 b3 :: wordsOfBytes bs

/-- The bytes of a word list, byte 0 of each word first (R268, R43). -/
def bytesOfWords (ws : List Word) : List Byte :=
  ws.flatMap fun w => [wordByte w 0, wordByte w 1, wordByte w 2, wordByte w 3]

end Sys2Proof.Machine
end

