-- ==== Sys2Proof/Machine/BitPrimitives.lean ====
section
/-! DEFINITION. 41_bitprimitives.md: the lane functions `pack_b`, `unpack_b`, and PACK, PACKU, UNPACK. -/

namespace Sys2Proof.Machine

/-- The virtual bitstream as one number: the sum over `i` of `trunc_w(V[i]) * 2^(i*w)` (R111, R112). -/
def ofLanes (w : Nat) : List Word → Nat
  | [] => 0
  | v :: vs => v.toNat % 2 ^ w + 2 ^ w * ofLanes w vs

/-- `count` fields of `w` bits of the number `S`, the field at bit 0 first: entry `i` is `(S div 2^(i*w)) mod 2^w` (R111, R112). -/
def toLanes (w : Nat) : Nat → Nat → List Word
  | 0, _ => []
  | k + 1, S => BitVec.ofNat 32 (S % 2 ^ w) :: toLanes w k (S / 2 ^ w)

/-- `pack_b(V)` (R111): `b` words. -/
def pack (b : Nat) (V : List Word) : List Word := toLanes 32 b (ofLanes b V)

/-- `unpack_b(W)` (R112): 32 words. -/
def unpack (b : Nat) (W : List Word) : List Word := toLanes b 32 (ofLanes 32 W)

/-- `k` sub-blocks, each `unpack_b(s.take(b))`: the unpacked words and the rest of the reader (R140, R169). -/
def unpackBlocks (b : Nat) : Nat → List Word → Except Trap (List Word × List Word)
  | 0, s => .ok ([], s)
  | k + 1, s => do
    let (w, s) ← takeWords b s
    let (u, s) ← unpackBlocks b k s
    return (unpack b w ++ u, s)

/-- The pure function of `PACK b` (R113). -/
def packEval (b : Nat) (src : List Word) : Except Trap Evaluated :=
  if src.length < 32 then .error underrun
  else .ok { read := 32, out := pack b (src.take 32) }

/-- Every one of the 32 inputs is below `2^b` (R114). -/
def allFit (b : Nat) (V : List Word) : Bool := V.all fun v => decide (v.toNat < 2 ^ b)

/-- The pure function of `PACKU b` (R114): as `PACK b` when the inputs fit, else `b` words of `free`, drawn freely (U1; log 12). -/
def packuEval (free : List Word) (b : Nat) (src : List Word) : Except Trap Evaluated :=
  if src.length < 32 then .error underrun
  else if allFit b (src.take 32) then .ok { read := 32, out := pack b (src.take 32) }
  else .ok { read := 32, out := free, drawn := b }

/-- The pure function of `UNPACK b` (R115). -/
def unpackEval (b : Nat) (src : List Word) : Except Trap Evaluated :=
  if src.length < b then .error underrun
  else .ok { read := b, out := unpack b (src.take b) }

/-- `PACK b` (R113). -/
def execPack (b : Nat) (s : State) : Result := widthCommand b (packEval b) s

/-- `PACKU b` (R114). -/
def execPacku (b : Nat) (s : State) : Result := widthCommand b (packuEval (s.freeWords b) b) s

/-- `UNPACK b` (R115). -/
def execUnpack (b : Nat) (s : State) : Result := widthCommand b (unpackEval b) s

end Sys2Proof.Machine
end

