-- ==== Sys2Proof/Machine/BlockCodec.lean ====
section
/-! DEFINITION. 42_blockcodec.md sections 2 and 3: BinaryPacking's two functions. The codec forms and the commands that use them stand in Codecs.lean. -/

namespace Sys2Proof.Machine

/-- `width(V)`: `bitlen` of the OR of the block's words (R136). -/
def width (V : List Word) : Nat := bitlen (V.foldl (· ||| ·) 0)

/-- A group header: four widths, the first in the low byte (R137). -/
def groupHeader (b0 b1 b2 b3 : Nat) : Word := BitVec.ofNat 32 (b0 + b1 * 2 ^ 8 + b2 * 2 ^ 16 + b3 * 2 ^ 24)

/-- The stream of a list of blocks: full groups of four, then each leftover block under its own header (R137, R138, R139). -/
def bpBlocks : List (List Word) → List Word
  | B0 :: B1 :: B2 :: B3 :: rest =>
    groupHeader (width B0) (width B1) (width B2) (width B3) ::
      (pack (width B0) B0 ++ pack (width B1) B1 ++ pack (width B2) B2 ++ pack (width B3) B3 ++ bpBlocks rest)
  | B :: rest => BitVec.ofNat 32 (width B) :: (pack (width B) B ++ bpBlocks rest)
  | [] => []

/-- `HC_BP(A)` (R139). -/
def bpCompress (A : List Word) : CodecResult :=
  .ok (floorTo 32 A.length, bpBlocks (chunks 32 (A.length / 32) A))

/-- `k` groups of four blocks: every width byte is checked before any data is taken (R140). -/
def bpGroups : Nat → List Word → Except Trap (List Word × List Word)
  | 0, s => .ok ([], s)
  | k + 1, s => do
    let (H, s) ← getWord s
    let b0 := H.toNat % 2 ^ 8
    let b1 := H.toNat / 2 ^ 8 % 2 ^ 8
    let b2 := H.toNat / 2 ^ 16 % 2 ^ 8
    let b3 := H.toNat / 2 ^ 24
    if 32 < b0 ∨ 32 < b1 ∨ 32 < b2 ∨ 32 < b3 then .error malformed else do
    let (w0, s) ← takeWords b0 s
    let (w1, s) ← takeWords b1 s
    let (w2, s) ← takeWords b2 s
    let (w3, s) ← takeWords b3 s
    let (u, s) ← bpGroups k s
    return (unpack b0 w0 ++ unpack b1 w1 ++ unpack b2 w2 ++ unpack b3 w3 ++ u, s)

/-- `k` single blocks: the whole header word is the width (R140). -/
def bpSingles : Nat → List Word → Except Trap (List Word × List Word)
  | 0, s => .ok ([], s)
  | k + 1, s => do
    let (H, s) ← getWord s
    if 32 < H.toNat then .error malformed else do
    let (w, s) ← takeWords H.toNat s
    let (u, s) ← bpSingles k s
    return (unpack H.toNat w ++ u, s)

/-- `HD_BP(W, n)` (R140): `nb div 4` groups, then `nb mod 4` single blocks. -/
def bpDecompress (W : List Word) (n : Nat) : CodecResult := do
  let nb := n / 32
  let (u, s) ← bpGroups (nb / 4) W
  let (v, s) ← bpSingles (nb % 4) s
  return (W.length - s.length, u ++ v)

end Sys2Proof.Machine
end

