-- ==== Sys2Proof/Machine/SelectorCodec.lean ====
section
/-! DEFINITION. 44_selectorcodec.md: the layout tables, the functions `HC_T`, `HD_T`, `est_T`, and the commands S9.EST, S16.EST. -/

namespace Sys2Proof.Machine

/-- A table of layouts: entry `s` lists the widths of the slots of selector `s`, slot 0 first. -/
abbrev Layouts := List (List Nat)

/-- Simple9 / S9 (R220). -/
def simple9 : Layouts :=
  [List.replicate 28 1, List.replicate 14 2, List.replicate 9 3, List.replicate 7 4, List.replicate 5 5,
   List.replicate 4 7, List.replicate 3 9, List.replicate 2 14, [28]]

/-- Simple16 / S16 (R221). -/
def simple16 : Layouts :=
  [List.replicate 28 1,
   List.replicate 7 2 ++ List.replicate 14 1,
   List.replicate 7 1 ++ List.replicate 7 2 ++ List.replicate 7 1,
   List.replicate 14 1 ++ List.replicate 7 2,
   List.replicate 14 2,
   [4] ++ List.replicate 8 3,
   [3] ++ List.replicate 4 4 ++ List.replicate 3 3,
   List.replicate 7 4,
   List.replicate 4 5 ++ List.replicate 2 4,
   List.replicate 2 4 ++ List.replicate 4 5,
   List.replicate 3 6 ++ List.replicate 2 5,
   List.replicate 2 5 ++ List.replicate 3 6,
   List.replicate 4 7,
   [10, 9, 9],
   [14, 14],
   [28]]

/-- Every candidate value fits its slot; the candidates are the next `min(slots, remaining)` values (R224, D20). -/
def fits : List Nat → List Word → Bool
  | w :: ws, v :: vs => decide (v.toNat < 2 ^ w) && fits ws vs
  | _, _ => true

/-- The payload: value `j` at bit `OFF[j]`, the sum of the widths before it; slots with no value are 0 (R222, R223). -/
def payload : List Nat → List Word → Nat
  | w :: ws, v :: vs => v.toNat + 2 ^ w * payload ws vs
  | _, _ => 0

/-- The first selector from `s` on whose slots fit, with its layout (R224 "from most-values-per-word to least"). -/
def firstFit : Layouts → Nat → List Word → Option (Nat × List Nat)
  | [], _, _ => none
  | l :: ls, s, A => if fits l A then some (s, l) else firstFit ls (s + 1) A

/-- A selector word, `s<<28 | payload` (R223). -/
def selectorWord (s : Nat) (l : List Nat) (A : List Word) : Word := BitVec.ofNat 32 (s * 2 ^ 28 + payload l A)

/-- The loop of `HC_T` (R224); every round takes at least one value, so `|A|` rounds are enough. -/
def selectorWords (T : Layouts) : Nat → List Word → Except Trap (List Word)
  | 0, _ => .ok []
  | _ + 1, [] => .ok []
  | fuel + 1, v :: vs =>
    match firstFit T 0 (v :: vs) with
    | none => .error ⟨.valueTooLarge, v⟩
    | some (s, l) => do
      let out ← selectorWords T fuel ((v :: vs).drop l.length)
      return selectorWord s l (v :: vs) :: out

/-- `HC_T(A)` (R224): every word of `A` is consumed. -/
def selectorCompress (T : Layouts) (A : List Word) : CodecResult := do
  let out ← selectorWords T A.length A
  return (A.length, out)

/-- The values of the first `m` slots of a payload (R225). -/
def slotValues : List Nat → Nat → Nat → List Word
  | [], _, _ => []
  | _ :: _, _, 0 => []
  | w :: ws, p, m + 1 => BitVec.ofNat 32 (p % 2 ^ w) :: slotValues ws (p / 2 ^ w) m

/-- `HD_T(W, n)` (R225); a selector outside the table is `MalformedStream`. -/
def selectorDecompress (T : Layouts) : List Word → Nat → CodecResult
  | _, 0 => .ok (0, [])
  | [], _ + 1 => .error underrun
  | w :: ws, n + 1 =>
    match T[w.toNat / 2 ^ 28]? with
    | none => .error malformed
    | some l => do
      let (r, out) ← selectorDecompress T ws (n + 1 - l.length)
      return (r + 1, slotValues l w.toNat (n + 1) ++ out)

/-- `est_T(A)` (R226). -/
def selectorEstimate (T : Layouts) (A : List Word) : Except Trap Nat :=
  (selectorWords T A.length A).map List.length

/-- `S9.EST`, `S16.EST` (R231, R236): the source view alone is checked; `RC`, `WC` and `CP` are written; nothing is written to `M`, on a fault neither (log 5). -/
def estimateCommand (T : Layouts) (s : State) : Result :=
  if ¬ s.sourceValid then .next (s.takeFault ⟨.badView, 0⟩)
  else
    match selectorEstimate T s.source with
    | .error t => .next (s.takeFault t)
    | .ok w => .next { s with rc := BitVec.ofNat 32 (s.se.toNat - s.sp.toNat), wc := BitVec.ofNat 32 w, cp := s.cp + 1 }

/-- `S9.EST` (R231). -/
def execS9Est (s : State) : Result := estimateCommand simple9 s

/-- `S16.EST` (R236). -/
def execS16Est (s : State) : Result := estimateCommand simple16 s

end Sys2Proof.Machine
end

