-- ==== Sys2Proof/Machine/Patched.lean ====
section
/-! DEFINITION. 43_for_patched.md: the base-width selector, exceptions and patching, FastPFOR's pages, the NewPFD/OptPFD blocks. -/

namespace Sys2Proof.Machine

/-! ## The base-width selector -/

/-- `w[i] = bitlen(V[i])` (R160). -/
def widths (V : List Word) : List Nat := V.map bitlen

/-- `maxB`, the largest width of the block (R160). -/
def maxWidth (ws : List Nat) : Nat := ws.foldl max 0

/-- `exceptions(b)`: how many words are wider than `b` (R161). -/
def exceptionCount (ws : List Nat) (b : Nat) : Nat := ws.countP fun w => decide (b < w)

/-- `cost(b)` of the fixed-overhead model, in bits, on unbounded naturals (R162); `bs` is the block size and `m` is `maxB`. -/
def cost (bs ovh m : Nat) (ws : List Nat) (b : Nat) : Nat :=
  let e := exceptionCount ws b
  if m ≤ b then m * bs
  else e * ovh + e * (m - b) + b * bs - (if m - b = 1 then e else 0)

/-- Eligibility of a candidate `b < maxB` (R163). -/
def eligible (bs gap m : Nat) (ws : List Nat) (b : Nat) : Bool :=
  decide (exceptionCount ws b < bs) && decide (m - b ≤ gap)

/-- The walk of the greedy descent with `k` candidates `k-1, .., 0` left (R164). -/
def descend (bs ovh gap m : Nat) (ws : List Nat) (best bestCost : Nat) : Nat → Nat
  | 0 => best
  | b + 1 =>
    if eligible bs gap m ws b && decide (cost bs ovh m ws b < bestCost) then
      descend bs ovh gap m ws b (cost bs ovh m ws b) b
    else best

/-- Greedy descent (R164): `bestB` of a block, from its widths. -/
def greedyWidth (bs ovh gap : Nat) (ws : List Nat) : Nat :=
  let m := maxWidth ws
  descend bs ovh gap m ws m (m * bs) m

/-- The exceptions of a block at a width, positions counted from `i` (R167): `(position, value >>> b)` wherever the high bits are not 0. -/
def exceptionsFrom (b : Nat) : Nat → List Word → List (Nat × Word)
  | _, [] => []
  | i, v :: vs =>
    if v >>> b = 0 then exceptionsFrom b (i + 1) vs
    else (i, v >>> b) :: exceptionsFrom b (i + 1) vs

/-- The exception list of a block (R167). -/
def exceptions (b : Nat) (V : List Word) : List (Nat × Word) := exceptionsFrom b 0 V

/-- `X(b) = P(b) ++ Hi(b)` (R167). -/
def exceptionWords (b : Nat) (V : List Word) : List Word :=
  (exceptions b V).map (fun e => BitVec.ofNat 32 e.1) ++ (exceptions b V).map (·.2)

/-- The loop of the exhaustive search with `k` candidates `k-1, .., 0` left; ties keep the larger width (R165). -/
def searchAll (T : Layouts) (bs gap m : Nat) (V : List Word) (best bestCost : Nat) : Nat → Except Trap Nat
  | 0 => .ok best
  | b + 1 =>
    if eligible bs gap m (widths V) b then do
      let est ← selectorEstimate T (exceptionWords b V)
      if b * bs + 32 * est < bestCost then searchAll T bs gap m V b (b * bs + 32 * est) b
      else searchAll T bs gap m V best bestCost b
    else searchAll T bs gap m V best bestCost b

/-- Exhaustive search (R165): `bestB` of a block. -/
def exhaustiveWidth (T : Layouts) (bs gap : Nat) (V : List Word) : Except Trap Nat :=
  let m := maxWidth (widths V)
  searchAll T bs gap m V m (m * bs) m

/-- A block at a width: 32-word sub-blocks packed one after another, outliers masked (R169). -/
def packBlock (b : Nat) (V : List Word) : List Word := (chunks 32 (V.length / 32) V).flatMap (pack b)

/-- The patcher (R168): `U[p] <- U[p] | (h << b)`. -/
def patch (b : Nat) (U : List Word) (p : Nat) (h : Word) : List Word := U.modify p (· ||| h <<< b)

/-! ## FastPFOR -/

/-- The page lengths of `len` integers cut by the page bound, the last page holding the remainder (R170). -/
def pageSizes (page len : Nat) : List Nat :=
  List.replicate (len / page) page ++ if len % page = 0 then [] else [len % page]

/-- `PAGE = 0` or `PAGE mod 256 ≠ 0` is `BadConfig(PAGE)` (R170). -/
def pageFault (page : Word) : Option Trap :=
  if page.toNat = 0 ∨ page.toNat % 256 ≠ 0 then some ⟨.badConfig, page⟩ else none

/-- What one block adds to the page: bytes for `BC`, values for the buckets as (bucket, value), data words (R171). -/
structure BlockCode where
  bytes : List Byte
  exc : List (Nat × Word)
  data : List Word
deriving DecidableEq, Repr

/-- One block of a FastPFOR page (R171): `bestB`, `e`, and when `e > 0` `maxB` and the positions; the high bits go to bucket `maxB - bestB`. -/
def fpfBlock (bs ovh : Nat) (V : List Word) : BlockCode :=
  let ws := widths V
  let m := maxWidth ws
  let b := greedyWidth bs ovh 32 ws
  let ex := if b < m then exceptions b V else []
  { bytes := BitVec.ofNat 8 b :: BitVec.ofNat 8 ex.length ::
      if ex.length = 0 then [] else BitVec.ofNat 8 m :: ex.map fun e => BitVec.ofNat 8 e.1
    exc := ex.map fun e => (m - b, e.2)
    data := packBlock b V }

/-- Bucket `k` of a page: its values in the order the blocks added them (R171). -/
def bucket (exc : List (Nat × Word)) (k : Nat) : List Word := (exc.filter fun e => e.1 == k).map (·.2)

/-- A bucket's values in groups of 32, the last one filled with zeros, packed at width `k` (R172). -/
def packBucket (k : Nat) (vs : List Word) : List Word :=
  let groups := ceil32 vs.length
  (chunks 32 groups (vs ++ List.replicate (32 * groups - vs.length) 0)).flatMap (pack k)

/-- The presence bitmap: bit `k-1` exactly when bucket `k` is not empty, k = 1..32 (R172). -/
def bitmapOf (exc : List (Nat × Word)) : Nat :=
  ((List.range 32).map fun j => if (bucket exc (j + 1)).isEmpty then 0 else 2 ^ j).sum

/-- The buckets of a page in increasing `k`, a count word and the packed groups for each that is not empty (R172). -/
def bucketWords (exc : List (Nat × Word)) : List Word :=
  (List.range 32).flatMap fun j =>
    let vs := bucket exc (j + 1)
    if vs.isEmpty then [] else BitVec.ofNat 32 vs.length :: packBucket (j + 1) vs

/-- One page stream (R171, R172). -/
def fpfPage (bs ovh : Nat) (P : List Word) : List Word :=
  let blocks := (chunks bs (P.length / bs) P).map (fpfBlock bs ovh)
  let bc := blocks.flatMap (·.bytes)
  let exc := blocks.flatMap (·.exc)
  let data := blocks.flatMap (·.data)
  BitVec.ofNat 32 (1 + data.length) :: data ++
    BitVec.ofNat 32 bc.length :: wordsOfBytes bc ++
    BitVec.ofNat 32 (bitmapOf exc) :: bucketWords exc

/-- The pages of a list of integers cut by `sizes`, in order (R170). -/
def fpfPages (bs ovh : Nat) : List Nat → List Word → List Word
  | [], _ => []
  | k :: ks, A => fpfPage bs ovh (A.take k) ++ fpfPages bs ovh ks (A.drop k)

/-- `HC_FPF(A)` for block size `bs` (R170, R174, R178). -/
def fpfCompress (bs : Nat) (page ovh : Word) (A : List Word) : CodecResult :=
  match pageFault page with
  | some t => .error t
  | none =>
    let L := floorTo bs A.length
    .ok (L, fpfPages bs ovh.toNat (pageSizes page.toNat L) A)

/-- The buckets of a page from the reader at bucket `k`, `left` buckets to go: the values of `EX[k], EX[k+1], ..` and the rest (R173). -/
def readBuckets (bitmap : Nat) : Nat → Nat → List Word → Except Trap (List (List Word) × List Word)
  | 0, _, s => .ok ([], s)
  | left + 1, k, s =>
    if bitmap / 2 ^ (k - 1) % 2 = 0 then do
      let (bks, s) ← readBuckets bitmap left (k + 1) s
      return ([] :: bks, s)
    else do
      let (cnt, s) ← getWord s
      if cnt.toNat = 0 then .error malformed else do
      let (vs, s) ← unpackBlocks k (ceil32 cnt.toNat) s
      let (bks, s) ← readBuckets bitmap left (k + 1) s
      return (vs.take cnt.toNat :: bks, s)

/-- `nextbyte()`: `MalformedStream` past the end of `BC` (R173). -/
def nextByte : List Byte → Except Trap (Byte × List Byte)
  | [] => .error malformed
  | b :: bs => .ok (b, bs)

/-- `k` bytes by `nextbyte()` (R173). -/
def nextBytes : Nat → List Byte → Except Trap (List Byte × List Byte)
  | 0, bs => .ok ([], bs)
  | k + 1, bs => do
    let (b, bs) ← nextByte bs
    let (cs, bs) ← nextBytes k bs
    return (b :: cs, bs)

/-- The patch loop of one block (R173): the bucket of index `k` gives its next value for each position. The head of a bucket's list is the value at its read
pointer. -/
def patchBlock (bs b k : Nat) : List Byte → List Word → List (List Word) → Except Trap (List Word × List (List Word))
  | [], U, ex => .ok (U, ex)
  | p :: ps, U, ex =>
    if bs ≤ p.toNat then .error malformed
    else
      match (ex[k - 1]?).getD [] with
      | [] => .error malformed
      | h :: hs => patchBlock bs b k ps (patch b U p.toNat h) (ex.set (k - 1) hs)

/-- `maxB` and the positions of a block, read only when `e > 0` (R173). -/
def readExceptions (b e : Nat) (bc : List Byte) : Except Trap (Nat × List Byte × List Byte) :=
  if e = 0 then .ok (b, [], bc)
  else do
    let (m, bc) ← nextByte bc
    if ¬ (b < m.toNat ∧ m.toNat ≤ 32) then .error malformed else do
    let (pos, bc) ← nextBytes e bc
    return (m.toNat, pos, bc)

/-- The blocks of a page (R173): `limit` is how many data words the page may still take, so that the first check is `(index of s) + (BS/32)*bestB ≤ h0 + where`,
and at the end of the page no data word is left, the second check. -/
def fpfBlocks (bs : Nat) : Nat → List Byte → List (List Word) → Nat → List Word → Except Trap (List Word)
  | 0, _, _, limit, _ => if limit = 0 then .ok [] else .error malformed
  | k + 1, bc, ex, limit, s => do
    let (b, bc) ← nextByte bc
    let (e, bc) ← nextByte bc
    if 32 < b.toNat then .error malformed else do
    let (m, pos, bc) ← readExceptions b.toNat e.toNat bc
    if limit < bs / 32 * b.toNat then .error malformed else do
    let (U, s) ← unpackBlocks b.toNat (bs / 32) s
    let (U, ex) ← patchBlock bs b.toNat (m - b.toNat) pos U ex
    let out ← fpfBlocks bs k bc ex (limit - bs / 32 * b.toNat) s
    return U ++ out

/-- Decode one page of `pn` integers from the reader `W` at its offset word: the integers, and the reader where the next page starts (R173). -/
def fpfReadPage (bs pn : Nat) (W : List Word) : Except Trap (List Word × List Word) := do
  let (off, s) ← getWord W
  if off.toNat < 1 then .error malformed else do
  let (_, m) ← takeWords off.toNat W
  let (nbytes, m) ← getWord m
  let (bw, m) ← takeWords (ceil4 nbytes.toNat) m
  let bc := (bytesOfWords bw).take nbytes.toNat
  let (bitmap, m) ← getWord m
  let (ex, m) ← readBuckets bitmap.toNat 32 1 m
  let out ← fpfBlocks bs (pn / bs) bc ex (off.toNat - 1) s
  return (out, m)

/-- Page after page (R170). -/
def fpfReadPages (bs : Nat) : List Nat → List Word → Except Trap (List Word × List Word)
  | [], W => .ok ([], W)
  | pn :: ps, W => do
    let (u, W) ← fpfReadPage bs pn W
    let (v, W) ← fpfReadPages bs ps W
    return (u ++ v, W)

/-- `HD_FPF(W, n)` for block size `bs` (R170, R173, R175, R179). -/
def fpfDecompress (bs : Nat) (page : Word) (W : List Word) (n : Nat) : CodecResult :=
  match pageFault page with
  | some t => .error t
  | none => do
    let (out, s) ← fpfReadPages bs (pageSizes page.toNat (floorTo bs n)) W
    return (W.length - s.length, out)

/-! ## NewPFD and OptPFD -/

/-- Which search a patched codec uses (R164 or R165). -/
inductive Search
  | greedy
  | exhaustive
deriving DecidableEq, Repr

/-- `bestB` of a block of 128 with `GAP` = 28 (R186). -/
def pfdWidth (search : Search) (T : Layouts) (ovh : Nat) (V : List Word) : Except Trap Nat :=
  match search with
  | .greedy => .ok (greedyWidth 128 ovh 28 (widths V))
  | .exhaustive => exhaustiveWidth T 128 28 V

/-- The header word of a block: `bestB`, `e`, and `maxB` when `e > 0` (R185). -/
def pfdHeader (b e m : Nat) : Word := BitVec.ofNat 32 (b + e * 2 ^ 8 + (if e = 0 then 0 else m) * 2 ^ 16)

/-- One block stream: header, exceptions through the secondary codec when there are any, packed block (R185, R186). -/
def pfdBlock (search : Search) (T : Layouts) (ovh : Nat) (V : List Word) : Except Trap (List Word) := do
  let m := maxWidth (widths V)
  let b ← pfdWidth search T ovh V
  let e := exceptionCount (widths V) b
  if e = 0 then return pfdHeader b e m :: packBlock b V
  else do
    let (_, x) ← selectorCompress T (exceptionWords b V)
    return pfdHeader b e m :: (x ++ packBlock b V)

/-- The blocks in order (R186). -/
def pfdBlocks (search : Search) (T : Layouts) (ovh : Nat) : List (List Word) → Except Trap (List Word)
  | [] => .ok []
  | V :: Vs => do
    let x ← pfdBlock search T ovh V
    let y ← pfdBlocks search T ovh Vs
    return x ++ y

/-- `HC_PFD(A)` (R186). -/
def pfdCompress (search : Search) (T : Layouts) (ovh : Word) (A : List Word) : CodecResult := do
  let out ← pfdBlocks search T ovh.toNat (chunks 128 (A.length / 128) A)
  return (floorTo 128 A.length, out)

/-- The patch loop of R187: positions and high bits come as one list each. -/
def pfdPatch (b : Nat) : List (Word × Word) → List Word → Except Trap (List Word)
  | [], U => .ok U
  | (p, h) :: ps, U => if 128 ≤ p.toNat then .error malformed else pfdPatch b ps (patch b U p.toNat h)

/-- The header checks of R187. -/
def pfdHeaderOk (top b e m : Nat) : Bool :=
  decide (top = 0) && decide (b ≤ 32) && (decide (e ≠ 0) || decide (m = 0)) &&
    (decide (e = 0) || (decide (b < m) && decide (m ≤ 32) && decide (m - b ≤ 28) && decide (e < 128)))

/-- The exceptions of a block, read through the secondary codec only when `e > 0`: pairs of position and high bits (R187). -/
def pfdExceptions (T : Layouts) (e : Nat) (s : List Word) : Except Trap (List (Word × Word) × List Word) :=
  if e = 0 then .ok ([], s)
  else do
    let (u, X) ← selectorDecompress T s (2 * e)
    return ((X.take e).zip (X.drop e), s.drop u)

/-- `k` blocks from the reader (R187). -/
def pfdReadBlocks (T : Layouts) : Nat → List Word → Except Trap (List Word × List Word)
  | 0, s => .ok ([], s)
  | k + 1, s => do
    let (H, s) ← getWord s
    let b := H.toNat % 2 ^ 8
    let e := H.toNat / 2 ^ 8 % 2 ^ 8
    let m := H.toNat / 2 ^ 16 % 2 ^ 8
    if ¬ pfdHeaderOk (H.toNat / 2 ^ 24) b e m then .error malformed else do
    let (ps, s) ← pfdExceptions T e s
    let (U, s) ← unpackBlocks b 4 s
    let U ← pfdPatch b ps U
    let (v, s) ← pfdReadBlocks T k s
    return (U ++ v, s)

/-- `HD_PFD(W, n)` (R187). -/
def pfdDecompress (T : Layouts) (W : List Word) (n : Nat) : CodecResult := do
  let (out, s) ← pfdReadBlocks T (n / 128) W
  return (W.length - s.length, out)

end Sys2Proof.Machine
end

