-- ==== Sys2Proof/Machine/VariableByte.lean ====
section
/-! DEFINITION. 46_variablebyte.md: VariableByte's two functions. -/

namespace Sys2Proof.Machine

/-- The loop of `vbytes` with at most `more` further continuation bytes (R265): a 32-bit value needs at most four of them. -/
def vbytesFrom : Nat → Nat → List Byte
  | 0, v => [BitVec.ofNat 8 v]
  | more + 1, v => if 128 ≤ v then BitVec.ofNat 8 (v % 128 + 128) :: vbytesFrom more (v / 128) else [BitVec.ofNat 8 v]

/-- `vbytes(v)` (R265): 1 to 5 bytes. -/
def vbytes (v : Word) : List Byte := vbytesFrom 4 v.toNat

/-- `HC_VB(A)` (R267). -/
def vbCompress (A : List Word) : CodecResult := .ok (A.length, wordsOfBytes (A.flatMap vbytes))

/-- One value from the byte stream, `k` bytes of it read and worth `v` (R268): before a sixth byte `MalformedStream`, past the source `SourceUnderrun`. -/
def vbValue : Nat → Nat → List Byte → Except Trap (Word × List Byte)
  | k, v, bytes =>
    if 5 ≤ k then .error malformed
    else
      match bytes with
      | [] => .error underrun
      | c :: bytes =>
        let v := v + c.toNat % 128 * 2 ^ (7 * k)
        if c.toNat / 128 = 0 then .ok (BitVec.ofNat 32 v, bytes) else vbValue (k + 1) v bytes

/-- `n` values from the byte stream (R268). -/
def vbValues : Nat → List Byte → Except Trap (List Word × List Byte)
  | 0, bytes => .ok ([], bytes)
  | n + 1, bytes => do
    let (v, bytes) ← vbValue 0 0 bytes
    let (vs, bytes) ← vbValues n bytes
    return (v :: vs, bytes)

/-- `HD_VB(W, n)` (R268): every word a byte was taken from is consumed. -/
def vbDecompress (W : List Word) (n : Nat) : CodecResult := do
  let bytes := bytesOfWords W
  let (vs, rest) ← vbValues n bytes
  return (ceil4 (bytes.length - rest.length), vs)

end Sys2Proof.Machine
end

