-- ==== Sys2Proof/Machine/Codecs.lean ====
section
/-! DEFINITION. 42_blockcodec.md section 1: the four forms of every codec of 30_encoding.md R63, as pure functions and as commands. -/

namespace Sys2Proof.Machine

/-- `HC_K(A)`, headless compress, with the registers `PAGE` and `OVH` (R130). -/
def headlessCompress (k : Codec) (page ovh : Word) (A : List Word) : CodecResult :=
  match k with
  | .bp => bpCompress A
  | .fpf128 => fpfCompress 128 page ovh A
  | .fpf256 => fpfCompress 256 page ovh A
  | .npfd9 => pfdCompress .greedy simple9 ovh A
  | .npfd16 => pfdCompress .greedy simple16 ovh A
  | .opfd9 => pfdCompress .exhaustive simple9 ovh A
  | .opfd16 => pfdCompress .exhaustive simple16 ovh A
  | .s9 => selectorCompress simple9 A
  | .s16 => selectorCompress simple16 A
  | .vb => vbCompress A

/-- `HD_K(W, n)`, headless decompress, with the register `PAGE` (R130). -/
def headlessDecompress (k : Codec) (page : Word) (W : List Word) (n : Nat) : CodecResult :=
  match k with
  | .bp => bpDecompress W n
  | .fpf128 => fpfDecompress 128 page W n
  | .fpf256 => fpfDecompress 256 page W n
  | .npfd9 | .opfd9 => pfdDecompress simple9 W n
  | .npfd16 | .opfd16 => pfdDecompress simple16 W n
  | .s9 => selectorDecompress simple9 W n
  | .s16 => selectorDecompress simple16 W n
  | .vb => vbDecompress W n

/-- `G_K`, the granule (R131). -/
def granule : Codec → Nat
  | .bp => 32
  | .fpf128 | .npfd9 | .npfd16 | .opfd9 | .opfd16 => 128
  | .fpf256 => 256
  | .s9 | .s16 | .vb => 1

/-- `C_K(A)`, headed compress (R134): the rounded count, then the headless stream of that many words; nothing at all when the count is 0. -/
def headedCompress (k : Codec) (page ovh : Word) (A : List Word) : CodecResult :=
  let L := floorTo (granule k) A.length
  if L = 0 then .ok (0, [])
  else do
    let (r, out) ← headlessCompress k page ovh (A.take L)
    return (r, BitVec.ofNat 32 L :: out)

/-- `D_K(W)`, headed decompress (R135): an empty source is no fault. -/
def headedDecompress (k : Codec) (page : Word) (W : List Word) : CodecResult :=
  match W with
  | [] => .ok (0, [])
  | L :: W => do
    let (r, out) ← headlessDecompress k page W L.toNat
    return (1 + r, out)

/-- `<K>.HC` (R132). -/
def runHc (k : Codec) (s : State) : Result := codecCommand (headlessCompress k s.page s.ovh) s

/-- `<K>.HD` (R133): the count is the register `N`. -/
def runHd (k : Codec) (s : State) : Result := codecCommand (fun src => headlessDecompress k s.page src s.n.toNat) s

/-- `<K>.C` (R134). -/
def runC (k : Codec) (s : State) : Result := codecCommand (headedCompress k s.page s.ovh) s

/-- `<K>.D` (R135): `N` is not read. -/
def runD (k : Codec) (s : State) : Result := codecCommand (headedDecompress k s.page) s

/-- `BP.HC` (R139). -/
def execBpHc (s : State) : Result := runHc .bp s

/-- `BP.HD` (R140). -/
def execBpHd (s : State) : Result := runHd .bp s

/-- `BP.C` (R141). -/
def execBpC (s : State) : Result := runC .bp s

/-- `BP.D` (R142). -/
def execBpD (s : State) : Result := runD .bp s

/-- `FPF128.HC` (R174). -/
def execFpf128Hc (s : State) : Result := runHc .fpf128 s

/-- `FPF128.HD` (R175). -/
def execFpf128Hd (s : State) : Result := runHd .fpf128 s

/-- `FPF128.C` (R176). -/
def execFpf128C (s : State) : Result := runC .fpf128 s

/-- `FPF128.D` (R177). -/
def execFpf128D (s : State) : Result := runD .fpf128 s

/-- `FPF256.HC` (R178). -/
def execFpf256Hc (s : State) : Result := runHc .fpf256 s

/-- `FPF256.HD` (R179). -/
def execFpf256Hd (s : State) : Result := runHd .fpf256 s

/-- `FPF256.C` (R180). -/
def execFpf256C (s : State) : Result := runC .fpf256 s

/-- `FPF256.D` (R181). -/
def execFpf256D (s : State) : Result := runD .fpf256 s

/-- `NPFD9.HC` (R188). -/
def execNpfd9Hc (s : State) : Result := runHc .npfd9 s

/-- `NPFD9.HD` (R189). -/
def execNpfd9Hd (s : State) : Result := runHd .npfd9 s

/-- `NPFD9.C` (R190). -/
def execNpfd9C (s : State) : Result := runC .npfd9 s

/-- `NPFD9.D` (R191). -/
def execNpfd9D (s : State) : Result := runD .npfd9 s

/-- `NPFD16.HC` (R192). -/
def execNpfd16Hc (s : State) : Result := runHc .npfd16 s

/-- `NPFD16.HD` (R193). -/
def execNpfd16Hd (s : State) : Result := runHd .npfd16 s

/-- `NPFD16.C` (R194). -/
def execNpfd16C (s : State) : Result := runC .npfd16 s

/-- `NPFD16.D` (R195). -/
def execNpfd16D (s : State) : Result := runD .npfd16 s

/-- `OPFD9.HC` (R196). -/
def execOpfd9Hc (s : State) : Result := runHc .opfd9 s

/-- `OPFD9.HD` (R197). -/
def execOpfd9Hd (s : State) : Result := runHd .opfd9 s

/-- `OPFD9.C` (R198). -/
def execOpfd9C (s : State) : Result := runC .opfd9 s

/-- `OPFD9.D` (R199). -/
def execOpfd9D (s : State) : Result := runD .opfd9 s

/-- `OPFD16.HC` (R200). -/
def execOpfd16Hc (s : State) : Result := runHc .opfd16 s

/-- `OPFD16.HD` (R201). -/
def execOpfd16Hd (s : State) : Result := runHd .opfd16 s

/-- `OPFD16.C` (R202). -/
def execOpfd16C (s : State) : Result := runC .opfd16 s

/-- `OPFD16.D` (R203). -/
def execOpfd16D (s : State) : Result := runD .opfd16 s

/-- `S9.HC` (R227). -/
def execS9Hc (s : State) : Result := runHc .s9 s

/-- `S9.HD` (R228). -/
def execS9Hd (s : State) : Result := runHd .s9 s

/-- `S9.C` (R229). -/
def execS9C (s : State) : Result := runC .s9 s

/-- `S9.D` (R230). -/
def execS9D (s : State) : Result := runD .s9 s

/-- `S16.HC` (R232). -/
def execS16Hc (s : State) : Result := runHc .s16 s

/-- `S16.HD` (R233). -/
def execS16Hd (s : State) : Result := runHd .s16 s

/-- `S16.C` (R234). -/
def execS16C (s : State) : Result := runC .s16 s

/-- `S16.D` (R235). -/
def execS16D (s : State) : Result := runD .s16 s

/-- `VB.HC` (R267). -/
def execVbHc (s : State) : Result := runHc .vb s

/-- `VB.HD` (R269). -/
def execVbHd (s : State) : Result := runHd .vb s

/-- `VB.C` (R270). -/
def execVbC (s : State) : Result := runC .vb s

/-- `VB.D` (R271). -/
def execVbD (s : State) : Result := runD .vb s

end Sys2Proof.Machine
end

