-- ==== Sys2Proof/Machine/Composition.lean ====
section
/-! DEFINITION. 47_composition.md: Composition, TopLevelCompressor and COMP.C, COMP.D, TOP.C, TOP.D. -/

namespace Sys2Proof.Machine

/-- `COMP_C(k1, k2, A)` (R280): the headed first stage, or the zero marker when it wrote nothing, then the headless second stage over what is left. -/
def compCompress (k1 k2 : Codec) (page ovh : Word) (A : List Word) : CodecResult := do
  let (r1, o1) ← headedCompress k1 page ovh A
  let (r2, o2) ← headlessCompress k2 page ovh (A.drop r1)
  return (r1 + r2, (if o1 = [] then [0] else o1) ++ o2)

/-- `COMP_D(k1, k2, W, n)` (R281). -/
def compDecompress (k1 k2 : Codec) (page : Word) (W : List Word) (n : Nat) : CodecResult := do
  let (u1, o1) ← headedDecompress k1 page W
  if n < o1.length then .error ⟨.badCount, 0⟩ else do
  let (u2, o2) ← headlessDecompress k2 page (W.drop u1) (n - o1.length)
  return (u1 + u2, o1 ++ o2)

/-- `TOP_C(k1, k2, A)` (R284): the count word is `|A|`, whether or not the inner codec consumed them all. -/
def topCompress (k1 : Codec) (k2 : Option Codec) (page ovh : Word) (A : List Word) : CodecResult := do
  let (r, o) ←
    match k2 with
    | none => headlessCompress k1 page ovh A
    | some k2 => compCompress k1 k2 page ovh A
  return (r, BitVec.ofNat 32 A.length :: o)

/-- `TOP_D(k1, k2, W)` (R285): an empty source is `SourceUnderrun`. -/
def topDecompress (k1 : Codec) (k2 : Option Codec) (page : Word) (W : List Word) : CodecResult :=
  match W with
  | [] => .error underrun
  | c :: W => do
    let (u, o) ←
      match k2 with
      | none => headlessDecompress k1 page W c.toNat
      | some k2 => compDecompress k1 k2 page W c.toNat
    return (1 + u, o)

/-- `COMP.C k1, k2` (R282). -/
def execCompC (k1 k2 : Codec) (s : State) : Result := codecCommand (compCompress k1 k2 s.page s.ovh) s

/-- `COMP.D k1, k2` (R283): the count is the register `N`. -/
def execCompD (k1 k2 : Codec) (s : State) : Result := codecCommand (fun src => compDecompress k1 k2 s.page src s.n.toNat) s

/-- `TOP.C k1, k2` (R286). -/
def execTopC (k1 : Codec) (k2 : Option Codec) (s : State) : Result := codecCommand (topCompress k1 k2 s.page s.ovh) s

/-- `TOP.D k1, k2` (R287): `N` is not read. -/
def execTopD (k1 : Codec) (k2 : Option Codec) (s : State) : Result := codecCommand (topDecompress k1 k2 s.page) s

end Sys2Proof.Machine
end

