-- ==== Sys2Proof/Machine/DeltaZigzag.lean ====
section
/-! DEFINITION. 45_deltazigzag.md: the filter and DZ.ENC, DZ.DEC. -/

namespace Sys2Proof.Machine

/-- `zigzag(n) = (n << 1) ^ (n >>s 31)` (R250). -/
def zigzag (n : Word) : Word := (n <<< 1) ^^^ (n.sshiftRight 31)

/-- `unzigzag(z) = (z >>> 1) ^ (0 -32 (z & 1))` (R251). -/
def unzigzag (z : Word) : Word := (z >>> 1) ^^^ (0 - (z &&& 1))

/-- The loop of `DZ.ENC` from the previous value `p`: the output and the last previous value (R252). -/
def dzEncode : Word → List Word → List Word × Word
  | p, [] => ([], p)
  | p, x :: xs =>
    let r := dzEncode x xs
    (zigzag (x - p) :: r.1, r.2)

/-- The loop of `DZ.DEC` (R253). -/
def dzDecode : Word → List Word → List Word × Word
  | p, [] => ([], p)
  | p, z :: zs =>
    let x := p + unzigzag z
    let r := dzDecode x zs
    (x :: r.1, r.2)

/-- A filter command: the whole source view, `ZP` from and to the state (R252, R253). -/
def filterCommand (f : Word → List Word → List Word × Word) (s : State) : Result :=
  dataCommand (fun src => .ok { read := src.length, out := (f s.zp src).1, zp := some (f s.zp src).2 }) s

/-- `DZ.ENC` (R252). -/
def execDzEnc (s : State) : Result := filterCommand dzEncode s

/-- `DZ.DEC` (R253). -/
def execDzDec (s : State) : Result := filterCommand dzDecode s

end Sys2Proof.Machine
end

