-- ==== Sys2Proof/Machine/Sequencer.lean ====
section
/-! DEFINITION. 40_sequencer.md: NOP, HALT, SET, MOV. -/

namespace Sys2Proof.Machine

/-- `NOP` (R91). -/
def execNop (s : State) : Result := .next (s.advance 1)

/-- `HALT` (R92): `CP` keeps the address of the `HALT`. -/
def execHalt (s : State) : Result := .next { s with status := .halted }

/-- `SET rd, imm32` (R93). -/
def execSet (rd : Reg) (imm : Word) (s : State) : Result := .next ((s.setReg rd imm).advance 2)

/-- `MOV rd, rs` (R94). -/
def execMov (rd rs : Reg) (s : State) : Result := .next ((s.setReg rd (s.reg rs)).advance 1)

end Sys2Proof.Machine
end

