-- ==== Sys2Proof/Machine/Dispatch.lean ====
section
/-! DEFINITION. One arm for each command: its meaning. -/

namespace Sys2Proof.Machine

def exec (i : Instr) (s : State) : Host.Outcome State Fault Refusal :=
  match i with
  | .nop => Sys2Proof.Machine.execNop s
  | .halt => Sys2Proof.Machine.execHalt s
  | .set rd imm => Sys2Proof.Machine.execSet rd imm s
  | .mov rd rs => Sys2Proof.Machine.execMov rd rs s
  | .pack b => Sys2Proof.Machine.execPack b s
  | .packu b => Sys2Proof.Machine.execPacku b s
  | .unpack b => Sys2Proof.Machine.execUnpack b s
  | .bpHc => Sys2Proof.Machine.execBpHc s
  | .bpHd => Sys2Proof.Machine.execBpHd s
  | .bpC => Sys2Proof.Machine.execBpC s
  | .bpD => Sys2Proof.Machine.execBpD s
  | .fpf128Hc => Sys2Proof.Machine.execFpf128Hc s
  | .fpf128Hd => Sys2Proof.Machine.execFpf128Hd s
  | .fpf128C => Sys2Proof.Machine.execFpf128C s
  | .fpf128D => Sys2Proof.Machine.execFpf128D s
  | .fpf256Hc => Sys2Proof.Machine.execFpf256Hc s
  | .fpf256Hd => Sys2Proof.Machine.execFpf256Hd s
  | .fpf256C => Sys2Proof.Machine.execFpf256C s
  | .fpf256D => Sys2Proof.Machine.execFpf256D s
  | .npfd9Hc => Sys2Proof.Machine.execNpfd9Hc s
  | .npfd9Hd => Sys2Proof.Machine.execNpfd9Hd s
  | .npfd9C => Sys2Proof.Machine.execNpfd9C s
  | .npfd9D => Sys2Proof.Machine.execNpfd9D s
  | .npfd16Hc => Sys2Proof.Machine.execNpfd16Hc s
  | .npfd16Hd => Sys2Proof.Machine.execNpfd16Hd s
  | .npfd16C => Sys2Proof.Machine.execNpfd16C s
  | .npfd16D => Sys2Proof.Machine.execNpfd16D s
  | .opfd9Hc => Sys2Proof.Machine.execOpfd9Hc s
  | .opfd9Hd => Sys2Proof.Machine.execOpfd9Hd s
  | .opfd9C => Sys2Proof.Machine.execOpfd9C s
  | .opfd9D => Sys2Proof.Machine.execOpfd9D s
  | .opfd16Hc => Sys2Proof.Machine.execOpfd16Hc s
  | .opfd16Hd => Sys2Proof.Machine.execOpfd16Hd s
  | .opfd16C => Sys2Proof.Machine.execOpfd16C s
  | .opfd16D => Sys2Proof.Machine.execOpfd16D s
  | .s9Hc => Sys2Proof.Machine.execS9Hc s
  | .s9Hd => Sys2Proof.Machine.execS9Hd s
  | .s9C => Sys2Proof.Machine.execS9C s
  | .s9D => Sys2Proof.Machine.execS9D s
  | .s16Hc => Sys2Proof.Machine.execS16Hc s
  | .s16Hd => Sys2Proof.Machine.execS16Hd s
  | .s16C => Sys2Proof.Machine.execS16C s
  | .s16D => Sys2Proof.Machine.execS16D s
  | .vbHc => Sys2Proof.Machine.execVbHc s
  | .vbHd => Sys2Proof.Machine.execVbHd s
  | .vbC => Sys2Proof.Machine.execVbC s
  | .vbD => Sys2Proof.Machine.execVbD s
  | .s9Est => Sys2Proof.Machine.execS9Est s
  | .s16Est => Sys2Proof.Machine.execS16Est s
  | .compC k1 k2 => Sys2Proof.Machine.execCompC k1 k2 s
  | .compD k1 k2 => Sys2Proof.Machine.execCompD k1 k2 s
  | .topC k1 k2 => Sys2Proof.Machine.execTopC k1 k2 s
  | .topD k1 k2 => Sys2Proof.Machine.execTopD k1 k2 s
  | .dzEnc => Sys2Proof.Machine.execDzEnc s
  | .dzDec => Sys2Proof.Machine.execDzDec s

end Sys2Proof.Machine
end

