-- ==== Sys2Proof/Machine/Fetch.lean ====
section
/-! DEFINITION. Command fetch (40_sequencer.md R90, 20_memory.md R50): the words at `CP`, and the fault of a fetch that gives no command. -/

namespace Sys2Proof.Machine

/-- The words of `M` at `CP` and `CP + 1`, as many of them as exist (R67; log 14). -/
def State.fetchWindow (s : State) : List Word :=
  if s.cp.toNat < s.memwords then
    s.wordAt s.cp.toNat :: if s.cp.toNat + 1 < s.memwords then [s.wordAt (s.cp.toNat + 1)] else []
  else []

/-- The fault of a fetch that gives no command: `FetchOutOfRange(CP)`, `IllegalCommand(w)`, `FetchOutOfRange(CP + 1)` (R90, R301, R302). -/
def fetchTrap (s : State) : Reject → Trap
  | .noCommand => ⟨.fetchOutOfRange, s.cp⟩
  | .illegal w => ⟨.illegalCommand, w⟩
  | .noImmediate => ⟨.fetchOutOfRange, s.cp + 1⟩

end Sys2Proof.Machine
end

