-- ==== Sys2Proof/Machine/Step.lean ====
section
/-! DEFINITION. The step (40_sequencer.md R90). -/

namespace Sys2Proof.Machine

/-- While `STATUS = RUNNING`: fetch, check, execute (R90), the fetch faults in the order of R314 (1), (2), (3). Otherwise the engine "does nothing and all state
survives" (R320; log 7). -/
def step (s : State) : Host.Outcome State Fault Refusal :=
  match s.status with
  | .running =>
    match decode s.fetchWindow with
    | .ok (i, _) => exec i s
    | .error r => .next (s.takeFault (fetchTrap s r))
  | .idle | .halted | .faulted => .next s

/-- `s` with an instruction's words, as the opcode table numbers their bits, at `CP` and `CP + 1`, and started as START starts a run (R96; log 9). Where `CP + 1`
is no address of `M` the command pointer is 0. -/
def State.withFetchWord (s : State) (nbits w : Nat) : State :=
  let s := if s.cp.toNat + 1 < s.memwords then s else { s with cp := 0, memwords := max 2 s.memwords }
  { s.memWrite s.cp.toNat (tableWords nbits w) with status := .running, cause := 0, finfo := 0 }

end Sys2Proof.Machine
end

