-- ==== Sys2Proof/Machine/HostPort.lean ====
section
/-! DEFINITION. The host's side of the engine: START, CLEAR, RESET and the accesses of 20_memory.md R51 and 10_state.md R22 to R24, as inputs (log 8). -/

namespace Sys2Proof.Machine

/-- What the host can do to the engine. -/
inductive HostMove
  /-- START at an address (40_sequencer.md R96) -/
  | start (a : Word)
  /-- CLEAR (60_exceptions.md R316) -/
  | clear
  /-- RESET of a powered engine that cuts no command short (70_reset_and_hazards.md R340) -/
  | reset
  /-- RESET of a powered engine while the command at `CP` is being executed (R340) -/
  | resetDuring
  /-- power-on reset (R340) -/
  | powerOn
  /-- a write of `M[a]` (R51) -/
  | writeWord (a : Nat) (w : Word)
  /-- a write of a general register (R51) -/
  | writeReg (r : Reg) (v : Word)
  /-- a write of `CP` (R51) -/
  | writeCp (v : Word)
  /-- a write of `STATUS` (R22) -/
  | writeStatus (v : BitVec 2)
  /-- a write of `CAUSE`, which R23 calls read-only for the host: DESIGN CHOICE, it changes nothing (log 20) -/
  | writeCause (v : BitVec 8)
  /-- a write of `FINFO`, which R24 calls read-only for the host: DESIGN CHOICE, it changes nothing (log 20) -/
  | writeFinfo (v : Word)
deriving DecidableEq, Repr

/-- START (R96): only from `IDLE`; ignored in `HALTED` and `FAULTED`; outside the spec while `RUNNING` (R51). -/
def State.start (s : State) (a : Word) : Result :=
  match s.status with
  | .idle => .next { s with cp := a, cause := 0, finfo := 0, status := .running }
  | .halted | .faulted => .next s
  | .running => .refused .hostWhileRunning

/-- RESET of a powered engine: every register at its reset value, `M` kept (R340). -/
def State.resetPowered (s : State) : State :=
  { State.resetOf s.memwords with mem := s.mem, epoch := s.epoch, draws := s.draws }

/-- A power-on reset: every register at its reset value, every word of `M` unspecified anew (R340). -/
def State.resetPowerOn (s : State) : State :=
  { State.resetOf s.memwords with epoch := s.epoch + 1, draws := s.draws }

/-- The data commands that have a destination view: all but the estimates (R13). -/
def hasDestination : Instr → Bool
  | .nop | .halt | .set _ _ | .mov _ _ | .s9Est | .s16Est => false
  | _ => true

/-- `M` as a RESET leaves it when it cuts the command at `CP` short: "the words of that command's destination view `[DP, DE)` are unspecified (the same treatment
as R52)" (R340; log 10). -/
def State.cutShort (s : State) : State :=
  match s.status, decode s.fetchWindow with
  | .running, .ok (i, _) => if hasDestination i then s.voidIfViews else s
  | _, _ => s

/-- A host write that R51 allows only while `STATUS ≠ RUNNING`. -/
def State.hostWrite (s t : State) : Result :=
  if s.status = .running then .refused .hostWhileRunning else .next t

/-- One host move. -/
def hostMove (m : HostMove) (s : State) : Result :=
  match m with
  | .start a => s.start a
  | .clear => .next s.clear
  | .reset => .next s.resetPowered
  | .resetDuring => .next s.cutShort.resetPowered
  | .powerOn => .next s.resetPowerOn
  | .writeWord a w => if a < s.memwords then s.hostWrite (s.memWrite a [w]) else .refused .hostNoSuchWord
  | .writeReg r v => s.hostWrite (s.setReg r v)
  | .writeCp v => s.hostWrite { s with cp := v }
  | .writeStatus v => if v = 0 then .next s.clear else .next s
  | .writeCause _ => s.hostWrite s
  | .writeFinfo _ => s.hostWrite s

/-- `STATUS` as the host reads it, at any time (R22, R51). -/
def State.hostReadStatus (s : State) : BitVec 2 := s.status.code

/-- A general register as the host reads it; while `RUNNING` the host has no such move (R51). -/
def State.hostReadReg (s : State) (r : Reg) : Option Word := if s.status = .running then none else some (s.reg r)

/-- A word of `M` as the host reads it; while `RUNNING` the host has no such move (R51). -/
def State.hostReadWord (s : State) (a : Nat) : Option Word :=
  if s.status = .running ∨ s.memwords ≤ a then none else some (s.wordAt a)

/-- `CP` as the host reads it (R51). -/
def State.hostReadCp (s : State) : Option Word := if s.status = .running then none else some s.cp

/-- `CAUSE` as the host reads it (R23, R51). -/
def State.hostReadCause (s : State) : Option (BitVec 8) := if s.status = .running then none else some s.cause

/-- `FINFO` as the host reads it (R24, R51). -/
def State.hostReadFinfo (s : State) : Option Word := if s.status = .running then none else some s.finfo

/-- What can happen next: the engine's step or one host move, in any order. -/
inductive Event
  | engine
  | host (m : HostMove)
deriving DecidableEq, Repr

/-- One event. -/
def event (e : Event) (s : State) : Result :=
  match e with
  | .engine => step s
  | .host m => hostMove m s

end Sys2Proof.Machine
end

