-- ==== Sys2Proof/Safety.lean ====
section
/-! DEFINITION. What counts as a legal state of the engine, as a safe run, as a commit and as a fault: the terms the statements use. -/

namespace Sys2Proof.Machine

/-- `CAUSE` and `FINFO` agree with `STATUS`: START zeroes both and only a fault writes them (R23, R24, R96, R315), with a code 1..11 (R312). -/
def State.causeLegal (s : State) : Prop :=
  match s.status with
  | .running | .halted => s.cause = 0 ∧ s.finfo = 0
  | .faulted => 1 ≤ s.cause.toNat ∧ s.cause.toNat ≤ 11
  | .idle => s.cause.toNat ≤ 11

/-- The states of an engine: `MEMWORDS` in its range (R3), memory in its canonical form and inside `M` (R26, R40), `CAUSE` and `FINFO` as `STATUS` says. -/
structure State.Legal (s : State) : Prop where
  memwords_pos : 1 ≤ s.memwords
  memwords_le : s.memwords ≤ Config.maxMemwords
  mem_wf : Memory.wf s.mem
  mem_inside : ∀ c ∈ s.mem, c.1 < 4 * s.memwords
  cause : s.causeLegal

/-- A run of `k` steps that ends in no fault of the engine. -/
def SafeFor (k : Nat) (s : State) : Prop :=
  ∃ t : State, core.run k s = .next t ∧ t.status ≠ .faulted

/-! ## Frames -/

/-- The views let a data command run: both valid, not overlapping (20_memory.md R41, R42). -/
def ViewsOk (s : State) : Prop := s.sourceValid ∧ s.destValid ∧ ¬ s.overlapping

/-- Every byte of memory reads as before. -/
def MemKept (s t : State) : Prop := ∀ i, t.byteAt i = s.byteAt i

/-- Every byte outside the words from `lo` up to and not with `hi` reads as before. -/
def MemKeptOutside (lo hi : Nat) (s t : State) : Prop := ∀ i, i < 4 * lo ∨ 4 * hi ≤ i → t.byteAt i = s.byteAt i

/-- Every general register but those of `rs` is as before. -/
def RegsKeptBut (rs : List Reg) (s t : State) : Prop := ∀ r, r ∉ rs → t.reg r = s.reg r

/-- `STATUS`, `CAUSE`, `FINFO` and `MEMWORDS` are as before. -/
def ControlKept (s t : State) : Prop :=
  t.status = s.status ∧ t.cause = s.cause ∧ t.finfo = s.finfo ∧ t.memwords = s.memwords

/-- `t` is `s` after a data command that consumed `r` words, wrote `out` and left `zp` in `ZP` (R46 (5)), and nothing else. -/
structure Committed (s t : State) (r : Nat) (out : List Word) (zp : Word) : Prop where
  sp : t.sp = s.sp + BitVec.ofNat 32 r
  dp : t.dp = s.dp + BitVec.ofNat 32 out.length
  rc : t.rc = BitVec.ofNat 32 r
  wc : t.wc = BitVec.ofNat 32 out.length
  zp : t.zp = zp
  cp : t.cp = s.cp + 1
  regs : RegsKeptBut [.sp, .dp, .rc, .wc, .zp] s t
  control : ControlKept s t
  stored : t.memRead s.dp.toNat out.length = out
  frame : MemKeptOutside s.dp.toNat (s.dp.toNat + out.length) s t

/-- `t` is `s` after a fault (R315, R52): the three status registers written, every general register, `CP` and every word outside `[DP, DE)` as before. -/
structure Faulted (s t : State) (c : Cause) (info : Word) : Prop where
  status : t.status = .faulted
  cause : t.cause = c.code
  finfo : t.finfo = info
  regs : RegsKeptBut [] s t
  cp : t.cp = s.cp
  memwords : t.memwords = s.memwords
  frame : MemKeptOutside s.dp.toNat s.de.toNat s t

/-! ## The codec commands by form, and what each data command evaluates -/

/-- The ten commands of opcode `0x20`. -/
def headlessCompressCommands : List (Instr × Codec) :=
  [(.bpHc, .bp), (.fpf128Hc, .fpf128), (.fpf256Hc, .fpf256), (.npfd9Hc, .npfd9), (.npfd16Hc, .npfd16),
   (.opfd9Hc, .opfd9), (.opfd16Hc, .opfd16), (.s9Hc, .s9), (.s16Hc, .s16), (.vbHc, .vb)]

/-- The ten commands of opcode `0x21`. -/
def headlessDecompressCommands : List (Instr × Codec) :=
  [(.bpHd, .bp), (.fpf128Hd, .fpf128), (.fpf256Hd, .fpf256), (.npfd9Hd, .npfd9), (.npfd16Hd, .npfd16),
   (.opfd9Hd, .opfd9), (.opfd16Hd, .opfd16), (.s9Hd, .s9), (.s16Hd, .s16), (.vbHd, .vb)]

/-- The ten commands of opcode `0x22`. -/
def headedCompressCommands : List (Instr × Codec) :=
  [(.bpC, .bp), (.fpf128C, .fpf128), (.fpf256C, .fpf256), (.npfd9C, .npfd9), (.npfd16C, .npfd16),
   (.opfd9C, .opfd9), (.opfd16C, .opfd16), (.s9C, .s9), (.s16C, .s16), (.vbC, .vb)]

/-- The ten commands of opcode `0x23`. -/
def headedDecompressCommands : List (Instr × Codec) :=
  [(.bpD, .bp), (.fpf128D, .fpf128), (.fpf256D, .fpf256), (.npfd9D, .npfd9), (.npfd16D, .npfd16),
   (.opfd9D, .opfd9), (.opfd16D, .opfd16), (.s9D, .s9), (.s16D, .s16), (.vbD, .vb)]

/-- A codec function's answer as a data command's. -/
def codecEvaluated (r : CodecResult) : Except Trap Evaluated := r.map fun p => { read := p.1, out := p.2 }

/-- `Evaluates s i e`: the pure function that the rule of the data command `i` gives has the value `e` on the state's source words and registers (R46 (2)). The
three width commands evaluate only with a width in range (R110). -/
inductive Evaluates (s : State) : Instr → Except Trap Evaluated → Prop
  | pack (b : Nat) (hb : b ≤ 32) : Evaluates s (.pack b) (packEval b s.source)
  | packu (b : Nat) (hb : b ≤ 32) : Evaluates s (.packu b) (packuEval (s.freeWords b) b s.source)
  | unpack (b : Nat) (hb : b ≤ 32) : Evaluates s (.unpack b) (unpackEval b s.source)
  | headlessCompress (i : Instr) (k : Codec) (h : (i, k) ∈ headlessCompressCommands) :
      Evaluates s i (codecEvaluated (headlessCompress k s.page s.ovh s.source))
  | headlessDecompress (i : Instr) (k : Codec) (h : (i, k) ∈ headlessDecompressCommands) :
      Evaluates s i (codecEvaluated (headlessDecompress k s.page s.source s.n.toNat))
  | headedCompress (i : Instr) (k : Codec) (h : (i, k) ∈ headedCompressCommands) :
      Evaluates s i (codecEvaluated (headedCompress k s.page s.ovh s.source))
  | headedDecompress (i : Instr) (k : Codec) (h : (i, k) ∈ headedDecompressCommands) :
      Evaluates s i (codecEvaluated (headedDecompress k s.page s.source))
  | compC (k1 k2 : Codec) : Evaluates s (.compC k1 k2) (codecEvaluated (compCompress k1 k2 s.page s.ovh s.source))
  | compD (k1 k2 : Codec) : Evaluates s (.compD k1 k2) (codecEvaluated (compDecompress k1 k2 s.page s.source s.n.toNat))
  | topC (k1 : Codec) (k2 : Option Codec) : Evaluates s (.topC k1 k2) (codecEvaluated (topCompress k1 k2 s.page s.ovh s.source))
  | topD (k1 : Codec) (k2 : Option Codec) : Evaluates s (.topD k1 k2) (codecEvaluated (topDecompress k1 k2 s.page s.source))
  | dzEnc : Evaluates s .dzEnc (.ok { read := s.source.length, out := (dzEncode s.zp s.source).1, zp := some (dzEncode s.zp s.source).2 })
  | dzDec : Evaluates s .dzDec (.ok { read := s.source.length, out := (dzDecode s.zp s.source).1, zp := some (dzDecode s.zp s.source).2 })

/-- The conditions under which rule R66 calls a command word illegal, over its four fields. -/
def IllegalByR66 (w : Word) : Prop :=
  let opc := w.toNat / 2 ^ 24
  let a := w.toNat / 2 ^ 16 % 256
  let b := w.toNat / 2 ^ 8 % 256
  let c := w.toNat % 256
  opc ∉ [0x00, 0x01, 0x02, 0x03, 0x10, 0x11, 0x12, 0x20, 0x21, 0x22, 0x23, 0x24, 0x28, 0x29, 0x2A, 0x2B, 0x30, 0x31] ∨
  c ≠ 0 ∨
  (opc ∈ [0x00, 0x01, 0x30, 0x31] ∧ (a ≠ 0 ∨ b ≠ 0)) ∨
  (opc ∈ [0x02, 0x10, 0x11, 0x12, 0x20, 0x21, 0x22, 0x23, 0x24] ∧ b ≠ 0) ∨
  (opc = 0x02 ∧ 9 < a) ∨
  (opc = 0x03 ∧ (9 < a ∨ 9 < b)) ∨
  (opc ∈ [0x20, 0x21, 0x22, 0x23, 0x28, 0x29, 0x2A, 0x2B] ∧ 9 < a) ∨
  (opc ∈ [0x28, 0x29] ∧ 9 < b) ∨
  (opc ∈ [0x2A, 0x2B] ∧ 9 < b ∧ b ≠ 15) ∨
  (opc = 0x24 ∧ a ≠ 7 ∧ a ≠ 8)

/-- OptPFD's cost of a width: `costopt(maxB) = maxB * BS`, and for `b < maxB` `b*BS + 32 * est_T(X(b))` (43_for_patched.md R165). -/
def OptCost (T : Layouts) (bs m : Nat) (V : List Word) (b c : Nat) : Prop :=
  (b = m ∧ c = m * bs) ∨ (b < m ∧ ∃ est, selectorEstimate T (exceptionWords b V) = .ok est ∧ c = b * bs + 32 * est)

/-- Every candidate value fits its slot (44_selectorcodec.md R224). -/
def FitsSlots (l : List Nat) (A : List Word) : Prop := ∀ (j w : Nat) (v : Word), l[j]? = some w → A[j]? = some v → v.toNat < 2 ^ w

/-- How many source words lie before those that a command hands to a selector codec: none, but where the second stage of a composition is the selector codec and
the first stage has consumed its input rounded down to its granule (47_composition.md R280). -/
def selectorStart (i : Instr) (n : Nat) : Nat :=
  match i with
  | .compC k1 _ | .topC k1 (some _) => if k1 ∈ [Codec.s9, .s16] then 0 else n - n % granule k1
  | _ => 0

/-! ## Stream layouts, as the tables of 43_for_patched.md give them -/

/-- `P(b)`: the positions, in increasing order, of the words that do not fit `b` bits (R167). -/
def positionsAt (b : Nat) (V : List Word) : List Nat := (List.range V.length).filter fun i => decide (V.getD i 0 >>> b ≠ 0)

/-- `Hi(b)`: the high bits of those words (R167). -/
def highBitsAt (b : Nat) (V : List Word) : List Word := (positionsAt b V).map fun i => V.getD i 0 >>> b

/-- The `size`-word slices of a list, in order. -/
def slices (size : Nat) (A : List Word) : List (List Word) := (List.range (A.length / size)).map fun j => (A.drop (size * j)).take size

/-- A block at width `b`: its 32-word sub-blocks packed one after another (R169). -/
def packedBlock (b : Nat) (V : List Word) : List Word := (slices 32 V).flatMap (pack b)

/-- The block stream of R185 for a secondary codec `T` and a chosen width `b`: a header word of four byte fields, the exceptions through the secondary codec, positions
first, only when there are any, and the packed block. -/
def PfdBlockLayout (T : Layouts) (b : Nat) (V out : List Word) : Prop :=
  let P := positionsAt b V
  ∃ (H : Word) (x : List Word), out = H :: (x ++ packedBlock b V) ∧
    H.toNat % 2 ^ 8 = b ∧ H.toNat / 2 ^ 8 % 2 ^ 8 = P.length ∧ H.toNat / 2 ^ 24 = 0 ∧
    (P = [] → H.toNat / 2 ^ 16 % 2 ^ 8 = 0 ∧ x = []) ∧
    (P ≠ [] → H.toNat / 2 ^ 16 % 2 ^ 8 = maxWidth (widths V) ∧
      selectorCompress T (P.map (BitVec.ofNat 32) ++ highBitsAt b V) = .ok (2 * P.length, x))

/-- The bytes a block adds to the byte container: `bestB`, `e`, and when `e > 0` `maxB` and the positions (R171). -/
def blockBytes (b : Nat) (V : List Word) : List Nat :=
  b :: (positionsAt b V).length :: if positionsAt b V = [] then [] else maxWidth (widths V) :: positionsAt b V

/-- A bucket in a page stream: its count, then its values filled with zeros to groups of 32, each packed at the bucket's width (R172). -/
def bucketStream (k : Nat) (vs : List Word) : List Word :=
  BitVec.ofNat 32 vs.length :: (List.range ((vs.length + 31) / 32)).flatMap fun g => pack k ((List.range 32).map fun l => vs.getD (32 * g + l) 0)

/-- The page stream of R172: offset word, packed blocks, length of the byte container, byte container, bitmap, buckets. -/
def FpfPageLayout (bs ovh : Nat) (page out : List Word) : Prop :=
  let blocks := slices bs page
  let best : List Word → Nat := fun V => greedyWidth bs ovh 32 (widths V)
  let bytes := blocks.flatMap fun V => blockBytes (best V) V
  let bucketAt : Nat → List Word := fun k =>
    blocks.flatMap fun V => if maxWidth (widths V) - best V = k then highBitsAt (best V) V else []
  ∃ (offset count bitmap : Word) (container : List Word),
    out = offset :: ((blocks.flatMap fun V => packedBlock (best V) V) ++ count :: (container ++ bitmap ::
      (List.range 32).flatMap fun j => if bucketAt (j + 1) = [] then [] else bucketStream (j + 1) (bucketAt (j + 1)))) ∧
    offset.toNat = 1 + (blocks.flatMap fun V => packedBlock (best V) V).length ∧
    count.toNat = bytes.length ∧
    container.length = (bytes.length + 3) / 4 ∧
    (∀ i, i < 4 * container.length → (container.getD (i / 4) 0).toNat / 2 ^ (8 * (i % 4)) % 2 ^ 8 = bytes.getD i 0) ∧
    (∀ k, 1 ≤ k → k ≤ 32 → (bitmap.getLsbD (k - 1) = true ↔ bucketAt k ≠ []))

/-! ## When the decompress functions fault (60_exceptions.md R306, R309), each over a function from words and a count -/

/-- A headless decompress with its `PAGE` fixed. -/
abbrev Decompress := List Word → Nat → CodecResult

/-- Words after those consumed are not read (R133), and a stream cut short anywhere inside them is `SourceUnderrun` (R306). -/
def ReadsExactly (dec : Decompress) : Prop :=
  ∀ (W : List Word) (n r : Nat) (out : List Word), dec W n = .ok (r, out) →
    (∀ X, dec (W.take r ++ X) n = .ok (r, out)) ∧ ∀ m, m < r → dec (W.take m) n = .error underrun

/-- Where `p n1 n2` holds, decoding `n1 + n2` integers is decoding `n1` and then `n2` from where the first part ended; the first fault met is the fault. -/
def RunsInSequence (p : Nat → Nat → Prop) (dec : Decompress) : Prop :=
  ∀ (W : List Word) (n1 n2 : Nat), p n1 n2 →
    (∀ e, dec W n1 = .error e → dec W (n1 + n2) = .error e) ∧
    (∀ r u, dec W n1 = .ok (r, u) →
      (∀ e, dec (W.drop r) n2 = .error e → dec W (n1 + n2) = .error e) ∧
      (∀ r' v, dec (W.drop r) n2 = .ok (r', v) → dec W (n1 + n2) = .ok (r + r', u ++ v)))

/-- BinaryPacking (42_blockcodec.md R140): the first header, and by the sequence every later one. Any byte of a group header above 32, and a single header above 32 as a whole
word, are malformed; a missing header or too few words after a legal one is an underrun. -/
def BinaryPackingFaults (dec : Decompress) : Prop :=
  RunsInSequence (fun n1 n2 => n1 % 128 = 0 ∨ n1 % 32 = 0 ∧ n1 + n2 < 128) dec ∧
  (∀ n, 32 ≤ n → dec [] n = .error underrun) ∧
  (∀ (H : Word) (W : List Word) (n : Nat), 128 ≤ n →
    let b : Nat → Nat := fun j => H.toNat / 2 ^ (8 * j) % 2 ^ 8
    ((∃ j, j < 4 ∧ 32 < b j) → dec (H :: W) n = .error malformed) ∧
    ((∀ j, j < 4 → b j ≤ 32) → W.length < b 0 + b 1 + b 2 + b 3 → dec (H :: W) n = .error underrun)) ∧
  (∀ (H : Word) (W : List Word) (n : Nat), 32 ≤ n → n < 128 →
    (32 < H.toNat → dec (H :: W) n = .error malformed) ∧
    (H.toNat ≤ 32 → W.length < H.toNat → dec (H :: W) n = .error underrun))

/-- The selector codecs (44_selectorcodec.md R225), word by word: a selector outside the table is malformed, a missing word an underrun, and a word whose selector names a
layout raises nothing itself. -/
def SelectorFaults (T : Layouts) (dec : Decompress) : Prop :=
  (∀ n, 0 < n → dec [] n = .error underrun) ∧
  (∀ (w : Word) (W : List Word) (n : Nat), 0 < n →
    (T.length ≤ w.toNat / 2 ^ 28 → dec (w :: W) n = .error malformed) ∧
    (∀ l, T[w.toNat / 2 ^ 28]? = some l →
      (∀ e, dec W (n - l.length) = .error e → dec (w :: W) n = .error e) ∧
      (∀ r out, dec W (n - l.length) = .ok (r, out) → ∃ vs, vs.length = min l.length n ∧ dec (w :: W) n = .ok (r + 1, vs ++ out))))

/-- VariableByte (46_variablebyte.md R268): after `m` values whose bytes are `Y`, five bytes with the continuation bit are malformed whatever follows, and fewer of them at the end
of the stream, or none, are an underrun. -/
def VariableByteFaults (dec : Decompress) : Prop :=
  ∀ (W vs : List Word) (Y Z : List Byte) (m n : Nat), vbValues m Y = .ok (vs, []) → m < n → (∀ c ∈ Z.take 5, 128 ≤ c.toNat) →
    bytesOfWords W = Y ++ Z →
    (5 ≤ Z.length → dec W n = .error malformed) ∧ (Z.length < 5 → dec W n = .error underrun)

/-- NewPFD and OptPFD (43_for_patched.md R187): the first block, and by the sequence every later one. The header's checks, then the faults of the secondary codec, then the block
data, then the positions. -/
def PfdFaults (T : Layouts) (dec : Decompress) : Prop :=
  RunsInSequence (fun n1 _ => n1 % 128 = 0) dec ∧
  (∀ n, 128 ≤ n → dec [] n = .error underrun) ∧
  ∀ (H : Word) (W : List Word) (n : Nat), 128 ≤ n →
    let b := H.toNat % 2 ^ 8
    let e := H.toNat / 2 ^ 8 % 2 ^ 8
    let m := H.toNat / 2 ^ 16 % 2 ^ 8
    let bad := H.toNat / 2 ^ 24 ≠ 0 ∨ 32 < b ∨ (e = 0 ∧ m ≠ 0) ∨ (e ≠ 0 ∧ ¬ (b < m ∧ m ≤ 32 ∧ m - b ≤ 28 ∧ e < 128))
    (bad → dec (H :: W) n = .error malformed) ∧
    (¬ bad → ∀ t, selectorDecompress T W (2 * e) = .error t → dec (H :: W) n = .error t) ∧
    (¬ bad → ∀ u X, selectorDecompress T W (2 * e) = .ok (u, X) →
      (W.length < u + 4 * b → dec (H :: W) n = .error underrun) ∧
      (u + 4 * b ≤ W.length → (∃ p ∈ X.take e, 128 ≤ p.toNat) → dec (H :: W) n = .error malformed) ∧
      (u + 4 * b ≤ W.length → (∀ p ∈ X.take e, p.toNat < 128) → n < 256 → ∃ out, dec (H :: W) n = .ok (1 + u + 4 * b, out)))

/-- The buckets of a FastPFOR page, from bucket `k` on with `left` to go (43_for_patched.md R173): a count of 0 is malformed, a missing count or too few words an underrun. -/
def BucketFaults : Prop :=
  ∀ (bitmap left k : Nat) (s : List Word),
    readBuckets bitmap 0 k s = .ok ([], s) ∧
    (bitmap / 2 ^ (k - 1) % 2 = 0 →
      (∀ t, readBuckets bitmap left (k + 1) s = .error t → readBuckets bitmap (left + 1) k s = .error t) ∧
      (∀ ex rest, readBuckets bitmap left (k + 1) s = .ok (ex, rest) → readBuckets bitmap (left + 1) k s = .ok ([] :: ex, rest))) ∧
    (bitmap / 2 ^ (k - 1) % 2 = 1 →
      readBuckets bitmap (left + 1) k [] = .error underrun ∧
      readBuckets bitmap (left + 1) k (0 :: s) = .error malformed ∧
      (∀ count : Word, 0 < count.toNat →
        let need := (count.toNat + 31) / 32 * k
        (s.length < need → readBuckets bitmap (left + 1) k (count :: s) = .error underrun) ∧
        (need ≤ s.length →
          (∀ t, readBuckets bitmap left (k + 1) (s.drop need) = .error t → readBuckets bitmap (left + 1) k (count :: s) = .error t) ∧
          (∀ ex rest, readBuckets bitmap left (k + 1) (s.drop need) = .ok (ex, rest) →
            ∃ vs, vs.length = count.toNat ∧ readBuckets bitmap (left + 1) k (count :: s) = .ok (vs :: ex, rest)))))

/-- The blocks of a FastPFOR page (R173), with `limit` data words left before the byte-container length word: missing bytes, `bestB` above 32, `maxB` outside `bestB + 1 .. 32`,
data past that word, a position outside the block, a bucket without a value left, and data words left over, are malformed; missing data words are an underrun. -/
def PageBlockFaults (bs : Nat) : Prop :=
  ∀ (k : Nat) (bytes : List Byte) (ex : List (List Word)) (limit : Nat) (s : List Word),
    (limit = 0 → fpfBlocks bs 0 bytes ex limit s = .ok []) ∧
    (limit ≠ 0 → fpfBlocks bs 0 bytes ex limit s = .error malformed) ∧
    (bytes.length < 2 → fpfBlocks bs (k + 1) bytes ex limit s = .error malformed) ∧
    ∀ b e bytes', bytes = b :: e :: bytes' →
      (32 < b.toNat → fpfBlocks bs (k + 1) bytes ex limit s = .error malformed) ∧
      (e.toNat ≠ 0 → bytes'.length < 1 + e.toNat → fpfBlocks bs (k + 1) bytes ex limit s = .error malformed) ∧
      (∀ m rest, e.toNat ≠ 0 → bytes' = m :: rest → ¬ (b.toNat < m.toNat ∧ m.toNat ≤ 32) → fpfBlocks bs (k + 1) bytes ex limit s = .error malformed) ∧
      ∀ m pos rest, b.toNat ≤ 32 →
        (e.toNat = 0 ∧ m = b ∧ pos = [] ∧ rest = bytes') ∨
          (e.toNat ≠ 0 ∧ bytes' = m :: (pos ++ rest) ∧ pos.length = e.toNat ∧ b.toNat < m.toNat ∧ m.toNat ≤ 32) →
        let need := bs / 32 * b.toNat
        let j := m.toNat - b.toNat - 1
        (limit < need → fpfBlocks bs (k + 1) bytes ex limit s = .error malformed) ∧
        (need ≤ limit → s.length < need → fpfBlocks bs (k + 1) bytes ex limit s = .error underrun) ∧
        (need ≤ limit → need ≤ s.length →
          ((∃ p ∈ pos, bs ≤ p.toNat) ∨ (ex.getD j []).length < e.toNat → fpfBlocks bs (k + 1) bytes ex limit s = .error malformed) ∧
          ((∀ p ∈ pos, p.toNat < bs) → e.toNat ≤ (ex.getD j []).length →
            (∀ t, fpfBlocks bs k rest (ex.modify j (List.drop e.toNat)) (limit - need) (s.drop need) = .error t →
              fpfBlocks bs (k + 1) bytes ex limit s = .error t) ∧
            (∀ out, fpfBlocks bs k rest (ex.modify j (List.drop e.toNat)) (limit - need) (s.drop need) = .ok out →
              ∃ U, U.length = 32 * (bs / 32) ∧ fpfBlocks bs (k + 1) bytes ex limit s = .ok (U ++ out))))

/-- FastPFOR with a legal `PAGE` (R170, R173): the first page, and by the sequence every later one. An offset word of 0 is malformed; an offset, a byte container or a bitmap past
the end of the words is an underrun; then the faults of the buckets, then those of the blocks. -/
def FastPforFaults (bs page : Nat) (dec : Decompress) : Prop :=
  RunsInSequence (fun n1 _ => n1 % page = 0) dec ∧
  ∀ n, bs ≤ n →
    dec [] n = .error underrun ∧
    (∀ W, dec (0 :: W) n = .error malformed) ∧
    ∀ (offset : Word) (W : List Word), 1 ≤ offset.toNat →
      ((offset :: W).length ≤ offset.toNat → dec (offset :: W) n = .error underrun) ∧
      ∀ (count : Word) (M : List Word), (offset :: W).drop offset.toNat = count :: M →
        let size := (count.toNat + 3) / 4
        (M.length ≤ size → dec (offset :: W) n = .error underrun) ∧
        ∀ (bitmap : Word) (B : List Word), M.drop size = bitmap :: B →
          (∀ t, readBuckets bitmap.toNat 32 1 B = .error t → dec (offset :: W) n = .error t) ∧
          ∀ ex rest, readBuckets bitmap.toNat 32 1 B = .ok (ex, rest) →
            let bytes := (bytesOfWords (M.take size)).take count.toNat
            let blocks := min page (n - n % bs) / bs
            (∀ t, fpfBlocks bs blocks bytes ex (offset.toNat - 1) W = .error t → dec (offset :: W) n = .error t) ∧
            (∀ out, n - n % bs ≤ page → fpfBlocks bs blocks bytes ex (offset.toNat - 1) W = .ok out →
              dec (offset :: W) n = .ok ((offset :: W).length - rest.length, out))

/-- The state an event sequence leads to, if the model has every move of it. -/
def events : List Event → State → Option State
  | [], s => some s
  | e :: es, s =>
    match event e s with
    | .next t => events es t
    | .fault _ => none
    | .refused _ => none

end Sys2Proof.Machine
end

