-- ==== Sys2Proof/Certificates/Slice0/Obligations.lean ====
section
/-! DEFINITION. The statements for the provers, in the order of OBLIGATIONS.json. -/

open Sys2Proof Sys2Proof.Machine

/-! ## Encoding and the step -/

/-- 30_encoding.md R60 to R65: the decoder reads every well-formed instruction back from its own words, whatever follows them. -/
def Obligations.DecodeReadsBackEncode : Prop :=
  ∀ (i : Instr) (rest : List Word), i.wellFormed = true → decode (encode i ++ rest) = .ok (i, rest)

/-- R61, R66: a word list has one meaning: what is decoded is well formed and its words are those decoded. -/
def Obligations.DecodedWordsAreItsEncoding : Prop :=
  ∀ (ws : List Word) (i : Instr) (rest : List Word), decode ws = .ok (i, rest) → i.wellFormed = true ∧ ws = encode i ++ rest

/-- R66: the words the rule calls illegal fault with `IllegalCommand` and the word in `FINFO` and change nothing else; every other word begins a command, whatever
the second word holds. -/
def Obligations.IllegalCommandWordsFault : Prop :=
  (∀ s : State, s.status = .running → s.cp.toNat < s.memwords → IllegalByR66 (s.wordAt s.cp.toNat) →
    ∃ t, step s = .next t ∧ Faulted s t .illegalCommand (s.wordAt s.cp.toNat) ∧ MemKept s t) ∧
  (∀ (w : Word) (rest : List Word), IllegalByR66 w → decode (w :: rest) = .error (.illegal w)) ∧
  (∀ (w imm : Word) (rest : List Word), ¬ IllegalByR66 w → ∃ i rest', decode (w :: imm :: rest) = .ok (i, rest'))

/-- R62, R63: words written out from the encoding, one or more for each family. -/
def Obligations.WrittenWordsDecode : Prop :=
  decode [0x00000000] = .ok (.nop, []) ∧
  decode [0x01000000] = .ok (.halt, []) ∧
  decode [0x02070000, 0x00000005] = .ok (.set .zp 5, []) ∧
  decode [0x03010200] = .ok (.mov .se .dp, []) ∧
  decode [0x10050000] = .ok (.pack 5, []) ∧
  decode [0x12280000] = .ok (.unpack 40, []) ∧
  decode [0x20000000] = .ok (.bpHc, []) ∧
  decode [0x21020000] = .ok (.fpf256Hd, []) ∧
  decode [0x22030000] = .ok (.npfd9C, []) ∧
  decode [0x23060000] = .ok (.opfd16D, []) ∧
  decode [0x20070000] = .ok (.s9Hc, []) ∧
  decode [0x24080000] = .ok (.s16Est, []) ∧
  decode [0x21090000] = .ok (.vbHd, []) ∧
  decode [0x28000900] = .ok (.compC .bp .vb, []) ∧
  decode [0x2B090F00] = .ok (.topD .vb none, []) ∧
  decode [0x31000000] = .ok (.dzDec, [])

/-- 40_sequencer.md R90: when the words at `CP` decode to an instruction, the step of a running engine is that instruction. -/
def Obligations.StepRunsDecodedInstruction : Prop :=
  ∀ (s : State) (i : Instr), s.status = .running → s.cp.toNat + (encode i).length ≤ s.memwords →
    decode (s.memRead s.cp.toNat (encode i).length) = .ok (i, []) → step s = exec i s

/-- 60_exceptions.md R302: a command word at or above `MEMWORDS`, or the immediate of a `SET` there, faults with the address in `FINFO`; code 2. -/
def Obligations.FetchOutOfRangeFaults : Prop :=
  (∀ s : State, s.status = .running → s.memwords ≤ s.cp.toNat →
    ∃ t, step s = .next t ∧ Faulted s t .fetchOutOfRange s.cp ∧ t.cause = 2 ∧ MemKept s t) ∧
  (∀ (s : State) (rd : Reg), s.status = .running → s.cp.toNat < s.memwords → s.memwords ≤ s.cp.toNat + 1 →
    s.wordAt s.cp.toNat = commandWord 0x02 rd.index 0 →
    ∃ t, step s = .next t ∧ Faulted s t .fetchOutOfRange (s.cp + 1) ∧ t.cause = 2 ∧ MemKept s t)

/-- R320: "While `STATUS ≠ RUNNING` the engine does nothing and all state survives indefinitely." That the model answers such a step with the state itself is its
own reading (log 7). -/
def Obligations.StoppedEngineKeepsState : Prop :=
  ∀ s : State, s.status ≠ .running → step s = .next s

/-! ## Sequencer commands -/

/-- R91: `NOP` moves `CP` past itself and changes nothing else. -/
def Obligations.NopOnlyAdvances : Prop :=
  ∀ s : State, ∃ t, exec .nop s = .next t ∧ t.cp = s.cp + 1 ∧ RegsKeptBut [] s t ∧ ControlKept s t ∧ MemKept s t

/-- R92: `HALT` writes `STATUS` and changes nothing else, `CP` included. -/
def Obligations.HaltEndsTheRun : Prop :=
  ∀ s : State, ∃ t, exec .halt s = .next t ∧ t.status = .halted ∧ t.cp = s.cp ∧ RegsKeptBut [] s t ∧
    t.cause = s.cause ∧ t.finfo = s.finfo ∧ t.memwords = s.memwords ∧ MemKept s t

/-- R93: `SET rd, imm32` writes the one register and moves `CP` by 2; at the step, the immediate is the word at `CP + 1`. -/
def Obligations.SetWritesItsRegister : Prop :=
  (∀ (s : State) (rd : Reg) (imm : Word), ∃ t, exec (.set rd imm) s = .next t ∧ t.reg rd = imm ∧ t.cp = s.cp + 2 ∧
    RegsKeptBut [rd] s t ∧ ControlKept s t ∧ MemKept s t) ∧
  (∀ (s : State) (rd : Reg), s.status = .running → s.cp.toNat + 1 < s.memwords →
    s.wordAt s.cp.toNat = commandWord 0x02 rd.index 0 → step s = exec (.set rd (s.wordAt (s.cp.toNat + 1))) s)

/-- R94: `MOV rd, rs` copies one register and moves `CP` by 1. -/
def Obligations.MovCopiesARegister : Prop :=
  ∀ (s : State) (rd rs : Reg), ∃ t, exec (.mov rd rs) s = .next t ∧ t.reg rd = s.reg rs ∧ t.cp = s.cp + 1 ∧
    RegsKeptBut [rd] s t ∧ ControlKept s t ∧ MemKept s t

/-! ## BitPrimitives -/

/-- R113, R114, R115: when the lane commands complete and what they leave, and that too short a source is `SourceUnderrun`, code 6,
whatever the capacity (R306, R314). `PACKU` on inputs that do not all fit writes some `b` words (R114, U1; log 12). -/
def Obligations.LaneCommandsCommit : Prop :=
  (∀ (s : State) (b : Nat), ViewsOk s → b ≤ 32 → 32 ≤ s.source.length → b ≤ s.capacity →
    (∃ t, exec (.pack b) s = .next t ∧ Committed s t 32 (pack b (s.source.take 32)) s.zp) ∧
    ((∀ v ∈ s.source.take 32, v.toNat < 2 ^ b) →
      ∃ t, exec (.packu b) s = .next t ∧ Committed s t 32 (pack b (s.source.take 32)) s.zp) ∧
    (∃ t out, exec (.packu b) s = .next t ∧ out.length = b ∧ Committed s t 32 out s.zp)) ∧
  (∀ (s : State) (b : Nat), ViewsOk s → b ≤ 32 → b ≤ s.source.length → 32 ≤ s.capacity →
    ∃ t, exec (.unpack b) s = .next t ∧ Committed s t b (unpack b (s.source.take b)) s.zp) ∧
  (∀ (s : State) (b : Nat) (i : Instr), ViewsOk s → b ≤ 32 →
    (i ∈ [Instr.pack b, .packu b] ∧ s.source.length < 32 ∨ i = .unpack b ∧ s.source.length < b) →
    ∃ t, exec i s = .next t ∧ Faulted s t .sourceUnderrun 0 ∧ t.cause = 6)

/-- R303: a width above 32 faults with the width in `FINFO`, code 3, and no other command raises that cause. -/
def Obligations.BadWidthFaults : Prop :=
  (∀ (s : State) (b : Nat) (i : Instr), 32 < b → i ∈ [Instr.pack b, .packu b, .unpack b] →
    ∃ t, exec i s = .next t ∧ Faulted s t .badWidth (BitVec.ofNat 32 b) ∧ t.cause = 3) ∧
  (∀ (s t : State) (i : Instr), exec i s = .next t → s.status ≠ .faulted → t.status = .faulted → t.cause = 3 →
    ∃ b, 32 < b ∧ i ∈ [Instr.pack b, .packu b, .unpack b])

/-- R111: `pack_b(V)` is `b` words, word `j` being `(S div 2^(32*j)) mod 2^32` for the bitstream `S`; bit `t` of lane `i` is stream bit `i*b + t`, which is bit
`(i*b + t) mod 32` of word `(i*b + t) div 32`; `pack_0` is empty and `pack_32` copies. -/
def Obligations.PackedStreamOfLanes : Prop :=
  ∀ (b : Nat) (V : List Word), b ≤ 32 → V.length = 32 →
    (pack b V).length = b ∧
    (∀ j, j < b → (pack b V)[j]? = some (BitVec.ofNat 32
      (((List.range 32).map fun i => (V.getD i 0).toNat % 2 ^ b * 2 ^ (i * b)).sum / 2 ^ (32 * j) % 2 ^ 32))) ∧
    (∀ i t, i < 32 → t < b → ((pack b V).getD ((i * b + t) / 32) 0).getLsbD ((i * b + t) % 32) = (V.getD i 0).getLsbD t) ∧
    pack 0 V = [] ∧ pack 32 V = V

/-- R112: `unpack_b(W)` is 32 words, `V[i] = (S div 2^(i*b)) mod 2^b`, each below `2^b`; `unpack_0` is 32 zeros and `unpack_32` copies. -/
def Obligations.UnpackedLanesOfStream : Prop :=
  (∀ (b : Nat) (W : List Word), b ≤ 32 → W.length = b →
    (unpack b W).length = 32 ∧
    (∀ i, i < 32 → (unpack b W)[i]? = some (BitVec.ofNat 32
      (((List.range b).map fun j => (W.getD j 0).toNat * 2 ^ (32 * j)).sum / 2 ^ (i * b) % 2 ^ b))) ∧
    (∀ v ∈ unpack b W, v.toNat < 2 ^ b)) ∧
  unpack 0 [] = List.replicate 32 0 ∧
  (∀ W : List Word, W.length = 32 → unpack 32 W = W)

/-- R116: packing and unpacking at one width are inverse: lanes come back truncated, words come back as they were. -/
def Obligations.PackUnpackInverse : Prop :=
  (∀ (b : Nat) (V : List Word), b ≤ 32 → V.length = 32 → unpack b (pack b V) = V.map fun v => BitVec.ofNat 32 (v.toNat % 2 ^ b)) ∧
  (∀ (b : Nat) (V : List Word), b ≤ 32 → V.length = 32 → (∀ v ∈ V, v.toNat < 2 ^ b) → unpack b (pack b V) = V) ∧
  (∀ (b : Nat) (W : List Word), b ≤ 32 → W.length = b → pack b (unpack b W) = W)

/-! ## The codec commands -/

/-- R132, R134: every compress command, headless and headed, of every codec commits what its function gives when it fits the destination view. -/
def Obligations.CompressCommandsCommit : Prop :=
  (∀ (s : State) (i : Instr) (k : Codec) (r : Nat) (out : List Word), (i, k) ∈ headlessCompressCommands → ViewsOk s →
    headlessCompress k s.page s.ovh s.source = .ok (r, out) → out.length ≤ s.capacity →
    ∃ t, exec i s = .next t ∧ Committed s t r out s.zp) ∧
  (∀ (s : State) (i : Instr) (k : Codec) (r : Nat) (out : List Word), (i, k) ∈ headedCompressCommands → ViewsOk s →
    headedCompress k s.page s.ovh s.source = .ok (r, out) → out.length ≤ s.capacity →
    ∃ t, exec i s = .next t ∧ Committed s t r out s.zp)

/-- R133, R135: every decompress command of every codec commits what its function gives; the headless form takes its count from `N`, the headed form from its stream. -/
def Obligations.DecompressCommandsCommit : Prop :=
  (∀ (s : State) (i : Instr) (k : Codec) (r : Nat) (out : List Word), (i, k) ∈ headlessDecompressCommands → ViewsOk s →
    headlessDecompress k s.page s.source s.n.toNat = .ok (r, out) → out.length ≤ s.capacity →
    ∃ t, exec i s = .next t ∧ Committed s t r out s.zp) ∧
  (∀ (s : State) (i : Instr) (k : Codec) (r : Nat) (out : List Word), (i, k) ∈ headedDecompressCommands → ViewsOk s →
    headedDecompress k s.page s.source = .ok (r, out) → out.length ≤ s.capacity →
    ∃ t, exec i s = .next t ∧ Committed s t r out s.zp)

/-- Which codec functions can fault, and on what. Compress: BinaryPacking, VariableByte and the NewPFD/OptPFD codecs never (R139, R186, R267), FastPFOR exactly on an
illegal `PAGE` (R170), the selector codecs exactly on a value at or above `2^28` (R224). Decompress: `SourceUnderrun`, `MalformedStream` (never by S16, R233) and, by FastPFOR
exactly on an illegal `PAGE`, `BadConfig`; a stream cut short anywhere in the words it takes is `SourceUnderrun` (R306), and the checks of R140, R173, R187, R225 and R268 say
where a stream is malformed and where it ends too early (R309). The headed form faults as the headless one does on the words after the length word (R135). -/
def Obligations.CompressFaultsExactly : Prop :=
  (∀ (page ovh : Word) (A : List Word),
    (∀ k ∈ [Codec.bp, .npfd9, .npfd16, .opfd9, .opfd16, .vb], ∃ r out, headlessCompress k page ovh A = .ok (r, out)) ∧
    (∀ k ∈ [Codec.fpf128, .fpf256],
      (page.toNat = 0 ∨ page.toNat % 256 ≠ 0 → headlessCompress k page ovh A = .error ⟨.badConfig, page⟩) ∧
      (page.toNat ≠ 0 → page.toNat % 256 = 0 → ∃ r out, headlessCompress k page ovh A = .ok (r, out))) ∧
    (∀ k ∈ [Codec.s9, .s16], (∃ r out, headlessCompress k page ovh A = .ok (r, out)) ↔ ∀ v ∈ A, v.toNat < 2 ^ 28)) ∧
  (∀ (k : Codec) (page : Word) (W : List Word) (n : Nat) (t : Trap), headlessDecompress k page W n = .error t →
    t = underrun ∨ (t = malformed ∧ k ≠ .s16) ∨
      (t = ⟨.badConfig, page⟩ ∧ k ∈ [Codec.fpf128, .fpf256] ∧ (page.toNat = 0 ∨ page.toNat % 256 ≠ 0))) ∧
  (∀ k ∈ [Codec.fpf128, .fpf256], ∀ (page : Word) (W : List Word) (n : Nat), page.toNat = 0 ∨ page.toNat % 256 ≠ 0 →
    headlessDecompress k page W n = .error ⟨.badConfig, page⟩) ∧
  (∀ (k : Codec) (page : Word), ReadsExactly (headlessDecompress k page)) ∧
  (∀ page : Word, BinaryPackingFaults (headlessDecompress .bp page)) ∧
  (∀ page : Word, SelectorFaults simple9 (headlessDecompress .s9 page) ∧ SelectorFaults simple16 (headlessDecompress .s16 page)) ∧
  simple9.length = 9 ∧ simple16.length = 16 ∧
  (∀ page : Word, VariableByteFaults (headlessDecompress .vb page)) ∧
  (∀ k ∈ [Codec.npfd9, .opfd9], ∀ page : Word, PfdFaults simple9 (headlessDecompress k page)) ∧
  (∀ k ∈ [Codec.npfd16, .opfd16], ∀ page : Word, PfdFaults simple16 (headlessDecompress k page)) ∧
  (∀ p ∈ [(Codec.fpf128, 128), (.fpf256, 256)], ∀ page : Word, page.toNat ≠ 0 → page.toNat % 256 = 0 →
    FastPforFaults p.2 page.toNat (headlessDecompress p.1 page)) ∧
  BucketFaults ∧ PageBlockFaults 128 ∧ PageBlockFaults 256 ∧
  (∀ (k : Codec) (page L : Word) (W : List Word) (t : Trap),
    headedDecompress k page (L :: W) = .error t ↔ headlessDecompress k page W L.toNat = .error t)

/-- R131: a headless compress consumes its input rounded down to the granule; a headless decompress produces its count rounded down to the granule and consumes no
more than it has (R46 `r ≤ |src|`). -/
def Obligations.HeadlessFormsRoundToTheGranule : Prop :=
  (∀ (k : Codec) (page ovh : Word) (A : List Word) (r : Nat) (out : List Word),
    headlessCompress k page ovh A = .ok (r, out) → r = A.length - A.length % granule k) ∧
  (∀ (k : Codec) (page : Word) (W : List Word) (n r : Nat) (out : List Word),
    headlessDecompress k page W n = .ok (r, out) → out.length = n - n % granule k ∧ r ≤ W.length)

/-- R131, the round trip, for BinaryPacking, S9, S16 and VariableByte, headless and headed. -/
def Obligations.PlainCodecRoundTrip : Prop :=
  ∀ (k : Codec) (page ovh : Word) (A : List Word) (r : Nat) (out : List Word),
    k ∈ [Codec.bp, .s9, .s16, .vb] → A.length ≤ 2 ^ 31 →
    (headlessCompress k page ovh A = .ok (r, out) → headlessDecompress k page out r = .ok (out.length, A.take r)) ∧
    (headedCompress k page ovh A = .ok (r, out) → headedDecompress k page out = .ok (out.length, A.take r))

/-- R131, the round trip, for NewPFD and OptPFD, headless and headed; either search's stream is decoded by either codec of the same secondary codec (R187). And R185, R186:
the stream is, block after block of 128, the block stream of the layout table at the width the codec's search selects, and nothing for fewer than 128 words. -/
def Obligations.PatchedCodecRoundTrip : Prop :=
  (∀ (k k' : Codec) (page ovh : Word) (A : List Word) (r : Nat) (out : List Word),
    (k, k') ∈ [(Codec.npfd9, Codec.npfd9), (.npfd9, .opfd9), (.opfd9, .npfd9), (.opfd9, .opfd9),
      (.npfd16, .npfd16), (.npfd16, .opfd16), (.opfd16, .npfd16), (.opfd16, .opfd16)] → A.length ≤ 2 ^ 31 →
    (headlessCompress k page ovh A = .ok (r, out) → headlessDecompress k' page out r = .ok (out.length, A.take r)) ∧
    (headedCompress k page ovh A = .ok (r, out) → headedDecompress k' page out = .ok (out.length, A.take r))) ∧
  (∀ (k : Codec) (search : Search) (T : Layouts) (page ovh : Word) (A : List Word) (r : Nat) (out : List Word),
    (k, search, T) ∈ [(Codec.npfd9, Search.greedy, simple9), (.npfd16, .greedy, simple16),
      (.opfd9, .exhaustive, simple9), (.opfd16, .exhaustive, simple16)] →
    headlessCompress k page ovh A = .ok (r, out) →
    (A.length < 128 → out = []) ∧
    (128 ≤ A.length → ∃ (b : Nat) (x : List Word) (r' : Nat) (rest : List Word),
      pfdWidth search T ovh.toNat (A.take 128) = .ok b ∧ PfdBlockLayout T b (A.take 128) x ∧
      headlessCompress k page ovh (A.drop 128) = .ok (r', rest) ∧ out = x ++ rest))

/-- R131, the round trip, for FastPFOR at both block sizes, headless and headed, with one `PAGE`; `OVH` need not match (R356). And R170 to R172: the stream is, page after page,
the page stream of the layout table, the last page holding the rest of the whole blocks, and nothing for fewer words than a block. -/
def Obligations.FastPforRoundTrip : Prop :=
  (∀ (k : Codec) (page ovh : Word) (A : List Word) (r : Nat) (out : List Word),
    k ∈ [Codec.fpf128, .fpf256] → A.length ≤ 2 ^ 31 →
    (headlessCompress k page ovh A = .ok (r, out) → headlessDecompress k page out r = .ok (out.length, A.take r)) ∧
    (headedCompress k page ovh A = .ok (r, out) → headedDecompress k page out = .ok (out.length, A.take r))) ∧
  (∀ (k : Codec) (bs : Nat) (page ovh : Word) (A : List Word) (r : Nat) (out : List Word),
    (k, bs) ∈ [(Codec.fpf128, 128), (.fpf256, 256)] → A.length ≤ 2 ^ 31 → headlessCompress k page ovh A = .ok (r, out) →
    (A.length < bs → out = []) ∧
    (bs ≤ A.length →
      let size := min page.toNat (A.length - A.length % bs)
      ∃ (x : List Word) (r' : Nat) (rest : List Word), FpfPageLayout bs ovh.toNat (A.take size) x ∧
        headlessCompress k page ovh (A.drop size) = .ok (r', rest) ∧ out = x ++ rest))

/-- R136: `width(V)` is the `bitlen` of the OR of the block's words and equals the largest `bitlen` of them; it is 0 exactly when all are 0 and 32 exactly when some word has bit 31 set; `bitlen` is the number of bits
a word needs. -/
def Obligations.BlockWidthIsTheLargest : Prop :=
  ∀ V : List Word, V.length = 32 →
    width V = bitlen (V.foldl (· ||| ·) 0) ∧
    (∀ v ∈ V, bitlen v ≤ width V) ∧ (∃ v ∈ V, bitlen v = width V) ∧
    (width V = 0 ↔ ∀ v ∈ V, v = 0) ∧ (width V = 32 ↔ ∃ v ∈ V, 2 ^ 31 ≤ v.toNat) ∧
    (∀ v ∈ V, v.toNat < 2 ^ bitlen v ∧ (v ≠ 0 → 2 ^ (bitlen v - 1) ≤ v.toNat))

/-- R139: the stream of `nb` blocks is `(nb div 4) + (nb mod 4)` header words plus the sum of the blocks' widths. R137, R138: while four blocks are left, a header word with
the first block's width in its low byte and the fourth's in its high byte, then the four packed blocks; of fewer than four, each block's width alone in a word before
its own packed block; then the stream of what is left. -/
def Obligations.BinaryPackingLength : Prop :=
  ∀ (A : List Word) (r : Nat) (out : List Word), bpCompress A = .ok (r, out) →
    let B : Nat → List Word := fun j => (A.drop (32 * j)).take 32
    out.length = A.length / 32 / 4 + A.length / 32 % 4 + ((chunks 32 (A.length / 32) A).map width).sum ∧
    (128 ≤ A.length → ∃ (H : Word) (r' : Nat) (rest : List Word), bpCompress (A.drop 128) = .ok (r', rest) ∧
      (∀ j, j < 4 → H.toNat / 2 ^ (8 * j) % 2 ^ 8 = width (B j)) ∧
      out = H :: (pack (width (B 0)) (B 0) ++ pack (width (B 1)) (B 1) ++ pack (width (B 2)) (B 2) ++ pack (width (B 3)) (B 3) ++ rest)) ∧
    (32 ≤ A.length → A.length < 128 → ∃ (H : Word) (r' : Nat) (rest : List Word), bpCompress (A.drop 32) = .ok (r', rest) ∧
      H.toNat = width (B 0) ∧ out = H :: (pack (width (B 0)) (B 0) ++ rest)) ∧
    (A.length < 32 → out = [])

/-! ## The patched codecs -/

/-- R161: `exceptions(b)` counts the words wider than `b`, is the sum of the histogram entries above `b`, and for `b ≤ 31` counts the words with `V[i] >>> b ≠ 0`; it is 0 at
`maxB` and does not decrease as `b` falls; from one width to the next it changes by one histogram entry. -/
def Obligations.ExceptionsAccumulate : Prop :=
  ∀ V : List Word,
    (∀ b, exceptionCount (widths V) b = ((widths V).filter fun w => decide (b < w)).length) ∧
    (∀ b, exceptionCount (widths V) b = ((List.range 33).map fun k => if b < k then (widths V).count k else 0).sum) ∧
    exceptionCount (widths V) (maxWidth (widths V)) = 0 ∧
    (∀ b, b ≤ 31 → exceptionCount (widths V) b = (V.filter fun v : Word => decide (v >>> b ≠ 0)).length) ∧
    (∀ b, exceptionCount (widths V) b = exceptionCount (widths V) (b + 1) + (widths V).count (b + 1)) ∧
    (∀ b c, b ≤ c → exceptionCount (widths V) c ≤ exceptionCount (widths V) b)

/-- R164: the greedy descent returns the last width of the walk from `maxB` down on which every step is to an eligible width and strictly lowers the cost; there are no
exceptions at `maxB`. R162: the cost below `maxB`, with the discount of one bit for each exception at `maxB - 1` alone. R163: which widths are eligible. -/
def Obligations.GreedyDescentStopsWhereTheCostDoes : Prop :=
  ∀ (bs ovh gap : Nat) (V : List Word),
    let ws := widths V
    let m := maxWidth ws
    let best := greedyWidth bs ovh gap ws
    best ≤ m ∧
    (∀ b, best ≤ b → b < m → eligible bs gap m ws b = true ∧ cost bs ovh m ws b < cost bs ovh m ws (b + 1)) ∧
    (∀ b, b + 1 = best → ¬ (eligible bs gap m ws b = true ∧ cost bs ovh m ws b < cost bs ovh m ws best)) ∧
    cost bs ovh m ws m = m * bs ∧ exceptionCount ws m = 0 ∧
    (∀ b, b < m → m - b ≠ 1 →
      cost bs ovh m ws b = exceptionCount ws b * ovh + exceptionCount ws b * (m - b) + b * bs) ∧
    (∀ b, b < m → m - b = 1 →
      cost bs ovh m ws b + exceptionCount ws b = exceptionCount ws b * ovh + exceptionCount ws b * (m - b) + b * bs) ∧
    (∀ b, b < m → (eligible bs gap m ws b = true ↔ exceptionCount ws b < bs ∧ m - b ≤ gap))

/-- R165: on a block of 128 words the exhaustive search returns a width, `maxB` or an eligible one, whose cost no candidate beats, and of equal costs the larger width. -/
def Obligations.ExhaustiveSearchIsMinimal : Prop :=
  ∀ (T : Layouts) (V : List Word), T ∈ [simple9, simple16] → V.length = 128 →
    let ws := widths V
    let m := maxWidth ws
    ∃ best, exhaustiveWidth T 128 28 V = .ok best ∧
      (best = m ∨ best < m ∧ eligible 128 28 m ws best = true) ∧
      ∃ c, OptCost T 128 m V best c ∧
        ∀ b, (b = m ∨ b < m ∧ eligible 128 28 m ws b = true) →
          ∃ d, OptCost T 128 m V b d ∧ c ≤ d ∧ (best < b → c < d)

/-- R168: patching changes the one position by an OR of the shifted high bits; applied to a block truncated to `b` bits with the block's exceptions at `b`, it
restores the block. -/
def Obligations.PatchingRestoresTheBlock : Prop :=
  (∀ (b p : Nat) (h : Word) (U : List Word) (j : Nat),
    (patch b U p h)[j]? = if j = p then U[j]?.map (· ||| h <<< b) else U[j]?) ∧
  (∀ (b : Nat) (V : List Word), b ≤ 31 →
    (exceptions b V).foldl (fun U e => patch b U e.1 e.2) (V.map fun v => BitVec.ofNat 32 (v.toNat % 2 ^ b)) = V)

/-- R170, R310: a FastPFOR command with an illegal `PAGE` faults with `PAGE` in `FINFO`, on an empty source and with `N` = 0 too; the headed compress of less than
a granule and the headed decompress of nothing return first. -/
def Obligations.BadPageFaults : Prop :=
  ∀ s : State, ViewsOk s → (s.page.toNat = 0 ∨ s.page.toNat % 256 ≠ 0) →
    (∀ i ∈ [Instr.fpf128Hc, .fpf128Hd, .fpf256Hc, .fpf256Hd], ∃ t, exec i s = .next t ∧ Faulted s t .badConfig s.page) ∧
    (∀ p ∈ [(Instr.fpf128C, 128), (.fpf256C, 256)],
      (p.2 ≤ s.source.length → ∃ t, exec p.1 s = .next t ∧ Faulted s t .badConfig s.page) ∧
      (s.source.length < p.2 → ∃ t, exec p.1 s = .next t ∧ Committed s t 0 [] s.zp)) ∧
    (∀ i ∈ [Instr.fpf128D, .fpf256D],
      (s.source ≠ [] → ∃ t, exec i s = .next t ∧ Faulted s t .badConfig s.page) ∧
      (s.source = [] → ∃ t, exec i s = .next t ∧ Committed s t 0 [] s.zp))

/-! ## The selector codecs -/

/-- R220, R221: the two layout tables, row by row. -/
def Obligations.SelectorTablesAsWritten : Prop :=
  simple9.map List.length = [28, 14, 9, 7, 5, 4, 3, 2, 1] ∧
  (∀ p ∈ simple9.zip [1, 2, 3, 4, 5, 7, 9, 14, 28], ∀ w ∈ p.1, w = p.2) ∧
  simple9.map List.sum = [28, 28, 27, 28, 25, 28, 27, 28, 28] ∧
  simple16 =
    [[1, 1, 1, 1, 1, 1, 1, 1, 1, 1, 1, 1, 1, 1, 1, 1, 1, 1, 1, 1, 1, 1, 1, 1, 1, 1, 1, 1],
     [2, 2, 2, 2, 2, 2, 2, 1, 1, 1, 1, 1, 1, 1, 1, 1, 1, 1, 1, 1, 1],
     [1, 1, 1, 1, 1, 1, 1, 2, 2, 2, 2, 2, 2, 2, 1, 1, 1, 1, 1, 1, 1],
     [1, 1, 1, 1, 1, 1, 1, 1, 1, 1, 1, 1, 1, 1, 2, 2, 2, 2, 2, 2, 2],
     [2, 2, 2, 2, 2, 2, 2, 2, 2, 2, 2, 2, 2, 2],
     [4, 3, 3, 3, 3, 3, 3, 3, 3],
     [3, 4, 4, 4, 4, 3, 3, 3],
     [4, 4, 4, 4, 4, 4, 4],
     [5, 5, 5, 5, 4, 4],
     [4, 4, 5, 5, 5, 5],
     [6, 6, 6, 5, 5],
     [5, 5, 6, 6, 6],
     [7, 7, 7, 7],
     [10, 9, 9],
     [14, 14],
     [28]] ∧
  simple16.map List.sum = List.replicate 16 28

/-- R224, R226, R308: the selector compress faults exactly when some value is at or above `2^28`, and with the first such value; the estimate faults exactly then and else
is the number of words the compress writes. -/
def Obligations.SelectorFaultsOnFirstLargeValue : Prop :=
  ∀ (T : Layouts) (A : List Word) (t : Trap), T ∈ [simple9, simple16] →
    (selectorCompress T A = .error t ↔ ∃ v, A.find? (fun v => decide (2 ^ 28 ≤ v.toNat)) = some v ∧ t = ⟨.valueTooLarge, v⟩) ∧
    (selectorEstimate T A = .error t ↔ selectorCompress T A = .error t) ∧
    (∀ n out, selectorCompress T A = .ok (n, out) → n = A.length ∧ selectorEstimate T A = .ok out.length) ∧
    selectorEstimate T [] = .ok 0

/-- R222, R223, R224: the selector taken is the first whose slots fit every candidate, and the word holds the selector in bits 31:28, value `j` at the sum of the
widths before it, and 0 in every payload bit above the last value's slot; what the compress writes is the word of the first fit, then what it writes for the values
that fit does not cover, and nothing for no value. -/
def Obligations.SelectorWordHoldsTheFirstFit : Prop :=
  ∀ (T : Layouts) (A : List Word) (s : Nat) (l : List Nat), T ∈ [simple9, simple16] →
    (firstFit T 0 A = some (s, l) ↔
      T[s]? = some l ∧ FitsSlots l A ∧ ∀ s' l', s' < s → T[s']? = some l' → ¬ FitsSlots l' A) ∧
    (firstFit T 0 A = some (s, l) →
      (selectorWord s l A).toNat / 2 ^ 28 = s ∧ l.sum ≤ 28 ∧
      (selectorWord s l A).toNat % 2 ^ 28 < 2 ^ (l.take A.length).sum ∧
      ∀ (j w : Nat) (v : Word), l[j]? = some w → A[j]? = some v →
        (selectorWord s l A).toNat / 2 ^ (l.take j).sum % 2 ^ w = v.toNat) ∧
    selectorCompress T [] = .ok (0, []) ∧
    (A ≠ [] → firstFit T 0 A = some (s, l) → ∀ (n : Nat) (out : List Word), selectorCompress T (A.drop l.length) = .ok (n, out) →
      selectorCompress T A = .ok (A.length, selectorWord s l A :: out))

/-- R231, R236: the estimates write `RC`, `WC` and `CP` alone; a bad source view and a value at or above `2^28` fault. That a fault leaves all of `M` as it was is the
model's reading (log 5). -/
def Obligations.EstimatesWriteCountsOnly : Prop :=
  ∀ (s : State) (p : Instr × Layouts), p ∈ [(Instr.s9Est, simple9), (.s16Est, simple16)] →
    (¬ s.sourceValid → ∃ t, exec p.1 s = .next t ∧ Faulted s t .badView 0 ∧ MemKept s t) ∧
    (∀ w, s.sourceValid → selectorEstimate p.2 s.source = .ok w →
      ∃ t, exec p.1 s = .next t ∧ t.rc = BitVec.ofNat 32 s.source.length ∧ t.wc = BitVec.ofNat 32 w ∧ t.cp = s.cp + 1 ∧
        RegsKeptBut [.rc, .wc] s t ∧ ControlKept s t ∧ MemKept s t) ∧
    (∀ e, s.sourceValid → selectorEstimate p.2 s.source = .error e →
      ∃ t, exec p.1 s = .next t ∧ Faulted s t e.cause e.info ∧ MemKept s t)

/-! ## DeltaZigzag -/

/-- R250: `zigzag` as a formula and as numbers, and a bijection on words: `unzigzag`, which the spec derives (R251), is its inverse on both sides. -/
def Obligations.ZigzagIsABijection : Prop :=
  (∀ n : Word, zigzag n = (n <<< 1) ^^^ n.sshiftRight 31) ∧
  (∀ n : Word, 0 ≤ n.toInt → ((zigzag n).toNat : Int) = 2 * n.toInt) ∧
  (∀ n : Word, n.toInt < 0 → ((zigzag n).toNat : Int) = -2 * n.toInt - 1) ∧
  (∀ n : Word, unzigzag (zigzag n) = n) ∧ (∀ z : Word, zigzag (unzigzag z) = z)

/-- R252, R253: the filter commands consume the whole source view, write as many words, and leave the last value in `ZP`. -/
def Obligations.FilterCommandsCommit : Prop :=
  ∀ s : State, ViewsOk s → s.source.length ≤ s.capacity →
    (∃ t out, exec .dzEnc s = .next t ∧ Committed s t s.source.length out (s.source.getLast?.getD s.zp) ∧
      out.length = s.source.length ∧
      ∀ (i : Nat) (x : Word), s.source[i]? = some x →
        out[i]? = some (zigzag (x - if i = 0 then s.zp else s.source.getD (i - 1) 0))) ∧
    (∃ t out, exec .dzDec s = .next t ∧ Committed s t s.source.length out (out.getLast?.getD s.zp) ∧
      out.length = s.source.length ∧
      ∀ (i : Nat) (z : Word), s.source[i]? = some z →
        out[i]? = some ((if i = 0 then s.zp else out.getD (i - 1) 0) + unzigzag z))

/-- R253, R254: decoding from the `ZP` the encoder started from gives the sequence back and the same final `ZP`, for every sequence, and encoding undoes decoding. -/
def Obligations.FilterRoundTrip : Prop :=
  (∀ (p : Word) (A : List Word), dzDecode p (dzEncode p A).1 = (A, A.getLast?.getD p) ∧ (dzEncode p A).2 = A.getLast?.getD p) ∧
  (∀ (p : Word) (E : List Word), (dzEncode p (dzDecode p E).1).1 = E)

/-! ## VariableByte -/

/-- R265: the bytes of a value: how many, the continuation bit on all but the last, the groups least significant first, and no last byte 0 but for the value 0. -/
def Obligations.VariableByteGroups : Prop :=
  ∀ v : Word,
    (vbytes v).length = max 1 ((bitlen v + 6) / 7) ∧
    (∀ b ∈ (vbytes v).dropLast, 128 ≤ b.toNat) ∧
    (∀ b, (vbytes v).getLast? = some b → b.toNat < 128 ∧ (b = 0 → v = 0)) ∧
    v.toNat = ((List.range (vbytes v).length).map fun k => ((vbytes v).getD k 0).toNat % 128 * 2 ^ (7 * k)).sum

/-- R266: `m` bytes are `ceil4(m)` words, byte `4j + k` in bits `8k+7 : 8k` of word `j`, the missing bytes of the last word 0. R267: VariableByte writes the words of its
values' bytes in order. -/
def Obligations.BytesPackLittleEndian : Prop :=
  (∀ A : List Word, vbCompress A = .ok (A.length, wordsOfBytes (A.flatMap vbytes))) ∧
  ∀ Y : List Byte,
    (wordsOfBytes Y).length = (Y.length + 3) / 4 ∧
    (∀ (j k : Nat) (w : Word), k < 4 → (wordsOfBytes Y)[j]? = some w →
      w.toNat / 2 ^ (8 * k) % 2 ^ 8 = (Y.getD (4 * j + k) 0).toNat)

/-! ## Composition -/

/-- R282, R283, R286, R287: the four composition commands commit what their functions give when it fits the destination view. -/
def Obligations.CompositionCommandsCommit : Prop :=
  ∀ (s : State) (k1 k2 : Codec) (k : Option Codec) (r : Nat) (out : List Word), ViewsOk s → out.length ≤ s.capacity →
    (compCompress k1 k2 s.page s.ovh s.source = .ok (r, out) → ∃ t, exec (.compC k1 k2) s = .next t ∧ Committed s t r out s.zp) ∧
    (compDecompress k1 k2 s.page s.source s.n.toNat = .ok (r, out) → ∃ t, exec (.compD k1 k2) s = .next t ∧ Committed s t r out s.zp) ∧
    (topCompress k1 k s.page s.ovh s.source = .ok (r, out) → ∃ t, exec (.topC k1 k) s = .next t ∧ Committed s t r out s.zp) ∧
    (topDecompress k1 k s.page s.source = .ok (r, out) → ∃ t, exec (.topD k1 k) s = .next t ∧ Committed s t r out s.zp)

/-- R280: the first word of a composition's stream is 0 exactly when the first stage consumed no integer, that is when there is less than its granule, and else it
is the count of the first stage. -/
def Obligations.CompositionMarkerDiscipline : Prop :=
  ∀ (k1 k2 : Codec) (page ovh : Word) (A : List Word) (r : Nat) (out : List Word), A.length ≤ 2 ^ 31 →
    compCompress k1 k2 page ovh A = .ok (r, out) →
    (out.head? = some 0 ↔ A.length < granule k1) ∧
    out.head? = some (BitVec.ofNat 32 (A.length - A.length % granule k1))

/-- R281: a composition of any two codecs decodes to the integers it consumed, with a legal `PAGE` where the first stage is FastPFOR. With an illegal one (and less than a
granule, else the compress faults) the compress writes the marker and the decompress enters the codec and raises `BadConfig`: the model follows R135, R170 and R310 there (log 21). -/
def Obligations.CompositionRoundTrip : Prop :=
  ∀ (k1 k2 : Codec) (page ovh : Word) (A : List Word) (r : Nat) (out : List Word), A.length ≤ 2 ^ 31 →
    compCompress k1 k2 page ovh A = .ok (r, out) →
    ((k1 ∈ [Codec.fpf128, .fpf256] → page.toNat ≠ 0 ∧ page.toNat % 256 = 0) →
      compDecompress k1 k2 page out r = .ok (out.length, A.take r)) ∧
    (k1 ∈ [Codec.fpf128, .fpf256] → page.toNat = 0 ∨ page.toNat % 256 ≠ 0 →
      compDecompress k1 k2 page out r = .error ⟨.badConfig, page⟩)

/-- R285: a top-level stream of any codecs is self-describing: it decodes to the integers it consumed, whether they were all or not, with a legal `PAGE` where the first codec
is FastPFOR; with an illegal one the decompress raises `BadConfig` (log 21). -/
def Obligations.TopLevelRoundTrip : Prop :=
  ∀ (k1 : Codec) (k2 : Option Codec) (page ovh : Word) (A : List Word) (r : Nat) (out : List Word), A.length ≤ 2 ^ 31 →
    topCompress k1 k2 page ovh A = .ok (r, out) →
    ((k1 ∈ [Codec.fpf128, .fpf256] → page.toNat ≠ 0 ∧ page.toNat % 256 = 0) →
      topDecompress k1 k2 page out = .ok (out.length, A.take r)) ∧
    (k1 ∈ [Codec.fpf128, .fpf256] → page.toNat = 0 ∨ page.toNat % 256 ≠ 0 →
      topDecompress k1 k2 page out = .error ⟨.badConfig, page⟩)

/-- R311: `COMP.D`, and `TOP.D` with a second codec, fault with `BadCount`, code 11, when stage one alone gives more than the total count. -/
def Obligations.BadCountFaults : Prop :=
  (∀ (s : State) (k1 k2 : Codec) (u : Nat) (o : List Word), ViewsOk s → headedDecompress k1 s.page s.source = .ok (u, o) →
    s.n.toNat < o.length → ∃ t, exec (.compD k1 k2) s = .next t ∧ Faulted s t .badCount 0 ∧ t.cause = 11) ∧
  (∀ (s : State) (k1 k2 : Codec) (c : Word) (W : List Word) (u : Nat) (o : List Word), ViewsOk s → s.source = c :: W →
    headedDecompress k1 s.page W = .ok (u, o) → c.toNat < o.length →
    ∃ t, exec (.topD k1 (some k2)) s = .next t ∧ Faulted s t .badCount 0 ∧ t.cause = 11)

/-! ## Every data command -/

/-- R46, R307: with valid disjoint views a data command raises its function's fault, else `DestinationOverflow` when the output is longer than the destination view,
else commits; it never consumes more than the source view. -/
def Obligations.DataCommandsEvaluateThenCommit : Prop :=
  ∀ (s : State) (i : Instr) (v : Except Trap Evaluated), ViewsOk s → Evaluates s i v →
    (∀ e, v = .error e → ∃ t, exec i s = .next t ∧ Faulted s t e.cause e.info) ∧
    (∀ e, v = .ok e → e.read ≤ s.source.length) ∧
    (∀ e, v = .ok e → s.capacity < e.out.length → ∃ t, exec i s = .next t ∧ Faulted s t .destinationOverflow 0 ∧ t.cause = 7) ∧
    (∀ e, v = .ok e → e.out.length ≤ s.capacity → ∃ t, exec i s = .next t ∧ Committed s t e.read e.out (e.zp.getD s.zp))

/-- R304, R305: invalid views fault with `BadView`, code 4, overlapping ones with `Overlap`, code 5, `FINFO` 0, before anything is read or written; the estimates look at
the source view alone: they do the same whatever the destination view is, which for an estimate that faults on a value is the model's reading (log 5). A width above 32
comes first (R314). -/
def Obligations.ViewFaultsChangeNothing : Prop :=
  (∀ (s : State) (i : Instr), hasDestination i = true → (∀ b, i ∈ [Instr.pack b, .packu b, .unpack b] → b ≤ 32) →
    (¬ (s.sourceValid ∧ s.destValid) → ∃ t, exec i s = .next t ∧ Faulted s t .badView 0 ∧ t.cause = 4 ∧ MemKept s t) ∧
    (s.sourceValid → s.destValid → s.overlapping → ∃ t, exec i s = .next t ∧ Faulted s t .overlap 0 ∧ t.cause = 5 ∧ MemKept s t)) ∧
  (∀ (s : State) (i : Instr), i ∈ [Instr.s9Est, .s16Est] → ¬ s.sourceValid →
    ∃ t, exec i s = .next t ∧ Faulted s t .badView 0 ∧ t.cause = 4 ∧ MemKept s t) ∧
  (∀ (s t : State) (i : Instr) (p e : Word), i ∈ [Instr.s9Est, .s16Est] → exec i s = .next t →
    exec i { s with dp := p, de := e } = .next { t with dp := p, de := e })

/-- R315, R52: a step that faults writes the three status registers, keeps every general register, `CP` and every byte outside the destination view, keeps all of `M`
when the views are invalid or overlap. That the engine then takes no further step is stated as the step that leaves the state as it is, the model's reading (log 7). -/
def Obligations.FaultEntryKeepsTheMachine : Prop :=
  ∀ s t : State, s.status = .running → step s = .next t → t.status = .faulted →
    RegsKeptBut [] s t ∧ t.cp = s.cp ∧ t.memwords = s.memwords ∧ MemKeptOutside s.dp.toNat s.de.toNat s t ∧
    (¬ ViewsOk s → MemKept s t) ∧ (∃ c : Cause, t.cause = c.code) ∧ step t = .next t

/-- R312: what `FINFO` holds after a fault, by cause; codes 0 and 12..255 are never written. R308: after `ValueTooLarge` it is the first value at or above `2^28`, in source
order, of the words the selector codec was given: the whole source, or what the first stage of a composition left. -/
def Obligations.FaultInformation : Prop :=
  ∀ s t : State, s.status = .running → step s = .next t → t.status = .faulted →
    1 ≤ t.cause.toNat ∧ t.cause.toNat ≤ 11 ∧
    (t.cause = 1 → t.finfo = s.wordAt s.cp.toNat) ∧
    (t.cause = 2 → t.finfo = if s.memwords ≤ s.cp.toNat then s.cp else s.cp + 1) ∧
    (t.cause = 3 → t.finfo.toNat = (s.wordAt s.cp.toNat).toNat / 2 ^ 16 % 256) ∧
    (t.cause = 8 → t.finfo ∈ s.source ∧ 2 ^ 28 ≤ t.finfo.toNat) ∧
    (t.cause = 8 → ∀ (i : Instr) (rest : List Word), decode s.fetchWindow = .ok (i, rest) →
      (s.source.drop (selectorStart i s.source.length)).find? (fun v => decide (2 ^ 28 ≤ v.toNat)) = some t.finfo) ∧
    (t.cause = 10 → t.finfo = s.page) ∧
    (t.cause ∈ [4, 5, 6, 7, 9, 11] → t.finfo = 0)

/-! ## The whole machine -/

/-- R97: every run ends: a legal running engine is halted or faulted after at most `MEMWORDS + 1` steps. -/
def Obligations.EveryRunEnds : Prop :=
  ∀ s : State, s.Legal → s.status = .running →
    ∃ (k : Nat) (t : State), k ≤ s.memwords + 1 ∧ core.run k s = .next t ∧ (t.status = .halted ∨ t.status = .faulted)

/-- R21, R95: a command either moves `CP` past its own words and leaves `STATUS`, or leaves `CP`, and then it is `HALT` or it faulted. -/
def Obligations.CommandPointerOnlyAdvances : Prop :=
  ∀ (s t : State) (i : Instr), exec i s = .next t →
    (t.cp = s.cp + BitVec.ofNat 32 (encode i).length ∧ t.status = s.status) ∨
    (t.cp = s.cp ∧ (i = .halt ∧ t.status = .halted ∨ t.status = .faulted))

/-- R12, R14, R15, R18, R19, R20: `SE`, `DE`, `N`, `PAGE` and `OVH` are written by `SET` and `MOV` alone, `ZP` by those and the two filter commands. -/
def Obligations.OnlySetAndMovWriteConfiguration : Prop :=
  ∀ (s t : State) (i : Instr) (q : Reg), exec i s = .next t → (∀ imm, i ≠ .set q imm) → (∀ rs, i ≠ .mov q rs) →
    (q ∈ [Reg.se, .de, .n, .page, .ovh] → t.reg q = s.reg q) ∧
    (q = .zp → i ≠ .dzEnc → i ≠ .dzDec → t.reg q = s.reg q)

/-- R40, R46, R52: no step changes a byte of `M` outside the destination view, and none changes any byte when the views are not valid and disjoint. -/
def Obligations.StepsWriteOnlyTheDestinationView : Prop :=
  ∀ s t : State, step s = .next t → MemKeptOutside s.dp.toNat s.de.toNat s t ∧ (¬ ViewsOk s → MemKept s t)

/-- R46, R130: a data command's outcome depends on the registers and the source view alone: two engines that agree on them end with the same registers and status and
the same words written, whatever else their memories hold. For `PACKU` on inputs that do not fit, the words written are free words that depend on the model's draw counter alone,
the model's choice (log 4, log 12), which is why the counters are premised equal. -/
def Obligations.DataCommandsSeeOnlyTheSourceView : Prop :=
  ∀ (s s' t t' : State) (i : Instr), i ∉ [Instr.nop, .halt] → (∀ rd imm, i ≠ .set rd imm) → (∀ rd rs, i ≠ .mov rd rs) →
    (∀ r, s.reg r = s'.reg r) → s.cp = s'.cp → s.status = s'.status → s.cause = s'.cause → s.finfo = s'.finfo →
    s.memwords = s'.memwords → s.draws = s'.draws → s.source = s'.source →
    exec i s = .next t → exec i s' = .next t' →
    (∀ r, t.reg r = t'.reg r) ∧ t.cp = t'.cp ∧ t.status = t'.status ∧ t.cause = t'.cause ∧ t.finfo = t'.finfo ∧
      ∀ a, s.dp.toNat ≤ a → a < t.dp.toNat → t.wordAt a = t'.wordAt a

/-- Every step of a legal engine, running or stopped, leaves a legal engine. -/
def Obligations.StepKeepsLegal : Prop :=
  ∀ s t : State, s.Legal → step s = .next t → t.Legal

/-- The engine is legal after reset, whatever legal memory size it has; `State.reset`'s size is the model's choice (log 1). -/
def Obligations.ResetIsLegal : Prop :=
  State.reset.Legal ∧ ∀ n : Nat, 1 ≤ n → n ≤ 2 ^ 31 → (State.resetOf n).Legal

/-! ## Reset and the host -/

/-- R28: the registers after reset; every word of `M` unspecified: it reads as a free value until it is written. -/
def Obligations.ResetValues : Prop :=
  (∀ r ∈ [Reg.sp, .se, .dp, .de, .n, .rc, .wc, .zp], State.reset.reg r = 0) ∧ State.reset.page = 65536 ∧ State.reset.ovh = 8 ∧
  State.reset.cp = 0 ∧ State.reset.status = .idle ∧ State.reset.cause = 0 ∧ State.reset.finfo = 0 ∧
  (∀ i, State.reset.byteAt i = Config.powerOnByte State.reset.epoch i)

/-- R96, R316, R22: START from `IDLE` writes `CP`, `CAUSE`, `FINFO`, `STATUS` and nothing else, is ignored in `HALTED` and `FAULTED`, and has no move while
`RUNNING` (the model's choice, log 8); CLEAR, the host's write of 0 to `STATUS`, turns `HALTED` or `FAULTED` into `IDLE` and changes nothing else; every other write of `STATUS` is
ignored, while `RUNNING` too (the model's reading, log 16). -/
def Obligations.StartAndClear : Prop :=
  ∀ s : State,
    (s.status = .idle → ∀ a, hostMove (.start a) s = .next { s with cp := a, cause := 0, finfo := 0, status := .running }) ∧
    (s.status = .halted ∨ s.status = .faulted → ∀ a, hostMove (.start a) s = .next s) ∧
    (s.status = .running → ∀ a, hostMove (.start a) s = .refused .hostWhileRunning) ∧
    (s.status = .halted ∨ s.status = .faulted →
      hostMove .clear s = .next { s with status := .idle } ∧ hostMove (.writeStatus 0) s = .next { s with status := .idle }) ∧
    (s.status = .idle ∨ s.status = .running → ∀ v, hostMove (.writeStatus v) s = .next s) ∧
    (∀ v, v ≠ 0 → hostMove (.writeStatus v) s = .next s)

/-- R340: a RESET of a powered engine, in every state, writes every register to its reset value and keeps every word of `M`, but for the destination view of a data
command it cuts short: none is cut short in a stopped engine, nor where the words at `CP` are no command or a command without a destination view. A power-on reset leaves
every word unspecified. Which command a RESET cuts short is the model's reading (log 10). -/
def Obligations.ResetMoves : Prop :=
  ∀ s : State,
    (∃ t, hostMove .reset s = .next t ∧ (∀ r, t.reg r = State.reset.reg r) ∧ t.cp = 0 ∧ t.status = .idle ∧ t.cause = 0 ∧ t.finfo = 0 ∧
      t.memwords = s.memwords ∧ MemKept s t) ∧
    (∃ t, hostMove .resetDuring s = .next t ∧ (∀ r, t.reg r = State.reset.reg r) ∧ t.cp = 0 ∧ t.status = .idle ∧ t.cause = 0 ∧ t.finfo = 0 ∧
      t.memwords = s.memwords ∧ MemKeptOutside s.dp.toNat s.de.toNat s t ∧ (¬ ViewsOk s → MemKept s t) ∧
      (s.status ≠ .running → MemKept s t) ∧
      (∀ e, decode s.fetchWindow = .error e → MemKept s t) ∧
      (∀ i rest, decode s.fetchWindow = .ok (i, rest) → hasDestination i = false → MemKept s t)) ∧
    (∃ t, hostMove .powerOn s = .next t ∧ (∀ r, t.reg r = State.reset.reg r) ∧ t.cp = 0 ∧ t.status = .idle ∧ t.cause = 0 ∧ t.finfo = 0 ∧
      t.memwords = s.memwords ∧ ∀ i, t.byteAt i = Config.powerOnByte t.epoch i)

/-- R51, R22, R23, R24: while not running the host writes one word, one register or `CP` and nothing else, and reads them, `CAUSE` and `FINFO`; while running it reads
`STATUS` and has no other access (U12; log 8). `STATUS` reads as its code at any time. A host write of `CAUSE` or `FINFO`, read-only for it, changes nothing (log 20). -/
def Obligations.HostAccessOnlyWhileStopped : Prop :=
  (∀ (s : State) (a : Nat) (w v : Word) (r : Reg) (c : BitVec 8), s.status ≠ .running →
    (∃ t, hostMove (.writeReg r v) s = .next t ∧ t.reg r = v ∧ RegsKeptBut [r] s t ∧ t.cp = s.cp ∧ ControlKept s t ∧ MemKept s t) ∧
    (∃ t, hostMove (.writeCp v) s = .next t ∧ t.cp = v ∧ RegsKeptBut [] s t ∧ ControlKept s t ∧ MemKept s t) ∧
    (a < s.memwords → ∃ t, hostMove (.writeWord a w) s = .next t ∧ t.wordAt a = w ∧ MemKeptOutside a (a + 1) s t ∧
      RegsKeptBut [] s t ∧ t.cp = s.cp ∧ ControlKept s t) ∧
    hostMove (.writeCause c) s = .next s ∧ hostMove (.writeFinfo v) s = .next s ∧
    s.hostReadReg r = some (s.reg r) ∧ s.hostReadCp = some s.cp ∧ s.hostReadCause = some s.cause ∧ s.hostReadFinfo = some s.finfo ∧
    (a < s.memwords → s.hostReadWord a = some (s.wordAt a))) ∧
  (∀ (s : State) (a : Nat) (w v : Word) (r : Reg) (c : BitVec 8), s.status = .running →
    hostMove (.writeReg r v) s = .refused .hostWhileRunning ∧ hostMove (.writeCp v) s = .refused .hostWhileRunning ∧
    (a < s.memwords → hostMove (.writeWord a w) s = .refused .hostWhileRunning) ∧
    hostMove (.writeCause c) s = .refused .hostWhileRunning ∧ hostMove (.writeFinfo v) s = .refused .hostWhileRunning ∧
    s.hostReadReg r = none ∧ s.hostReadCp = none ∧ s.hostReadCause = none ∧ s.hostReadFinfo = none ∧ s.hostReadWord a = none) ∧
  (∀ s : State, s.hostReadStatus = match s.status with | .idle => 0 | .running => 1 | .halted => 2 | .faulted => 3)

/-- Every host move the model has, at any time, leaves a legal engine legal. -/
def Obligations.HostMovesKeepLegal : Prop :=
  ∀ (s t : State) (m : HostMove), s.Legal → hostMove m s = .next t → t.Legal
end

