-- ==== Sys2Proof/Laws/Lanes.lean ====
section
/-! SUPPORT. The lane functions of 41_bitprimitives.md: lengths, single fields, and the two inverses. -/

namespace Sys2Proof.Machine

@[simp] theorem toLanes_length (w k S : Nat) : (toLanes w k S).length = k := by
  induction k generalizing S with
  | zero => rfl
  | succ k ih => simp [toLanes, ih]

@[simp] theorem pack_length (b : Nat) (V : List Word) : (pack b V).length = b := toLanes_length ..

@[simp] theorem unpack_length (b : Nat) (W : List Word) : (unpack b W).length = 32 := toLanes_length ..

/-- One field of a bitstream, as rule R111 and rule R112 write it. -/
theorem toLanes_getElem (w k S i : Nat) (h : i < (toLanes w k S).length) :
    (toLanes w k S)[i] = BitVec.ofNat 32 (S / 2 ^ (w * i) % 2 ^ w) := by
  induction k generalizing S i with
  | zero => simp [toLanes] at h
  | succ k ih =>
    cases i with
    | zero => simp [toLanes]
    | succ i =>
      simp only [toLanes, List.getElem_cons_succ]
      rw [ih, Nat.div_div_eq_div_mul, ← Nat.pow_add]
      congr 4
      ring_nf

/-- The bitstream of `k` lanes is below `2^(w*k)`. -/
theorem ofLanes_lt (w : Nat) (V : List Word) : ofLanes w V < 2 ^ (w * V.length) := by
  induction V with
  | nil => simp [ofLanes]
  | cons v V ih =>
    simp only [ofLanes, List.length_cons, Nat.mul_succ, Nat.pow_add]
    have h1 := Nat.mod_lt v.toNat (Nat.two_pow_pos w)
    nlinarith [Nat.two_pow_pos w]

/-- The fields of a bitstream are its lanes, truncated (R116, one direction). -/
theorem toLanes_ofLanes (w : Nat) (V : List Word) : toLanes w V.length (ofLanes w V) = V.map fun v => BitVec.ofNat 32 (v.toNat % 2 ^ w) := by
  induction V with
  | nil => rfl
  | cons v V ih =>
    have hw := Nat.two_pow_pos w
    simp only [List.length_cons, toLanes, ofLanes, List.map_cons]
    rw [Nat.add_mul_mod_self_left, Nat.mod_mod, Nat.add_mul_div_left _ _ hw, Nat.div_eq_of_lt (Nat.mod_lt _ hw), Nat.zero_add, ih]

/-- The bitstream of the fields of a number is the number, up to the fields' reach (R116, the other direction). -/
theorem ofLanes_toLanes (w k S : Nat) (hw : w ≤ 32) : ofLanes w (toLanes w k S) = S % 2 ^ (w * k) := by
  induction k generalizing S with
  | zero => simp [toLanes, ofLanes, Nat.mod_one]
  | succ k ih =>
    have h1 : S % 2 ^ w < 2 ^ 32 := lt_of_lt_of_le (Nat.mod_lt _ (Nat.two_pow_pos w)) (Nat.pow_le_pow_right (by omega) hw)
    simp only [toLanes, ofLanes, BitVec.toNat_ofNat, ih]
    rw [Nat.mod_eq_of_lt h1, Nat.mod_mod, Nat.mul_succ, Nat.add_comm (w * k) w, Nat.pow_add, Nat.mod_mul]

end Sys2Proof.Machine
end

