-- ==== Sys2Proof/Laws/Memory.lean ====
section
/-! SUPPORT. What the memory operations do: a word read after it is written, the words a write leaves alone, and the canonical form. -/

namespace Sys2Proof.Machine

/-! ## Bytes and words -/

theorem wordByte_toNat (w : Word) (k : Nat) : (wordByte w k).toNat = w.toNat / 2 ^ (8 * k) % 2 ^ 8 := by
  simp [wordByte]

/-- A word is its four bytes (R43). -/
@[simp] theorem joinBytes_wordByte (w : Word) : joinBytes (wordByte w 0) (wordByte w 1) (wordByte w 2) (wordByte w 3) = w := by
  apply BitVec.eq_of_toNat_eq
  have := w.isLt
  simp only [joinBytes, wordByte_toNat, BitVec.toNat_ofNat]
  norm_num
  omega

/-! ## Finding a byte -/

theorem findByte_append (i : Nat) (m m' : List Host.Cell) :
    findByte i (m ++ m') = match findByte i m with
      | some b => some b
      | none => findByte i m' := by
  induction m with
  | nil => rfl
  | cons c m ih => simp only [List.cons_append, findByte]; split_ifs <;> simp [ih]

theorem findByte_eq_none (i : Nat) (m : List Host.Cell) (h : ∀ c ∈ m, c.1 ≠ i) : findByte i m = none := by
  induction m with
  | nil => rfl
  | cons c m ih =>
    have hc : ¬ i = c.1 := fun e => h c (by simp) e.symm
    simp only [findByte, if_neg hc]
    exact ih fun d hd => h d (by simp [hd])

theorem findByte_filter (i : Nat) (m : List Host.Cell) (p : Nat → Bool) (h : p i = true) :
    findByte i (m.filter fun c => p c.1) = findByte i m := by
  induction m with
  | nil => rfl
  | cons c m ih =>
    by_cases hc : i = c.1
    · subst hc; simp [List.filter, h, findByte]
    · by_cases hp : p c.1 = true
      · simp [List.filter, hp, findByte, hc, ih]
      · simp only [Bool.not_eq_true] at hp; simp [List.filter, hp, findByte, hc, ih]

theorem findByte_dropBelow (i j : Nat) (m : List Host.Cell) (h : j ≤ i) : findByte i (dropBelow j m) = findByte i m := by
  induction m with
  | nil => rfl
  | cons c m ih =>
    simp only [dropBelow]
    split_ifs with hc
    · have : ¬ i = c.1 := by omega
      rw [ih, findByte, if_neg this]
    · rfl

theorem cellsOf_keys (a : Nat) (ws : List Word) : ∀ c ∈ cellsOf a ws, 4 * a ≤ c.1 ∧ c.1 < 4 * (a + ws.length) := by
  induction ws generalizing a with
  | nil => simp [cellsOf]
  | cons w ws ih =>
    intro c hc
    simp only [cellsOf, List.mem_cons] at hc
    simp only [List.length_cons]
    rcases hc with rfl | rfl | rfl | rfl | hc
    · exact ⟨Nat.le_refl _, by show 4 * a < _; omega⟩
    · exact ⟨by show 4 * a ≤ 4 * a + 1; omega, by show 4 * a + 1 < _; omega⟩
    · exact ⟨by show 4 * a ≤ 4 * a + 2; omega, by show 4 * a + 2 < _; omega⟩
    · exact ⟨by show 4 * a ≤ 4 * a + 3; omega, by show 4 * a + 3 < _; omega⟩
    · have := ih (a + 1) c hc
      omega

/-- The stored cells hold the stored words, byte by byte. -/
theorem findByte_cellsOf (a : Nat) (ws : List Word) (j k : Nat) (hj : j < ws.length) (hk : k < 4) :
    findByte (4 * (a + j) + k) (cellsOf a ws) = some (wordByte ws[j] k) := by
  induction ws generalizing a j with
  | nil => simp at hj
  | cons w ws ih =>
    simp only [cellsOf, findByte]
    cases j with
    | zero =>
      have : k = 0 ∨ k = 1 ∨ k = 2 ∨ k = 3 := by omega
      rcases this with rfl | rfl | rfl | rfl <;> simp
    | succ j =>
      have h0 : ¬ 4 * (a + (j + 1)) + k = 4 * a := by omega
      have h1 : ¬ 4 * (a + (j + 1)) + k = 4 * a + 1 := by omega
      have h2 : ¬ 4 * (a + (j + 1)) + k = 4 * a + 2 := by omega
      have h3 : ¬ 4 * (a + (j + 1)) + k = 4 * a + 3 := by omega
      rw [if_neg h0, if_neg h1, if_neg h2, if_neg h3]
      have := ih (a + 1) j (by simpa using hj)
      rw [show 4 * (a + (j + 1)) + k = 4 * (a + 1 + j) + k by omega]
      simpa using this

/-! ## Writing -/

theorem writeWords_eq (m : List Host.Cell) (a : Nat) (ws : List Word) :
    writeWords m a ws = m.filter (fun c => decide (c.1 < 4 * a)) ++ cellsOf a ws ++ m.filter (fun c => decide (4 * (a + ws.length) ≤ c.1)) := by
  unfold writeWords
  congr 2
  · congr 1; funext c; rw [Bool.eq_iff_iff]; simp [Nat.blt_eq]
  · funext c; rw [Bool.eq_iff_iff]; simp [Nat.ble_eq]

/-- A byte outside the stored words is found as before. -/
theorem findByte_writeWords_outside (m : List Host.Cell) (a : Nat) (ws : List Word) (i : Nat) (h : i < 4 * a ∨ 4 * (a + ws.length) ≤ i) :
    findByte i (writeWords m a ws) = findByte i m := by
  have hmid : findByte i (cellsOf a ws) = none := findByte_eq_none _ _ fun c hc e => by
    have := cellsOf_keys a ws c hc; omega
  rw [writeWords_eq, findByte_append, findByte_append, hmid]
  rcases h with h | h
  · rw [findByte_filter i m (fun n => decide (n < 4 * a)) (by simpa using h)]
    rw [findByte_eq_none i (m.filter _) (fun c hc e => by simp at hc; omega)]
    cases findByte i m <;> rfl
  · rw [findByte_filter i m (fun n => decide (4 * (a + ws.length) ≤ n)) (by simpa using h)]
    rw [findByte_eq_none i (m.filter fun c => decide (c.1 < 4 * a)) (fun c hc e => by simp at hc; omega)]

/-- A byte of a stored word is found. -/
theorem findByte_writeWords_inside (m : List Host.Cell) (a : Nat) (ws : List Word) (j k : Nat) (hj : j < ws.length) (hk : k < 4) :
    findByte (4 * (a + j) + k) (writeWords m a ws) = some (wordByte ws[j] k) := by
  rw [writeWords_eq, findByte_append, findByte_append, findByte_cellsOf a ws j k hj hk]
  rw [findByte_eq_none (4 * (a + j) + k) (m.filter fun c => decide (c.1 < 4 * a)) (fun c hc e => by simp at hc; omega)]

/-- Every byte outside the stored words reads as before. -/
theorem readByte_writeWords_outside (e : Nat) (m : List Host.Cell) (a : Nat) (ws : List Word) (i : Nat)
    (h : i < 4 * a ∨ 4 * (a + ws.length) ≤ i) : readByte e (writeWords m a ws) i = readByte e m i := by
  unfold readByte; rw [findByte_writeWords_outside m a ws i h]

/-- A stored word reads back. -/
theorem readWord_writeWords_inside (e : Nat) (m : List Host.Cell) (a : Nat) (ws : List Word) (j : Nat) (hj : j < ws.length) :
    readWord e (writeWords m a ws) (a + j) = ws[j] := by
  have h0 := findByte_writeWords_inside m a ws j 0 hj (by omega)
  have h1 := findByte_writeWords_inside m a ws j 1 hj (by omega)
  have h2 := findByte_writeWords_inside m a ws j 2 hj (by omega)
  have h3 := findByte_writeWords_inside m a ws j 3 hj (by omega)
  simp only [Nat.add_zero] at h0
  simp only [readWord, readByte, h0, h1, h2, h3, joinBytes_wordByte]

/-- A word outside the stored words reads as before. -/
theorem readWord_writeWords_outside (e : Nat) (m : List Host.Cell) (a : Nat) (ws : List Word) (b : Nat)
    (h : b < a ∨ a + ws.length ≤ b) : readWord e (writeWords m a ws) b = readWord e m b := by
  unfold readWord
  rw [readByte_writeWords_outside, readByte_writeWords_outside, readByte_writeWords_outside, readByte_writeWords_outside] <;> omega

/-! ## Reading a run of words -/

theorem readWord_dropBelow (e : Nat) (m : List Host.Cell) (a j : Nat) (h : j ≤ 4 * a) : readWord e (dropBelow j m) a = readWord e m a := by
  simp only [readWord, readByte]
  rw [findByte_dropBelow _ _ _ h, findByte_dropBelow _ _ _ (by omega), findByte_dropBelow _ _ _ (by omega), findByte_dropBelow _ _ _ (by omega)]

@[simp] theorem readWords_length (e : Nat) (m : List Host.Cell) (a n : Nat) : (readWords e m a n).length = n := by
  induction n generalizing a m with
  | zero => rfl
  | succ n ih => simp [readWords, ih]

/-- A run of words is read word by word. -/
theorem readWords_eq_map (e : Nat) (m : List Host.Cell) (a n : Nat) :
    readWords e m a n = (List.range n).map fun i => readWord e m (a + i) := by
  induction n generalizing a m with
  | zero => rfl
  | succ n ih =>
    rw [readWords, List.range_succ_eq_map, List.map_cons, List.map_map, ih, readWord_dropBelow _ _ _ _ (Nat.le_refl _)]
    congr 1
    apply List.map_congr_left
    intro i _
    simp only [Function.comp_apply]
    rw [readWord_dropBelow _ _ _ _ (by omega)]
    congr 1; omega

@[simp] theorem State.memRead_length (s : State) (a n : Nat) : (s.memRead a n).length = n := readWords_length ..

theorem State.memRead_eq_map (s : State) (a n : Nat) : s.memRead a n = (List.range n).map fun i => s.wordAt (a + i) :=
  readWords_eq_map ..

/-- The words of a stored run read back. -/
theorem readWords_writeWords_same (e : Nat) (m : List Host.Cell) (a : Nat) (ws : List Word) : readWords e (writeWords m a ws) a ws.length = ws := by
  rw [readWords_eq_map]
  apply List.ext_getElem (by simp)
  intro i h1 h2
  simp only [List.getElem_map, List.getElem_range]
  exact readWord_writeWords_inside e m a ws i h2

/-- A run of words outside the stored ones reads as before. -/
theorem readWords_writeWords_outside (e : Nat) (m : List Host.Cell) (a : Nat) (ws : List Word) (b n : Nat) (h : b + n ≤ a ∨ a + ws.length ≤ b) :
    readWords e (writeWords m a ws) b n = readWords e m b n := by
  simp only [readWords_eq_map]
  apply List.map_congr_left
  intro i hi
  have : i < n := by simpa using hi
  exact readWord_writeWords_outside e m a ws (b + i) (by omega)

/-! ## The canonical form -/

theorem wf_cellsOf (a : Nat) (ws : List Word) : Memory.wf (cellsOf a ws) := by
  induction ws generalizing a with
  | nil => simp [Memory.wf, cellsOf]
  | cons w ws ih =>
    have h := ih (a + 1)
    have hk : ∀ x ∈ (cellsOf (a + 1) ws).map (·.1), 4 * a + 3 < x := by
      intro x hx
      obtain ⟨c, hc, rfl⟩ := List.mem_map.1 hx
      have := cellsOf_keys (a + 1) ws c hc
      omega
    simp only [Memory.wf, cellsOf, List.map_cons, List.pairwise_cons, List.mem_cons] at *
    refine ⟨?_, ?_, ?_, hk, h⟩ <;> intro x hx
    · rcases hx with rfl | rfl | rfl | hx
      · omega
      · omega
      · omega
      · have := hk x hx; omega
    · rcases hx with rfl | rfl | hx
      · omega
      · omega
      · have := hk x hx; omega
    · rcases hx with rfl | hx
      · omega
      · have := hk x hx; omega

theorem wf_filter (m : List Host.Cell) (p : Host.Cell → Bool) (h : Memory.wf m) : Memory.wf (m.filter p) :=
  h.sublist (List.filter_sublist.map _)

/-- Memory after reset has the canonical form: nothing is listed. -/
theorem wf_resetOf (n : Nat) : Memory.wf (State.resetOf n).mem := List.Pairwise.nil

/-- Every write keeps the canonical form. -/
theorem wf_writeWords (m : List Host.Cell) (a : Nat) (ws : List Word) (h : Memory.wf m) : Memory.wf (writeWords m a ws) := by
  rw [writeWords_eq]
  simp only [Memory.wf, List.map_append, List.pairwise_append]
  refine ⟨⟨wf_filter m _ h, wf_cellsOf a ws, ?_⟩, wf_filter m _ h, ?_⟩
  · intro x hx y hy
    obtain ⟨c, hc, rfl⟩ := List.mem_map.1 hx
    obtain ⟨d, hd, rfl⟩ := List.mem_map.1 hy
    have := cellsOf_keys a ws d hd
    simp at hc
    omega
  · intro x hx y hy
    obtain ⟨d, hd, rfl⟩ := List.mem_map.1 hy
    simp at hd
    rcases List.mem_append.1 hx with hx | hx <;> obtain ⟨c, hc, rfl⟩ := List.mem_map.1 hx
    · simp at hc; omega
    · have := cellsOf_keys a ws c hc; omega

/-- The keys of a written list: old ones, or those of the stored words. -/
theorem writeWords_keys (m : List Host.Cell) (a : Nat) (ws : List Word) :
    ∀ c ∈ writeWords m a ws, c ∈ m ∨ (4 * a ≤ c.1 ∧ c.1 < 4 * (a + ws.length)) := by
  intro c hc
  rw [writeWords_eq, List.append_assoc, List.mem_append, List.mem_append] at hc
  rcases hc with hc | hc | hc
  · exact .inl (List.mem_of_mem_filter hc)
  · exact .inr (cellsOf_keys a ws c hc)
  · exact .inl (List.mem_of_mem_filter hc)

end Sys2Proof.Machine
end

