-- ==== Sys2Proof/Laws/State.lean ====
section
/-! SUPPORT. One lemma for each field of State under each update of it, and reading a register after writing one. -/

namespace Sys2Proof.Machine

@[simp] theorem State.advance_memwords (s : State) (len : Nat) : (s.advance len).memwords = s.memwords := rfl
@[simp] theorem State.advance_sp (s : State) (len : Nat) : (s.advance len).sp = s.sp := rfl
@[simp] theorem State.advance_se (s : State) (len : Nat) : (s.advance len).se = s.se := rfl
@[simp] theorem State.advance_dp (s : State) (len : Nat) : (s.advance len).dp = s.dp := rfl
@[simp] theorem State.advance_de (s : State) (len : Nat) : (s.advance len).de = s.de := rfl
@[simp] theorem State.advance_n (s : State) (len : Nat) : (s.advance len).n = s.n := rfl
@[simp] theorem State.advance_rc (s : State) (len : Nat) : (s.advance len).rc = s.rc := rfl
@[simp] theorem State.advance_wc (s : State) (len : Nat) : (s.advance len).wc = s.wc := rfl
@[simp] theorem State.advance_zp (s : State) (len : Nat) : (s.advance len).zp = s.zp := rfl
@[simp] theorem State.advance_page (s : State) (len : Nat) : (s.advance len).page = s.page := rfl
@[simp] theorem State.advance_ovh (s : State) (len : Nat) : (s.advance len).ovh = s.ovh := rfl
@[simp] theorem State.advance_cp (s : State) (len : Nat) : (s.advance len).cp = s.cp + BitVec.ofNat 32 len := rfl
@[simp] theorem State.advance_status (s : State) (len : Nat) : (s.advance len).status = s.status := rfl
@[simp] theorem State.advance_cause (s : State) (len : Nat) : (s.advance len).cause = s.cause := rfl
@[simp] theorem State.advance_finfo (s : State) (len : Nat) : (s.advance len).finfo = s.finfo := rfl
@[simp] theorem State.advance_mem (s : State) (len : Nat) : (s.advance len).mem = s.mem := rfl
@[simp] theorem State.advance_epoch (s : State) (len : Nat) : (s.advance len).epoch = s.epoch := rfl
@[simp] theorem State.advance_draws (s : State) (len : Nat) : (s.advance len).draws = s.draws := rfl

@[simp] theorem State.takeFault_memwords (s : State) (t : Trap) : (s.takeFault t).memwords = s.memwords := rfl
@[simp] theorem State.takeFault_sp (s : State) (t : Trap) : (s.takeFault t).sp = s.sp := rfl
@[simp] theorem State.takeFault_se (s : State) (t : Trap) : (s.takeFault t).se = s.se := rfl
@[simp] theorem State.takeFault_dp (s : State) (t : Trap) : (s.takeFault t).dp = s.dp := rfl
@[simp] theorem State.takeFault_de (s : State) (t : Trap) : (s.takeFault t).de = s.de := rfl
@[simp] theorem State.takeFault_n (s : State) (t : Trap) : (s.takeFault t).n = s.n := rfl
@[simp] theorem State.takeFault_rc (s : State) (t : Trap) : (s.takeFault t).rc = s.rc := rfl
@[simp] theorem State.takeFault_wc (s : State) (t : Trap) : (s.takeFault t).wc = s.wc := rfl
@[simp] theorem State.takeFault_zp (s : State) (t : Trap) : (s.takeFault t).zp = s.zp := rfl
@[simp] theorem State.takeFault_page (s : State) (t : Trap) : (s.takeFault t).page = s.page := rfl
@[simp] theorem State.takeFault_ovh (s : State) (t : Trap) : (s.takeFault t).ovh = s.ovh := rfl
@[simp] theorem State.takeFault_cp (s : State) (t : Trap) : (s.takeFault t).cp = s.cp := rfl
@[simp] theorem State.takeFault_status (s : State) (t : Trap) : (s.takeFault t).status = .faulted := rfl
@[simp] theorem State.takeFault_cause (s : State) (t : Trap) : (s.takeFault t).cause = t.cause.code := rfl
@[simp] theorem State.takeFault_finfo (s : State) (t : Trap) : (s.takeFault t).finfo = t.info := rfl
@[simp] theorem State.takeFault_mem (s : State) (t : Trap) : (s.takeFault t).mem = s.mem := rfl
@[simp] theorem State.takeFault_epoch (s : State) (t : Trap) : (s.takeFault t).epoch = s.epoch := rfl
@[simp] theorem State.takeFault_draws (s : State) (t : Trap) : (s.takeFault t).draws = s.draws := rfl

@[simp] theorem State.memWrite_memwords (s : State) (a : Nat) (ws : List Word) : (s.memWrite a ws).memwords = s.memwords := rfl
@[simp] theorem State.memWrite_sp (s : State) (a : Nat) (ws : List Word) : (s.memWrite a ws).sp = s.sp := rfl
@[simp] theorem State.memWrite_se (s : State) (a : Nat) (ws : List Word) : (s.memWrite a ws).se = s.se := rfl
@[simp] theorem State.memWrite_dp (s : State) (a : Nat) (ws : List Word) : (s.memWrite a ws).dp = s.dp := rfl
@[simp] theorem State.memWrite_de (s : State) (a : Nat) (ws : List Word) : (s.memWrite a ws).de = s.de := rfl
@[simp] theorem State.memWrite_n (s : State) (a : Nat) (ws : List Word) : (s.memWrite a ws).n = s.n := rfl
@[simp] theorem State.memWrite_rc (s : State) (a : Nat) (ws : List Word) : (s.memWrite a ws).rc = s.rc := rfl
@[simp] theorem State.memWrite_wc (s : State) (a : Nat) (ws : List Word) : (s.memWrite a ws).wc = s.wc := rfl
@[simp] theorem State.memWrite_zp (s : State) (a : Nat) (ws : List Word) : (s.memWrite a ws).zp = s.zp := rfl
@[simp] theorem State.memWrite_page (s : State) (a : Nat) (ws : List Word) : (s.memWrite a ws).page = s.page := rfl
@[simp] theorem State.memWrite_ovh (s : State) (a : Nat) (ws : List Word) : (s.memWrite a ws).ovh = s.ovh := rfl
@[simp] theorem State.memWrite_cp (s : State) (a : Nat) (ws : List Word) : (s.memWrite a ws).cp = s.cp := rfl
@[simp] theorem State.memWrite_status (s : State) (a : Nat) (ws : List Word) : (s.memWrite a ws).status = s.status := rfl
@[simp] theorem State.memWrite_cause (s : State) (a : Nat) (ws : List Word) : (s.memWrite a ws).cause = s.cause := rfl
@[simp] theorem State.memWrite_finfo (s : State) (a : Nat) (ws : List Word) : (s.memWrite a ws).finfo = s.finfo := rfl
@[simp] theorem State.memWrite_mem (s : State) (a : Nat) (ws : List Word) : (s.memWrite a ws).mem = writeWords s.mem a ws := rfl
@[simp] theorem State.memWrite_epoch (s : State) (a : Nat) (ws : List Word) : (s.memWrite a ws).epoch = s.epoch := rfl
@[simp] theorem State.memWrite_draws (s : State) (a : Nat) (ws : List Word) : (s.memWrite a ws).draws = s.draws := rfl

@[simp] theorem State.voidDestination_memwords (s : State) : s.voidDestination.memwords = s.memwords := rfl
@[simp] theorem State.voidDestination_sp (s : State) : s.voidDestination.sp = s.sp := rfl
@[simp] theorem State.voidDestination_se (s : State) : s.voidDestination.se = s.se := rfl
@[simp] theorem State.voidDestination_dp (s : State) : s.voidDestination.dp = s.dp := rfl
@[simp] theorem State.voidDestination_de (s : State) : s.voidDestination.de = s.de := rfl
@[simp] theorem State.voidDestination_n (s : State) : s.voidDestination.n = s.n := rfl
@[simp] theorem State.voidDestination_rc (s : State) : s.voidDestination.rc = s.rc := rfl
@[simp] theorem State.voidDestination_wc (s : State) : s.voidDestination.wc = s.wc := rfl
@[simp] theorem State.voidDestination_zp (s : State) : s.voidDestination.zp = s.zp := rfl
@[simp] theorem State.voidDestination_page (s : State) : s.voidDestination.page = s.page := rfl
@[simp] theorem State.voidDestination_ovh (s : State) : s.voidDestination.ovh = s.ovh := rfl
@[simp] theorem State.voidDestination_cp (s : State) : s.voidDestination.cp = s.cp := rfl
@[simp] theorem State.voidDestination_status (s : State) : s.voidDestination.status = s.status := rfl
@[simp] theorem State.voidDestination_cause (s : State) : s.voidDestination.cause = s.cause := rfl
@[simp] theorem State.voidDestination_finfo (s : State) : s.voidDestination.finfo = s.finfo := rfl
@[simp] theorem State.voidDestination_mem (s : State) : s.voidDestination.mem = writeWords s.mem s.dp.toNat (s.freeWords s.capacity) := rfl
@[simp] theorem State.voidDestination_epoch (s : State) : s.voidDestination.epoch = s.epoch := rfl
@[simp] theorem State.voidDestination_draws (s : State) : s.voidDestination.draws = s.draws + s.capacity := rfl

@[simp] theorem State.commit_memwords (s : State) (e : Evaluated) : (s.commit e).memwords = s.memwords := rfl
@[simp] theorem State.commit_sp (s : State) (e : Evaluated) : (s.commit e).sp = BitVec.ofNat 32 (s.sp.toNat + e.read) := rfl
@[simp] theorem State.commit_se (s : State) (e : Evaluated) : (s.commit e).se = s.se := rfl
@[simp] theorem State.commit_dp (s : State) (e : Evaluated) : (s.commit e).dp = BitVec.ofNat 32 (s.dp.toNat + e.out.length) := rfl
@[simp] theorem State.commit_de (s : State) (e : Evaluated) : (s.commit e).de = s.de := rfl
@[simp] theorem State.commit_n (s : State) (e : Evaluated) : (s.commit e).n = s.n := rfl
@[simp] theorem State.commit_rc (s : State) (e : Evaluated) : (s.commit e).rc = BitVec.ofNat 32 e.read := rfl
@[simp] theorem State.commit_wc (s : State) (e : Evaluated) : (s.commit e).wc = BitVec.ofNat 32 e.out.length := rfl
@[simp] theorem State.commit_zp (s : State) (e : Evaluated) : (s.commit e).zp = e.zp.getD s.zp := rfl
@[simp] theorem State.commit_page (s : State) (e : Evaluated) : (s.commit e).page = s.page := rfl
@[simp] theorem State.commit_ovh (s : State) (e : Evaluated) : (s.commit e).ovh = s.ovh := rfl
@[simp] theorem State.commit_cp (s : State) (e : Evaluated) : (s.commit e).cp = s.cp + 1 := rfl
@[simp] theorem State.commit_status (s : State) (e : Evaluated) : (s.commit e).status = s.status := rfl
@[simp] theorem State.commit_cause (s : State) (e : Evaluated) : (s.commit e).cause = s.cause := rfl
@[simp] theorem State.commit_finfo (s : State) (e : Evaluated) : (s.commit e).finfo = s.finfo := rfl
@[simp] theorem State.commit_mem (s : State) (e : Evaluated) : (s.commit e).mem = writeWords s.mem s.dp.toNat e.out := rfl
@[simp] theorem State.commit_epoch (s : State) (e : Evaluated) : (s.commit e).epoch = s.epoch := rfl
@[simp] theorem State.commit_draws (s : State) (e : Evaluated) : (s.commit e).draws = s.draws + e.drawn := rfl

@[simp] theorem State.setReg_memwords (s : State) (r : Reg) (v : Word) : (s.setReg r v).memwords = s.memwords := by cases r <;> rfl
@[simp] theorem State.setReg_cp (s : State) (r : Reg) (v : Word) : (s.setReg r v).cp = s.cp := by cases r <;> rfl
@[simp] theorem State.setReg_status (s : State) (r : Reg) (v : Word) : (s.setReg r v).status = s.status := by cases r <;> rfl
@[simp] theorem State.setReg_cause (s : State) (r : Reg) (v : Word) : (s.setReg r v).cause = s.cause := by cases r <;> rfl
@[simp] theorem State.setReg_finfo (s : State) (r : Reg) (v : Word) : (s.setReg r v).finfo = s.finfo := by cases r <;> rfl
@[simp] theorem State.setReg_mem (s : State) (r : Reg) (v : Word) : (s.setReg r v).mem = s.mem := by cases r <;> rfl
@[simp] theorem State.setReg_epoch (s : State) (r : Reg) (v : Word) : (s.setReg r v).epoch = s.epoch := by cases r <;> rfl
@[simp] theorem State.setReg_draws (s : State) (r : Reg) (v : Word) : (s.setReg r v).draws = s.draws := by cases r <;> rfl

@[simp] theorem State.reg_setReg_same (s : State) (r : Reg) (v : Word) : (s.setReg r v).reg r = v := by cases r <;> rfl

theorem State.reg_setReg_ne (s : State) {r q : Reg} (v : Word) (h : q ≠ r) : (s.setReg r v).reg q = s.reg q := by
  cases r <;> cases q <;> first | rfl | exact absurd rfl h

@[simp] theorem State.reg_advance (s : State) (len : Nat) (r : Reg) : (s.advance len).reg r = s.reg r := by cases r <;> rfl
@[simp] theorem State.reg_takeFault (s : State) (t : Trap) (r : Reg) : (s.takeFault t).reg r = s.reg r := by cases r <;> rfl
@[simp] theorem State.reg_memWrite (s : State) (a : Nat) (ws : List Word) (r : Reg) : (s.memWrite a ws).reg r = s.reg r := by cases r <;> rfl
@[simp] theorem State.reg_voidDestination (s : State) (r : Reg) : s.voidDestination.reg r = s.reg r := by cases r <;> rfl

/-- `clear` writes `STATUS` alone. -/
theorem State.clear_eq (s : State) : s.clear = s ∨ s.clear = { s with status := .idle } := by
  unfold State.clear; cases s.status <;> simp

/-- A void of the destination view happens exactly when the views are valid and disjoint. -/
theorem State.voidIfViews_eq (s : State) : s.voidIfViews = s ∨ (s.viewFault = none ∧ s.voidIfViews = s.voidDestination) := by
  unfold State.voidIfViews; cases h : s.viewFault <;> simp

/-- The view checks pass exactly when both views are valid and not overlapping (R41, R42). -/
theorem State.viewFault_eq_none (s : State) : s.viewFault = none ↔ s.sourceValid ∧ s.destValid ∧ ¬ s.overlapping := by
  unfold State.viewFault
  by_cases h1 : s.sourceValid
  · by_cases h2 : s.destValid
    · by_cases h3 : s.overlapping
      · rw [if_neg (not_not.2 h1), if_neg (not_not.2 h2), if_pos h3]; exact ⟨nofun, fun h => absurd h3 h.2.2⟩
      · rw [if_neg (not_not.2 h1), if_neg (not_not.2 h2), if_neg h3]; exact ⟨fun _ => ⟨h1, h2, h3⟩, fun _ => rfl⟩
    · rw [if_neg (not_not.2 h1), if_pos h2]; exact ⟨nofun, fun h => absurd h.2.1 h2⟩
  · rw [if_pos h1]; exact ⟨nofun, fun h => absurd h.1 h1⟩

@[simp] theorem State.freeWords_length (s : State) (n : Nat) : (s.freeWords n).length = n := by simp [State.freeWords]

end Sys2Proof.Machine
end

