-- ==== Sys2Proof/Laws/Ops.lean ====
section
/-! SUPPORT. Everything a command or a step can do, said once: the inversion lemmas that later proofs cite instead of unfolding `exec` or `step`. -/

namespace Sys2Proof.Machine

/-- The next states a command has from `s`. -/
inductive Effect (s : State) : State → Prop
  /-- a data command commits (R46 (5)) -/
  | commit (e : Evaluated) (views : s.viewFault = none) (room : e.out.length ≤ s.capacity) : Effect s (s.commit e)
  /-- a fault past valid disjoint views: the destination view is unspecified (R52) -/
  | voidFault (t : Trap) (views : s.viewFault = none) : Effect s (s.voidDestination.takeFault t)
  /-- a fault that leaves `M` alone -/
  | plainFault (t : Trap) : Effect s (s.takeFault t)
  /-- an estimate (R231) -/
  | estimate (r w : Word) : Effect s { s with rc := r, wc := w, cp := s.cp + 1 }
  /-- `SET` and `MOV` (R93, R94) -/
  | register (r : Reg) (v : Word) (len : Nat) (hlen : len = 1 ∨ len = 2) : Effect s ((s.setReg r v).advance len)
  /-- `NOP` (R91) -/
  | advance : Effect s (s.advance 1)
  /-- `HALT` (R92) -/
  | halt : Effect s { s with status := .halted }

/-! ## The shared operations -/

/-- A data command whose views do not pass faults with that cause. -/
theorem dataCommand_viewFault {f : List Word → Except Trap Evaluated} {s : State} {c : Cause} (h : s.viewFault = some c) :
    dataCommand f s = .next (s.takeFault ⟨c, 0⟩) := by
  simp only [dataCommand, h]

/-- A data command whose function faults. -/
theorem dataCommand_error {f : List Word → Except Trap Evaluated} {s : State} {t : Trap} (h : s.viewFault = none) (hf : f s.source = .error t) :
    dataCommand f s = .next (s.voidDestination.takeFault t) := by
  simp only [dataCommand, h, hf]

/-- A data command whose output does not fit. -/
theorem dataCommand_overflow {f : List Word → Except Trap Evaluated} {s : State} {e : Evaluated} (h : s.viewFault = none)
    (hf : f s.source = .ok e) (hc : s.capacity < e.out.length) :
    dataCommand f s = .next (s.voidDestination.takeFault ⟨.destinationOverflow, 0⟩) := by
  simp only [dataCommand, h, hf, if_pos hc]

/-- A data command that commits. -/
theorem dataCommand_commit {f : List Word → Except Trap Evaluated} {s : State} {e : Evaluated} (h : s.viewFault = none)
    (hf : f s.source = .ok e) (hc : e.out.length ≤ s.capacity) : dataCommand f s = .next (s.commit e) := by
  simp only [dataCommand, h, hf, if_neg (Nat.not_lt.2 hc)]

/-- A data command always has a next state, one of four. -/
theorem dataCommand_effect (f : List Word → Except Trap Evaluated) (s : State) : ∃ t, dataCommand f s = .next t ∧ Effect s t := by
  cases h : s.viewFault with
  | some c => exact ⟨_, dataCommand_viewFault h, .plainFault _⟩
  | none =>
    cases hf : f s.source with
    | error t => exact ⟨_, dataCommand_error h hf, .voidFault t h⟩
    | ok e =>
      by_cases hc : s.capacity < e.out.length
      · exact ⟨_, dataCommand_overflow h hf hc, .voidFault _ h⟩
      · exact ⟨_, dataCommand_commit h hf (Nat.not_lt.1 hc), .commit e h (Nat.not_lt.1 hc)⟩

/-- A width above 32 faults before the views are looked at (R110). -/
theorem widthCommand_badWidth {b : Nat} {f : List Word → Except Trap Evaluated} {s : State} (h : 32 < b) :
    widthCommand b f s = .next (s.voidIfViews.takeFault ⟨.badWidth, BitVec.ofNat 32 b⟩) := by
  simp only [widthCommand, if_pos h]

/-- A width in range makes a plain data command. -/
theorem widthCommand_inRange {b : Nat} {f : List Word → Except Trap Evaluated} {s : State} (h : b ≤ 32) :
    widthCommand b f s = dataCommand f s := by
  simp only [widthCommand, if_neg (Nat.not_lt.2 h)]

theorem widthCommand_effect (b : Nat) (f : List Word → Except Trap Evaluated) (s : State) : ∃ t, widthCommand b f s = .next t ∧ Effect s t := by
  by_cases h : 32 < b
  · refine ⟨_, widthCommand_badWidth h, ?_⟩
    rcases s.voidIfViews_eq with e | ⟨hv, e⟩ <;> rw [e]
    · exact .plainFault _
    · exact .voidFault _ hv
  · rw [widthCommand_inRange (Nat.not_lt.1 h)]; exact dataCommand_effect f s

/-- A codec command whose function answers `(r, out)` that fits commits it. -/
theorem codecCommand_commit {f : List Word → CodecResult} {s : State} {r : Nat} {out : List Word} (h : s.viewFault = none)
    (hf : f s.source = .ok (r, out)) (hc : out.length ≤ s.capacity) :
    codecCommand f s = .next (s.commit { read := r, out := out }) :=
  dataCommand_commit h (by simp only [hf, Except.map]) hc

/-- A codec command whose function faults. -/
theorem codecCommand_error {f : List Word → CodecResult} {s : State} {t : Trap} (h : s.viewFault = none) (hf : f s.source = .error t) :
    codecCommand f s = .next (s.voidDestination.takeFault t) :=
  dataCommand_error h (by simp only [hf, Except.map])

theorem codecCommand_effect (f : List Word → CodecResult) (s : State) : ∃ t, codecCommand f s = .next t ∧ Effect s t :=
  dataCommand_effect _ s

/-- An estimate answers one of three next states. -/
theorem estimateCommand_effect (T : Layouts) (s : State) : ∃ t, estimateCommand T s = .next t ∧ Effect s t := by
  unfold estimateCommand
  split
  · exact ⟨_, rfl, .plainFault _⟩
  · cases selectorEstimate T s.source with
    | error t => exact ⟨_, rfl, .plainFault t⟩
    | ok w => exact ⟨_, rfl, .estimate _ _⟩

/-! ## Every command -/

/-- The arms of the codec commands, by codec (R132, R133, R134, R135). -/
theorem exec_hcOf (k : Codec) (s : State) : exec (hcOf k) s = codecCommand (headlessCompress k s.page s.ovh) s := by cases k <;> rfl

theorem exec_hdOf (k : Codec) (s : State) : exec (hdOf k) s = codecCommand (fun src => headlessDecompress k s.page src s.n.toNat) s := by
  cases k <;> rfl

theorem exec_cOf (k : Codec) (s : State) : exec (cOf k) s = codecCommand (headedCompress k s.page s.ovh) s := by cases k <;> rfl

theorem exec_dOf (k : Codec) (s : State) : exec (dOf k) s = codecCommand (headedDecompress k s.page) s := by cases k <;> rfl

theorem exec_hcOf_effect (k : Codec) (s : State) : ∃ t, exec (hcOf k) s = .next t ∧ Effect s t := by
  rw [exec_hcOf]; exact codecCommand_effect _ s

theorem exec_hdOf_effect (k : Codec) (s : State) : ∃ t, exec (hdOf k) s = .next t ∧ Effect s t := by
  rw [exec_hdOf]; exact codecCommand_effect _ s

theorem exec_cOf_effect (k : Codec) (s : State) : ∃ t, exec (cOf k) s = .next t ∧ Effect s t := by
  rw [exec_cOf]; exact codecCommand_effect _ s

theorem exec_dOf_effect (k : Codec) (s : State) : ∃ t, exec (dOf k) s = .next t ∧ Effect s t := by
  rw [exec_dOf]; exact codecCommand_effect _ s

theorem filterCommand_effect (f : Word → List Word → List Word × Word) (s : State) : ∃ t, filterCommand f s = .next t ∧ Effect s t :=
  dataCommand_effect _ s

/-- Every command has a next state, and it is one of `Effect`: nothing stops, nothing else happens. -/
theorem exec_effect (i : Instr) (s : State) : ∃ t, exec i s = .next t ∧ Effect s t := by
  cases i with
  | nop => exact ⟨_, rfl, .advance⟩
  | halt => exact ⟨_, rfl, .halt⟩
  | set rd imm => exact ⟨_, rfl, .register rd imm 2 (.inr rfl)⟩
  | mov rd rs => exact ⟨_, rfl, .register rd _ 1 (.inl rfl)⟩
  | pack b => exact widthCommand_effect ..
  | packu b => exact widthCommand_effect ..
  | unpack b => exact widthCommand_effect ..
  | s9Est => exact estimateCommand_effect ..
  | s16Est => exact estimateCommand_effect ..
  | dzEnc => exact filterCommand_effect dzEncode s
  | dzDec => exact filterCommand_effect dzDecode s
  | compC k1 k2 => exact codecCommand_effect (compCompress k1 k2 s.page s.ovh) s
  | compD k1 k2 => exact codecCommand_effect (fun src => compDecompress k1 k2 s.page src s.n.toNat) s
  | topC k1 k2 => exact codecCommand_effect (topCompress k1 k2 s.page s.ovh) s
  | topD k1 k2 => exact codecCommand_effect (topDecompress k1 k2 s.page) s
  | bpHc => exact exec_hcOf_effect .bp s
  | bpHd => exact exec_hdOf_effect .bp s
  | bpC => exact exec_cOf_effect .bp s
  | bpD => exact exec_dOf_effect .bp s
  | fpf128Hc => exact exec_hcOf_effect .fpf128 s
  | fpf128Hd => exact exec_hdOf_effect .fpf128 s
  | fpf128C => exact exec_cOf_effect .fpf128 s
  | fpf128D => exact exec_dOf_effect .fpf128 s
  | fpf256Hc => exact exec_hcOf_effect .fpf256 s
  | fpf256Hd => exact exec_hdOf_effect .fpf256 s
  | fpf256C => exact exec_cOf_effect .fpf256 s
  | fpf256D => exact exec_dOf_effect .fpf256 s
  | npfd9Hc => exact exec_hcOf_effect .npfd9 s
  | npfd9Hd => exact exec_hdOf_effect .npfd9 s
  | npfd9C => exact exec_cOf_effect .npfd9 s
  | npfd9D => exact exec_dOf_effect .npfd9 s
  | npfd16Hc => exact exec_hcOf_effect .npfd16 s
  | npfd16Hd => exact exec_hdOf_effect .npfd16 s
  | npfd16C => exact exec_cOf_effect .npfd16 s
  | npfd16D => exact exec_dOf_effect .npfd16 s
  | opfd9Hc => exact exec_hcOf_effect .opfd9 s
  | opfd9Hd => exact exec_hdOf_effect .opfd9 s
  | opfd9C => exact exec_cOf_effect .opfd9 s
  | opfd9D => exact exec_dOf_effect .opfd9 s
  | opfd16Hc => exact exec_hcOf_effect .opfd16 s
  | opfd16Hd => exact exec_hdOf_effect .opfd16 s
  | opfd16C => exact exec_cOf_effect .opfd16 s
  | opfd16D => exact exec_dOf_effect .opfd16 s
  | s9Hc => exact exec_hcOf_effect .s9 s
  | s9Hd => exact exec_hdOf_effect .s9 s
  | s9C => exact exec_cOf_effect .s9 s
  | s9D => exact exec_dOf_effect .s9 s
  | s16Hc => exact exec_hcOf_effect .s16 s
  | s16Hd => exact exec_hdOf_effect .s16 s
  | s16C => exact exec_cOf_effect .s16 s
  | s16D => exact exec_dOf_effect .s16 s
  | vbHc => exact exec_hcOf_effect .vb s
  | vbHd => exact exec_hdOf_effect .vb s
  | vbC => exact exec_cOf_effect .vb s
  | vbD => exact exec_dOf_effect .vb s

/-- What a command's next state is. -/
theorem exec_cases {i : Instr} {s t : State} (h : exec i s = .next t) : Effect s t := by
  obtain ⟨t', h', e⟩ := exec_effect i s
  rw [h'] at h
  cases h
  exact e

/-- What a step's next state is: a stopped engine keeps its state, a running one does what one command can do. -/
theorem step_effect (s : State) : ∃ t, step s = .next t ∧ (s.status ≠ .running ∧ t = s ∨ s.status = .running ∧ Effect s t) := by
  unfold step
  cases hs : s.status with
  | running =>
    cases hd : decode s.fetchWindow with
    | error r => exact ⟨_, rfl, .inr ⟨rfl, .plainFault _⟩⟩
    | ok p =>
      obtain ⟨t, ht, e⟩ := exec_effect p.1 s
      exact ⟨t, ht, .inr ⟨rfl, e⟩⟩
  | idle => exact ⟨s, rfl, .inl ⟨nofun, rfl⟩⟩
  | halted => exact ⟨s, rfl, .inl ⟨nofun, rfl⟩⟩
  | faulted => exact ⟨s, rfl, .inl ⟨nofun, rfl⟩⟩

/-- What a step's next state is, from the answer. -/
theorem step_cases {s t : State} (h : step s = .next t) : s.status ≠ .running ∧ t = s ∨ s.status = .running ∧ Effect s t := by
  obtain ⟨t', h', e⟩ := step_effect s
  rw [h'] at h
  cases h
  exact e

/-! ## The reader and the fault codes -/

theorem takeWords_ok {n : Nat} {s w rest : List Word} (h : takeWords n s = .ok (w, rest)) : n ≤ s.length ∧ w = s.take n ∧ rest = s.drop n := by
  unfold takeWords at h
  split at h
  · cases h
  · cases h; exact ⟨by omega, rfl, rfl⟩

theorem takeWords_append (w s : List Word) : takeWords w.length (w ++ s) = .ok (w, s) := by
  simp [takeWords]

/-- The codes a fault writes are 1 to 11 (R312). -/
theorem Cause.code_range (c : Cause) : 1 ≤ c.code.toNat ∧ c.code.toNat ≤ 11 := by cases c <;> decide

/-- No two causes share a code (R301 to R311). -/
theorem Cause.code_injective {c d : Cause} (h : c.code = d.code) : c = d := by
  cases c <;> cases d <;> first | rfl | exact absurd h (by decide)

end Sys2Proof.Machine
end

