-- ==== Sys2Proof/Laws/PerInstr.lean ====
section
/-! SUPPORT. The family `Encoding`: what the decoder does with an instruction's own words, one lemma per constructor. -/

namespace Sys2Proof.Laws

/-- The decoder reads a well-formed instruction back from its words, whatever words follow. -/
def Encoding.Statement (i : Instr) : Prop :=
  i.wellFormed = true → ∀ rest : List Word, decode (encode i ++ rest) = .ok (i, rest)

/-- The fields of a command word made of its fields. -/
theorem field_commandWord {opc a b : Nat} (ho : opc < 256) (ha : a < 256) (hb : b < 256) :
    field (commandWord opc a b) 31 24 = opc ∧ field (commandWord opc a b) 23 16 = a ∧
      field (commandWord opc a b) 15 8 = b ∧ field (commandWord opc a b) 7 0 = 0 := by
  simp only [field, commandWord, BitVec.toNat_ofNat]
  norm_num
  omega

/-- What the decoder makes of a command word made of its fields. -/
theorem decodeHead_commandWord {opc a b : Nat} (ho : opc < 256) (ha : a < 256) (hb : b < 256) :
    decodeHead (commandWord opc a b) = decodeFields opc a b 0 := by
  obtain ⟨h1, h2, h3, h4⟩ := field_commandWord ho ha hb
  rw [decodeHead, h1, h2, h3, h4]

/-- A one-word instruction is read back when its head is. -/
theorem decode_whole {w : Word} {i : Instr} (h : decodeHead w = some (.whole i)) (rest : List Word) : decode ([w] ++ rest) = .ok (i, rest) := by
  simp only [List.cons_append, List.nil_append, decode, h]

theorem Reg.index_lt (r : Reg) : r.index < 256 := by cases r <;> decide

theorem Reg.ofIndex_index (r : Reg) : Reg.ofIndex r.index = some r := by cases r <;> rfl

theorem Codec.id_lt (k : Codec) : k.id < 256 := by cases k <;> decide

theorem Codec.ofId_id (k : Codec) : Codec.ofId k.id = some k := by cases k <;> rfl

theorem secondId_lt (k : Option Codec) : secondId k < 256 := by
  cases k with
  | none => decide
  | some k => exact Codec.id_lt k

theorem secondOfId_secondId (k : Option Codec) : secondOfId (secondId k) = some k := by
  cases k with
  | none => rfl
  | some k => cases k <;> rfl

theorem Encoding.set (rd : Reg) (imm : Word) : Encoding.Statement (.set rd imm) := by
  intro _ rest
  have h : decodeHead (Instr.head (.set rd imm)) = some (.setOf rd) := by
    rw [Instr.head, decodeHead_commandWord (by decide) (Reg.index_lt rd) (by decide)]
    simp [decodeFields, Reg.ofIndex_index]
  simp only [encode, List.cons_append, List.nil_append, decode, h]

theorem Encoding.mov (rd rs : Reg) : Encoding.Statement (.mov rd rs) := fun _ rest =>
  decode_whole (by
    rw [Instr.head, decodeHead_commandWord (by decide) (Reg.index_lt rd) (Reg.index_lt rs)]
    simp [decodeFields, Reg.ofIndex_index]) rest

theorem Encoding.pack (b : Nat) : Encoding.Statement (.pack b) := fun hb rest =>
  decode_whole (by
    have hb' : b ≤ 255 := of_decide_eq_true hb
    rw [Instr.head, decodeHead_commandWord (by decide) (by omega) (by decide)]; rfl) rest

theorem Encoding.packu (b : Nat) : Encoding.Statement (.packu b) := fun hb rest =>
  decode_whole (by
    have hb' : b ≤ 255 := of_decide_eq_true hb
    rw [Instr.head, decodeHead_commandWord (by decide) (by omega) (by decide)]; rfl) rest

theorem Encoding.unpack (b : Nat) : Encoding.Statement (.unpack b) := fun hb rest =>
  decode_whole (by
    have hb' : b ≤ 255 := of_decide_eq_true hb
    rw [Instr.head, decodeHead_commandWord (by decide) (by omega) (by decide)]; rfl) rest

theorem Encoding.compC (k1 k2 : Codec) : Encoding.Statement (.compC k1 k2) := fun _ rest =>
  decode_whole (by
    rw [Instr.head, decodeHead_commandWord (by decide) (Codec.id_lt k1) (Codec.id_lt k2)]
    simp [decodeFields, Codec.ofId_id]) rest

theorem Encoding.compD (k1 k2 : Codec) : Encoding.Statement (.compD k1 k2) := fun _ rest =>
  decode_whole (by
    rw [Instr.head, decodeHead_commandWord (by decide) (Codec.id_lt k1) (Codec.id_lt k2)]
    simp [decodeFields, Codec.ofId_id]) rest

theorem Encoding.topC (k1 : Codec) (k2 : Option Codec) : Encoding.Statement (.topC k1 k2) := fun _ rest =>
  decode_whole (by
    rw [Instr.head, decodeHead_commandWord (by decide) (Codec.id_lt k1) (secondId_lt k2)]
    simp [decodeFields, Codec.ofId_id, secondOfId_secondId]) rest

theorem Encoding.topD (k1 : Codec) (k2 : Option Codec) : Encoding.Statement (.topD k1 k2) := fun _ rest =>
  decode_whole (by
    rw [Instr.head, decodeHead_commandWord (by decide) (Codec.id_lt k1) (secondId_lt k2)]
    simp [decodeFields, Codec.ofId_id, secondOfId_secondId]) rest

theorem Encoding.nop : Encoding.Statement .nop := fun _ rest => decode_whole (by decide) rest

theorem Encoding.halt : Encoding.Statement .halt := fun _ rest => decode_whole (by decide) rest

theorem Encoding.bpHc : Encoding.Statement .bpHc := fun _ rest => decode_whole (by decide) rest

theorem Encoding.bpHd : Encoding.Statement .bpHd := fun _ rest => decode_whole (by decide) rest

theorem Encoding.bpC : Encoding.Statement .bpC := fun _ rest => decode_whole (by decide) rest

theorem Encoding.bpD : Encoding.Statement .bpD := fun _ rest => decode_whole (by decide) rest

theorem Encoding.fpf128Hc : Encoding.Statement .fpf128Hc := fun _ rest => decode_whole (by decide) rest

theorem Encoding.fpf128Hd : Encoding.Statement .fpf128Hd := fun _ rest => decode_whole (by decide) rest

theorem Encoding.fpf128C : Encoding.Statement .fpf128C := fun _ rest => decode_whole (by decide) rest

theorem Encoding.fpf128D : Encoding.Statement .fpf128D := fun _ rest => decode_whole (by decide) rest

theorem Encoding.fpf256Hc : Encoding.Statement .fpf256Hc := fun _ rest => decode_whole (by decide) rest

theorem Encoding.fpf256Hd : Encoding.Statement .fpf256Hd := fun _ rest => decode_whole (by decide) rest

theorem Encoding.fpf256C : Encoding.Statement .fpf256C := fun _ rest => decode_whole (by decide) rest

theorem Encoding.fpf256D : Encoding.Statement .fpf256D := fun _ rest => decode_whole (by decide) rest

theorem Encoding.npfd9Hc : Encoding.Statement .npfd9Hc := fun _ rest => decode_whole (by decide) rest

theorem Encoding.npfd9Hd : Encoding.Statement .npfd9Hd := fun _ rest => decode_whole (by decide) rest

theorem Encoding.npfd9C : Encoding.Statement .npfd9C := fun _ rest => decode_whole (by decide) rest

theorem Encoding.npfd9D : Encoding.Statement .npfd9D := fun _ rest => decode_whole (by decide) rest

theorem Encoding.npfd16Hc : Encoding.Statement .npfd16Hc := fun _ rest => decode_whole (by decide) rest

theorem Encoding.npfd16Hd : Encoding.Statement .npfd16Hd := fun _ rest => decode_whole (by decide) rest

theorem Encoding.npfd16C : Encoding.Statement .npfd16C := fun _ rest => decode_whole (by decide) rest

theorem Encoding.npfd16D : Encoding.Statement .npfd16D := fun _ rest => decode_whole (by decide) rest

theorem Encoding.opfd9Hc : Encoding.Statement .opfd9Hc := fun _ rest => decode_whole (by decide) rest

theorem Encoding.opfd9Hd : Encoding.Statement .opfd9Hd := fun _ rest => decode_whole (by decide) rest

theorem Encoding.opfd9C : Encoding.Statement .opfd9C := fun _ rest => decode_whole (by decide) rest

theorem Encoding.opfd9D : Encoding.Statement .opfd9D := fun _ rest => decode_whole (by decide) rest

theorem Encoding.opfd16Hc : Encoding.Statement .opfd16Hc := fun _ rest => decode_whole (by decide) rest

theorem Encoding.opfd16Hd : Encoding.Statement .opfd16Hd := fun _ rest => decode_whole (by decide) rest

theorem Encoding.opfd16C : Encoding.Statement .opfd16C := fun _ rest => decode_whole (by decide) rest

theorem Encoding.opfd16D : Encoding.Statement .opfd16D := fun _ rest => decode_whole (by decide) rest

theorem Encoding.s9Hc : Encoding.Statement .s9Hc := fun _ rest => decode_whole (by decide) rest

theorem Encoding.s9Hd : Encoding.Statement .s9Hd := fun _ rest => decode_whole (by decide) rest

theorem Encoding.s9C : Encoding.Statement .s9C := fun _ rest => decode_whole (by decide) rest

theorem Encoding.s9D : Encoding.Statement .s9D := fun _ rest => decode_whole (by decide) rest

theorem Encoding.s16Hc : Encoding.Statement .s16Hc := fun _ rest => decode_whole (by decide) rest

theorem Encoding.s16Hd : Encoding.Statement .s16Hd := fun _ rest => decode_whole (by decide) rest

theorem Encoding.s16C : Encoding.Statement .s16C := fun _ rest => decode_whole (by decide) rest

theorem Encoding.s16D : Encoding.Statement .s16D := fun _ rest => decode_whole (by decide) rest

theorem Encoding.vbHc : Encoding.Statement .vbHc := fun _ rest => decode_whole (by decide) rest

theorem Encoding.vbHd : Encoding.Statement .vbHd := fun _ rest => decode_whole (by decide) rest

theorem Encoding.vbC : Encoding.Statement .vbC := fun _ rest => decode_whole (by decide) rest

theorem Encoding.vbD : Encoding.Statement .vbD := fun _ rest => decode_whole (by decide) rest

theorem Encoding.s9Est : Encoding.Statement .s9Est := fun _ rest => decode_whole (by decide) rest

theorem Encoding.s16Est : Encoding.Statement .s16Est := fun _ rest => decode_whole (by decide) rest

theorem Encoding.dzEnc : Encoding.Statement .dzEnc := fun _ rest => decode_whole (by decide) rest

theorem Encoding.dzDec : Encoding.Statement .dzDec := fun _ rest => decode_whole (by decide) rest

end Sys2Proof.Laws
end

