-- ==== Sys2Proof/Laws/Streams.lean ====
section
/-! SUPPORT. The readers of the decompress functions: what each does with enough words, with too few, and that it reads its words in sequence. -/

namespace Sys2Proof.Machine

/-- A reader is sequential: an answer depends on the prefix it consumed alone, and on any shorter prefix of that the reader underruns (R306). -/
def Sequential {ε α : Type} (f : List ε → Except Trap (α × List ε)) : Prop :=
  ∀ W x s, f W = .ok (x, s) → ∃ r, r ≤ W.length ∧ s = W.drop r ∧ (∀ Z, f (W.take r ++ Z) = .ok (x, Z)) ∧ ∀ m, m < r → f (W.take m) = .error underrun

/-- One sequential reader after another. -/
theorem Sequential.bind {ε α β : Type} {f : List ε → Except Trap (α × List ε)} {g : α × List ε → Except Trap (β × List ε)}
    (hf : Sequential f) (hg : ∀ x, Sequential fun s => g (x, s)) : Sequential (fun W => f W >>= g) := by
  intro W y s h
  simp only [Bind.bind, Except.bind] at h ⊢
  cases hfw : f W with
  | error t => rw [hfw] at h; cases h
  | ok p =>
    obtain ⟨x, s1⟩ := p
    rw [hfw] at h
    simp only at h
    obtain ⟨r1, hr1, rfl, h1, h1'⟩ := hf W x s1 hfw
    obtain ⟨r2, hr2, rfl, h2, h2'⟩ := hg x _ y s h
    rw [List.length_drop] at hr2
    have split : ∀ k, W.take (r1 + k) = W.take r1 ++ (W.drop r1).take k := fun k => by rw [List.take_add]
    refine ⟨r1 + r2, by omega, by rw [List.drop_drop], fun Z => ?_, fun m hm => ?_⟩
    · rw [split, List.append_assoc, h1]; exact h2 Z
    · by_cases hm1 : m < r1
      · rw [h1' m hm1]
      · obtain ⟨k, rfl⟩ := Nat.exists_eq_add_of_le (Nat.not_lt.mp hm1)
        rw [split, h1]; exact h2' k (by omega)

/-- A reader that takes nothing. -/
theorem Sequential.pure {ε α : Type} (x : α) : Sequential (fun W : List ε => .ok (x, W)) := by
  intro W y s h; cases h
  exact ⟨0, Nat.zero_le _, by simp, fun Z => by simp, fun m hm => by omega⟩

/-- A reader that always faults. -/
theorem Sequential.error {ε α : Type} (t : Trap) : Sequential (fun _ : List ε => (.error t : Except Trap (α × List ε))) := by
  intro W y s h; cases h

/-- `take(n)` is sequential. -/
theorem Sequential.takeWords (n : Nat) : Sequential (takeWords n) := by
  intro W x s h
  obtain ⟨hl, rfl, rfl⟩ := takeWords_ok h
  refine ⟨n, hl, rfl, fun Z => ?_, fun m hm => ?_⟩
  · have := takeWords_append (W.take n) Z; rwa [List.length_take, Nat.min_eq_left hl] at this
  · simp [Machine.takeWords]; omega

/-- `get()` is sequential. -/
theorem Sequential.getWord : Sequential getWord := by
  intro W x s h
  cases W with
  | nil => cases h
  | cons a W => cases h; exact ⟨1, by simp, rfl, fun Z => rfl, fun m hm => by obtain rfl : m = 0 := by omega
                                                                              rfl⟩

/-- A check between two readers. -/
theorem Sequential.ite {ε α : Type} {c : Prop} {_ : Decidable c} {f g : List ε → Except Trap (α × List ε)} (hf : Sequential f) (hg : Sequential g) :
    Sequential (fun W => if c then f W else g W) := by split <;> assumption

/-- Packed sub-blocks are read in sequence. -/
theorem Sequential.unpackBlocks (b k : Nat) : Sequential (unpackBlocks b k) := by
  induction k with
  | zero => exact .pure _
  | succ k ih => exact (Sequential.takeWords b).bind fun _ => ih.bind fun _ => .pure _

/-- BinaryPacking's groups are read in sequence (R140). -/
theorem Sequential.bpGroups (k : Nat) : Sequential (bpGroups k) := by
  induction k with
  | zero => exact .pure _
  | succ k ih =>
    exact Sequential.getWord.bind fun H => .ite (.error _) <| (Sequential.takeWords _).bind fun _ => (Sequential.takeWords _).bind fun _ =>
      (Sequential.takeWords _).bind fun _ => (Sequential.takeWords _).bind fun _ => ih.bind fun _ => .pure _

/-- BinaryPacking's single blocks are read in sequence (R140). -/
theorem Sequential.bpSingles (k : Nat) : Sequential (bpSingles k) := by
  induction k with
  | zero => exact .pure _
  | succ k ih => exact Sequential.getWord.bind fun H => .ite (.error _) <| (Sequential.takeWords _).bind fun _ => ih.bind fun _ => .pure _

/-- The buckets of a FastPFOR page are read in sequence (R173). -/
theorem Sequential.readBuckets (bm left k : Nat) : Sequential (readBuckets bm left k) := by
  induction left generalizing k with
  | zero => exact .pure _
  | succ left ih =>
    exact .ite ((ih _).bind fun _ => .pure _)
      (Sequential.getWord.bind fun _ => .ite (.error _) <| (Sequential.unpackBlocks _ _).bind fun _ => (ih _).bind fun _ => .pure _)

/-- The same of a codec function, which answers how many words it took. -/
def SequentialCodec (f : List Word → CodecResult) : Prop :=
  ∀ W r out, f W = .ok (r, out) → r ≤ W.length ∧ (∀ X, f (W.take r ++ X) = .ok (r, out)) ∧ ∀ m, m < r → f (W.take m) = .error underrun

/-- A sequential codec function as a reader. -/
theorem SequentialCodec.toSeq {f : List Word → CodecResult} (hf : SequentialCodec f) : Sequential (fun W => f W >>= fun p => .ok (p.2, W.drop p.1)) := by
  intro W x s h
  simp only [Bind.bind, Except.bind] at h ⊢
  cases hfw : f W with
  | error t => rw [hfw] at h; cases h
  | ok p =>
    obtain ⟨r, out⟩ := p
    rw [hfw] at h
    simp only at h
    obtain ⟨rfl, rfl⟩ : out = x ∧ W.drop r = s := by simpa using h
    obtain ⟨a, b, c⟩ := hf W r out hfw
    refine ⟨r, a, rfl, fun Z => ?_, fun m hm => ?_⟩
    · rw [b]; simp [a]
    · rw [c m hm]

/-- The selector codecs read their words in sequence (R225). -/
theorem selectorDecompress_seq (T : Layouts) (n : Nat) : SequentialCodec (fun W => selectorDecompress T W n) := by
  intro W
  induction W generalizing n with
  | nil =>
    intro r out h
    cases n with
    | zero => simp [selectorDecompress] at h; obtain ⟨rfl, rfl⟩ := h; simp [selectorDecompress]
    | succ n => cases h
  | cons w W ih =>
    intro r out h
    cases n with
    | zero => simp [selectorDecompress] at h; obtain ⟨rfl, rfl⟩ := h; simp [selectorDecompress]
    | succ n =>
      simp only [selectorDecompress] at h
      cases hT : T[w.toNat / 2 ^ 28]? with
      | none => rw [hT] at h; cases h
      | some l =>
        rw [hT] at h
        simp only [Bind.bind, Except.bind] at h
        cases hr : selectorDecompress T W (n + 1 - l.length) with
        | error t => rw [hr] at h; cases h
        | ok p =>
          obtain ⟨r1, o1⟩ := p
          rw [hr] at h
          simp only [Pure.pure, Except.pure, Except.ok.injEq, Prod.mk.injEq] at h
          obtain ⟨rfl, rfl⟩ := h
          obtain ⟨a, b, c⟩ := ih _ _ _ hr
          simp only at b c
          refine ⟨by simpa using a, fun X => ?_, fun m hm => ?_⟩
          · simp only [List.take_succ_cons, List.cons_append, selectorDecompress, hT, b, Bind.bind, Except.bind, Pure.pure, Except.pure]
          · cases m with
            | zero => rfl
            | succ m => simp only [List.take_succ_cons, selectorDecompress, hT, c m (by omega), Bind.bind, Except.bind]

/-- The exceptions of a NewPFD or OptPFD block are read in sequence (R187). -/
theorem Sequential.pfdExceptions (T : Layouts) (e : Nat) : Sequential (pfdExceptions T e) := by
  have := (selectorDecompress_seq T (2 * e)).toSeq.bind (g := fun p => .ok ((p.1.take e).zip (p.1.drop e), p.2)) fun X => Sequential.pure ((X.take e).zip (X.drop e))
  have h2 : Machine.pfdExceptions T e = fun s => if e = 0 then .ok ([], s) else _ := rfl
  rw [h2]
  apply Sequential.ite (.pure _)
  convert this using 2 with W
  cases selectorDecompress T W (2 * e) <;> simp [Bind.bind, Except.bind, Pure.pure, Except.pure]

/-- A step that reads nothing, before a reader. -/
theorem Sequential.lift {α β : Type} (r : Except Trap α) {g : α → List Word → Except Trap (β × List Word)} (hg : ∀ x, Sequential (g x)) :
    Sequential (fun W => r >>= fun x => g x W) := by
  cases r with
  | error t => exact .error t
  | ok x => exact hg x

/-- NewPFD and OptPFD blocks are read in sequence (R187). -/
theorem Sequential.pfdReadBlocks (T : Layouts) (k : Nat) : Sequential (pfdReadBlocks T k) := by
  induction k with
  | zero => exact .pure _
  | succ k ih =>
    refine Sequential.getWord.bind fun H => .ite (.error _) <| (Sequential.pfdExceptions T _).bind fun _ => (Sequential.unpackBlocks _ _).bind fun _ =>
      .lift _ fun _ => ih.bind fun _ => .pure _

/-- `take(n)` with fewer words left. -/
theorem takeWords_short {n : Nat} {s : List Word} (h : s.length < n) : takeWords n s = .error underrun := by simp [takeWords, h]

/-- `take(n)` with enough words left. -/
theorem takeWords_enough {n : Nat} {s : List Word} (h : n ≤ s.length) : takeWords n s = .ok (s.take n, s.drop n) := by
  simp [takeWords, Nat.not_lt.mpr h]

/-- Packed sub-blocks with fewer words left than they take. -/
theorem unpackBlocks_short {b : Nat} (k : Nat) {s : List Word} (h : s.length < k * b) : unpackBlocks b k s = .error underrun := by
  induction k generalizing s with
  | zero => omega
  | succ k ih =>
    rw [unpackBlocks]
    by_cases hb : s.length < b
    · rw [takeWords_short hb]; rfl
    · rw [takeWords_enough (by omega)]
      have : (s.drop b).length < k * b := by simp only [List.length_drop]; rw [Nat.succ_mul] at h; omega
      simp only [Bind.bind, Except.bind, ih this]

/-- Packed sub-blocks with enough words left. -/
theorem unpackBlocks_enough {b : Nat} (k : Nat) {s : List Word} (h : k * b ≤ s.length) :
    ∃ U, U.length = 32 * k ∧ unpackBlocks b k s = .ok (U, s.drop (k * b)) := by
  induction k generalizing s with
  | zero => exact ⟨[], rfl, by simp [unpackBlocks]⟩
  | succ k ih =>
    rw [Nat.succ_mul] at h
    obtain ⟨U, hU, he⟩ := ih (s := s.drop b) (by simp only [List.length_drop]; omega)
    refine ⟨unpack b (s.take b) ++ U, by simp [hU]; omega, ?_⟩
    rw [unpackBlocks, takeWords_enough (by omega)]
    simp only [Bind.bind, Except.bind, he, Pure.pure, Except.pure, List.drop_drop]
    congr 3; ring

/-- `nextbyte()` past the end of the byte container (R173). -/
theorem nextBytes_short {k : Nat} {bs : List Byte} (h : bs.length < k) : nextBytes k bs = .error malformed := by
  induction k generalizing bs with
  | zero => omega
  | succ k ih =>
    cases bs with
    | nil => rfl
    | cons b bs =>
      simp only [List.length_cons] at h
      simp [nextBytes, nextByte, Bind.bind, Except.bind, ih (by omega : bs.length < k)]

/-- `nextbyte()` inside the byte container (R173). -/
theorem nextBytes_append (pos rest : List Byte) : nextBytes pos.length (pos ++ rest) = .ok (pos, rest) := by
  induction pos with
  | nil => rfl
  | cons b bs ih => simp [nextBytes, nextByte, Bind.bind, Except.bind, Pure.pure, Except.pure, ih]

/-- The patch loop with a position outside the block or too few values in its bucket (R173). -/
theorem patchBlock_bad {bs b k : Nat} (ps : List Byte) (U : List Word) (ex : List (List Word))
    (h : (∃ p ∈ ps, bs ≤ p.toNat) ∨ (ex.getD (k - 1) []).length < ps.length) : patchBlock bs b k ps U ex = .error malformed := by
  induction ps generalizing U ex with
  | nil => simp at h
  | cons p ps ih =>
    rw [patchBlock]
    split
    · rfl
    · rename_i hp
      split
      · rfl
      · rename_i hd tl he
        apply ih
        rcases h with ⟨q, hq, hb⟩ | h
        · rcases List.mem_cons.mp hq with rfl | hq
          · omega
          · exact .inl ⟨q, hq, hb⟩
        · right
          have he' : ex.getD (k-1) [] = hd :: tl := by simpa [List.getD] using he
          have hk : k - 1 < ex.length := by
            by_contra hc
            simp [List.getD, List.getElem?_eq_none (Nat.not_lt.mp hc)] at he'
          rw [he'] at h
          simp only [List.length_cons] at h
          simp [List.getD, List.getElem?_set_self hk]
          omega

/-- Patching keeps the length of a block (R168). -/
theorem patch_length (b p : Nat) (U : List Word) (h : Word) : (patch b U p h).length = U.length := by simp [patch]

/-- The patch loop otherwise: the bucket's read pointer has moved past the values used (R173). -/
theorem patchBlock_good {bs b k : Nat} (ps : List Byte) (U : List Word) (ex : List (List Word))
    (h : ∀ p ∈ ps, p.toNat < bs) (hl : ps.length ≤ (ex.getD (k - 1) []).length) :
    ∃ U', U'.length = U.length ∧ patchBlock bs b k ps U ex = .ok (U', ex.modify (k - 1) (List.drop ps.length)) := by
  induction ps generalizing U ex with
  | nil =>
    refine ⟨U, rfl, ?_⟩
    have : ex.modify (k - 1) (List.drop 0) = ex := by
      apply List.ext_getElem?; intro i; rw [List.getElem?_modify]; cases ex[i]? <;> simp
    simp only [patchBlock, List.length_nil, this]
  | cons p ps ih =>
    rw [patchBlock]
    have hp := h p (by simp)
    simp only [Nat.not_le.mpr hp, if_false]
    split
    · rename_i he
      have : ex.getD (k-1) [] = [] := by simpa [List.getD] using he
      rw [this] at hl; simp at hl
    · rename_i hd tl he
      have he' : ex.getD (k-1) [] = hd :: tl := by simpa [List.getD] using he
      have hk : k - 1 < ex.length := by
        by_contra hc
        simp [List.getD, List.getElem?_eq_none (Nat.not_lt.mp hc)] at he'
      rw [he'] at hl
      simp only [List.length_cons] at hl
      obtain ⟨U', hU, hr⟩ := ih (patch b U p.toNat hd) (ex.set (k-1) tl) (fun q hq => h q (by simp [hq])) (by
        simp [List.getD, List.getElem?_set_self hk]; omega)
      refine ⟨U', by rw [hU, patch_length], ?_⟩
      rw [hr]
      congr 2
      have hx : ex[k-1] = hd :: tl := by simpa [List.getD, List.getElem?_eq_getElem hk] using he'
      apply List.ext_getElem?
      intro i
      simp only [List.getElem?_modify, List.getElem?_set]
      by_cases hi : k - 1 = i
      · subst hi; simp [hk, hx]
      · simp [hi]

/-- The exceptions of a block, when its bytes are there and legal (R173). -/
theorem readExceptions_good {b m e : Nat} {mb : Byte} {pos rest bytes : List Byte} (hm : mb.toNat = m)
    (h : (e = 0 ∧ m = b ∧ pos = [] ∧ rest = bytes) ∨ (e ≠ 0 ∧ bytes = mb :: (pos ++ rest) ∧ pos.length = e ∧ b < m ∧ m ≤ 32)) :
    readExceptions b e bytes = .ok (m, pos, rest) := by
  rcases h with ⟨rfl, rfl, rfl, rfl⟩ | ⟨he, rfl, rfl, h1, h2⟩
  · simp [readExceptions]
  · simp only [readExceptions, he, if_false, nextByte, Bind.bind, Except.bind, hm, h1, h2, and_self, not_true_eq_false, nextBytes_append, Pure.pure, Except.pure]

/-- A VariableByte value is read byte by byte in sequence (R268). -/
theorem Sequential.vbValue (k v : Nat) : Sequential (vbValue k v) := by
  intro W
  induction W generalizing k v with
  | nil => intro x s h; rw [Machine.vbValue] at h; split at h <;> cases h
  | cons c W ih =>
    intro x s h
    rw [Machine.vbValue] at h
    split at h
    · cases h
    rename_i hk
    simp only at h
    split at h
    · rename_i hc
      cases h
      refine ⟨1, by simp, rfl, fun Z => ?_, fun m hm => ?_⟩
      · rw [List.take_succ_cons, List.cons_append, Machine.vbValue, if_neg hk]; simp only; rw [if_pos hc]; simp
      · obtain rfl : m = 0 := by omega
        rw [List.take_zero, Machine.vbValue, if_neg hk]
    · rename_i hc
      obtain ⟨r, a, b, d, e⟩ := ih _ _ _ _ h
      refine ⟨r + 1, by simpa using a, b, fun Z => ?_, fun m hm => ?_⟩
      · rw [List.take_succ_cons, List.cons_append, Machine.vbValue, if_neg hk]; simp only; rw [if_neg hc, d]
      · cases m with
        | zero => rw [List.take_zero, Machine.vbValue, if_neg hk]
        | succ m => rw [List.take_succ_cons, Machine.vbValue, if_neg hk]; simp only; rw [if_neg hc, e m (by omega)]

/-- A VariableByte value is read byte by byte in sequence (R268). -/
theorem Sequential.vbValues (n : Nat) : Sequential (vbValues n) := by
  induction n with
  | zero => exact .pure _
  | succ n ih => exact (Sequential.vbValue 0 0).bind fun v => ih.bind (g := fun q => .ok (v :: q.1, q.2)) fun vs => Sequential.pure (v :: vs)

/-- Four bytes a word. -/
theorem bytesOfWords_length (W : List Word) : (bytesOfWords W).length = 4 * W.length := by
  induction W with
  | nil => rfl
  | cons w W ih => simp [bytesOfWords] at ih ⊢; omega

/-- The bytes of words in sequence. -/
theorem bytesOfWords_append (W X : List Word) : bytesOfWords (W ++ X) = bytesOfWords W ++ bytesOfWords X := by simp [bytesOfWords]

/-- The bytes of a prefix. -/
theorem bytesOfWords_take (W : List Word) (r : Nat) : bytesOfWords (W.take r) = (bytesOfWords W).take (4 * r) := by
  by_cases hr : r ≤ W.length
  · have h := bytesOfWords_append (W.take r) (W.drop r)
    rw [List.take_append_drop] at h
    rw [h, List.take_left' (by rw [bytesOfWords_length]; simp; omega)]
  · rw [List.take_of_length_le (by omega), List.take_of_length_le (by rw [bytesOfWords_length]; omega)]

end Sys2Proof.Machine
end

