-- ==== Sys2Proof/Tests/Slice0.lean ====
section
/-! SUPPORT. Tests of the model (expected values from spec/95_test_vectors.md and the rules' own examples), and for every statement with hypotheses a state
and operands that meet them (theorems `test_witness_…`). -/

namespace Sys2Proof.Tests

open Sys2Proof Sys2Proof.Machine

/-! ## Helpers -/

/-- A list of words from numbers. -/
def ws (l : List Nat) : List Word := l.map (BitVec.ofNat 32)

/-- A stopped engine with `src` at address 0 as its source view and the `cap` words after it as its destination view. -/
def viewed (src : List Nat) (cap : Nat) : State :=
  { State.resetOf (src.length + cap) with
    mem := cellsOf 0 (ws src)
    se := BitVec.ofNat 32 src.length
    dp := BitVec.ofNat 32 src.length
    de := BitVec.ofNat 32 (src.length + cap) }

/-- A running engine of 64 words with `code` at address 0 and `data` at address 32. -/
def running (code data : List Nat) : State :=
  { State.resetOf 64 with mem := cellsOf 0 (ws code) ++ cellsOf 32 (ws data), status := .running }

/-- `RC` and the words written, of a data command that committed. -/
def answers : Result → Option (Nat × List Word)
  | .next t => if t.status = .faulted then none else some (t.rc.toNat, t.memRead (t.dp.toNat - t.wc.toNat) t.wc.toNat)
  | .fault _ => none
  | .refused _ => none

/-- `CAUSE` and `FINFO`, of a step or command that faulted. -/
def faults : Result → Option (Nat × Nat)
  | .next t => if t.status = .faulted then some (t.cause.toNat, t.finfo.toNat) else none
  | .fault _ => none
  | .refused _ => none

/-- A property of the next state. -/
def nextHas (r : Result) (p : State → Bool) : Bool :=
  match r with
  | .next t => p t
  | .fault _ => false
  | .refused _ => false

/-! ## WellFormed: each check refuses an ill-formed term -/

theorem test_wellFormed_pack : (Instr.pack 256).wellFormed = false ∧ (Instr.pack 255).wellFormed = true := by decide
theorem test_wellFormed_packu : (Instr.packu 256).wellFormed = false ∧ (Instr.packu 33).wellFormed = true := by decide
theorem test_wellFormed_unpack : (Instr.unpack 256).wellFormed = false ∧ (Instr.unpack 0).wellFormed = true := by decide

/-! ## Decode: the words of each rule, written out from "Encoding:" in files 40 to 47 -/

/-- 40_sequencer.md R91 to R94. -/
theorem test_decode_sequencer :
    decode [0x00000000] = .ok (.nop, []) ∧ decode [0x01000000] = .ok (.halt, []) ∧
    decode [0x02070000, 0x00000005] = .ok (.set .zp 5, []) ∧ decode [0x03010200] = .ok (.mov .se .dp, []) := by decide

/-- 30_encoding.md R64: the ten register indices, in `A` and in `B`. -/
theorem test_decode_registers :
    [0x03000100, 0x03010200, 0x03020300, 0x03030400, 0x03040500, 0x03050600, 0x03060700, 0x03070800, 0x03080900, 0x03090000].map (fun w => decode [w])
      = [(Reg.sp, Reg.se), (.se, .dp), (.dp, .de), (.de, .n), (.n, .rc), (.rc, .wc), (.wc, .zp), (.zp, .page), (.page, .ovh), (.ovh, .sp)].map
          (fun p => .ok (.mov p.1 p.2, [])) := by decide

/-- 41_bitprimitives.md R113 to R115. -/
theorem test_decode_bitprimitives :
    decode [0x10050000] = .ok (.pack 5, []) ∧ decode [0x11FF0000] = .ok (.packu 255, []) ∧ decode [0x12280000] = .ok (.unpack 40, []) := by decide

/-- 30_encoding.md R62, R63: opcode `0x20`, ids 0 to 9. -/
theorem test_decode_headless_compress :
    [0x20000000, 0x20010000, 0x20020000, 0x20030000, 0x20040000, 0x20050000, 0x20060000, 0x20070000, 0x20080000, 0x20090000].map (fun w => decode [w])
      = [Instr.bpHc, .fpf128Hc, .fpf256Hc, .npfd9Hc, .npfd16Hc, .opfd9Hc, .opfd16Hc, .s9Hc, .s16Hc, .vbHc].map (fun i => .ok (i, [])) := by decide

/-- Opcode `0x21`. -/
theorem test_decode_headless_decompress :
    [0x21000000, 0x21010000, 0x21020000, 0x21030000, 0x21040000, 0x21050000, 0x21060000, 0x21070000, 0x21080000, 0x21090000].map (fun w => decode [w])
      = [Instr.bpHd, .fpf128Hd, .fpf256Hd, .npfd9Hd, .npfd16Hd, .opfd9Hd, .opfd16Hd, .s9Hd, .s16Hd, .vbHd].map (fun i => .ok (i, [])) := by decide

/-- Opcode `0x22`. -/
theorem test_decode_headed_compress :
    [0x22000000, 0x22010000, 0x22020000, 0x22030000, 0x22040000, 0x22050000, 0x22060000, 0x22070000, 0x22080000, 0x22090000].map (fun w => decode [w])
      = [Instr.bpC, .fpf128C, .fpf256C, .npfd9C, .npfd16C, .opfd9C, .opfd16C, .s9C, .s16C, .vbC].map (fun i => .ok (i, [])) := by decide

/-- Opcode `0x23`. -/
theorem test_decode_headed_decompress :
    [0x23000000, 0x23010000, 0x23020000, 0x23030000, 0x23040000, 0x23050000, 0x23060000, 0x23070000, 0x23080000, 0x23090000].map (fun w => decode [w])
      = [Instr.bpD, .fpf128D, .fpf256D, .npfd9D, .npfd16D, .opfd9D, .opfd16D, .s9D, .s16D, .vbD].map (fun i => .ok (i, [])) := by decide

/-- 44_selectorcodec.md R231, R236; 47_composition.md R282, R283, R286, R287; 45_deltazigzag.md R252, R253. -/
theorem test_decode_others :
    decode [0x24070000] = .ok (.s9Est, []) ∧ decode [0x24080000] = .ok (.s16Est, []) ∧
    decode [0x28000900] = .ok (.compC .bp .vb, []) ∧ decode [0x29070900] = .ok (.compD .s9 .vb, []) ∧
    decode [0x2A000900] = .ok (.topC .bp (some .vb), []) ∧ decode [0x2B090F00] = .ok (.topD .vb none, []) ∧
    decode [0x30000000] = .ok (.dzEnc, []) ∧ decode [0x31000000] = .ok (.dzDec, []) := by decide

/-- 95_test_vectors.md X11: illegal words, the first half. -/
theorem test_decode_illegal_1 :
    [0x00000001, 0x01000100, 0x020A0000, 0x02000100, 0x03000A00, 0x030A0000, 0x10050001, 0x200A0000, 0x200F0000, 0x20000100, 0x24090000].all
      (fun w : Word => decide (decode [w, 0] = .error (.illegal w))) = true := by decide

/-- X11, the second half. -/
theorem test_decode_illegal_2 :
    [0x24000000, 0x28000F00, 0x2A000A00, 0x2A0F0000, 0x30010000, 0x04000000, 0x13000000, 0x25000000, 0x2C000000, 0x32000000, 0xFF000000].all
      (fun w : Word => decide (decode [w, 0] = .error (.illegal w))) = true := by decide

/-- The encoder against written-out words. -/
theorem test_encode :
    encode (.set .zp 5) = [0x02070000, 5] ∧ encode (.mov .se .dp) = [0x03010200] ∧ encode (.unpack 40) = [0x12280000] ∧
    encode .opfd16D = [0x23060000] ∧ encode (.topC .bp (some .vb)) = [0x2A000900] ∧ encode (.topD .vb none) = [0x2B090F00] := by decide

/-- A row's word read by `decodeTableWord`, `SET` with its operand word above bit 31. -/
theorem test_decodeTableWord :
    decodeTableWord 32 0x30000000 = some .dzEnc ∧ decodeTableWord 64 0x0000000502070000 = some (.set .zp 5) ∧
    decodeTableWord 32 0x02070000 = some (.set .zp 0) ∧ decodeTableWord 32 0x00000001 = none := by decide

/-- The step after `withFetchWord` runs that instruction. -/
theorem test_withFetchWord :
    nextHas (step (State.reset.withFetchWord 64 0x0000000502070000)) (fun t => decide (t.zp = 5 ∧ t.cp = 2 ∧ t.status = .running)) = true := by decide

/-! ## Sequencer and fetch: 95_test_vectors.md section 2.1 -/

theorem test_nop_Q1 : nextHas (exec .nop { State.resetOf 64 with cp := 5 }) (fun t => decide (t = { State.resetOf 64 with cp := 6 })) = true := by decide
theorem test_halt_Q2 : nextHas (exec .halt { State.resetOf 64 with cp := 9, status := .running }) (fun t => decide (t.status = .halted ∧ t.cp = 9)) = true := by
  decide
theorem test_set_Q3 : nextHas (step (running [0x02070000, 5] [])) (fun t => decide (t.zp = 5 ∧ t.cp = 2)) = true := by decide
theorem test_mov_Q4 : nextHas (step { running [0x03010200] [] with dp := 77 }) (fun t => decide (t.se = 77 ∧ t.dp = 77 ∧ t.cp = 1)) = true := by decide
theorem test_fetch_immediate_Q7 :
    faults (step { State.resetOf 64 with mem := cellsOf 63 [0x02000000], cp := 63, status := .running }) = some (2, 0x40) := by decide
theorem test_fetch_command_Q8 : faults (step { State.resetOf 64 with cp := 1000, status := .running }) = some (2, 0x3E8) := by decide
theorem test_illegal_X11 : faults (step (running [0x2A0F0000] [])) = some (1, 0x2A0F0000) := by decide

/-! ## BitPrimitives: section 2.2 -/

/-- B1. -/
theorem test_pack_B1 : answers (exec (.pack 3) (viewed ((List.range 32).map (· % 8)) 3)) = some (32, ws [0x88FAC688, 0xC688FAC6, 0xFAC688FA]) := by decide
/-- B6: lane 6 straddles words 0 and 1. -/
theorem test_pack_B6 : pack 5 (ws (List.replicate 6 0 ++ 0x1F :: List.replicate 25 0)) = ws [0xC0000000, 7, 0, 0, 0] := by decide
/-- B3 by `PACKU`. -/
theorem test_packu_B3 : answers (exec (.packu 1) (viewed ((List.range 32).map (· % 2)) 1)) = some (32, ws [0xAAAAAAAA]) := by decide
/-- B2 reversed. -/
theorem test_unpack_B2 :
    answers (exec (.unpack 5) (viewed [0x8A418820, 0xC5A92839, 0xCA307B9A, 0x38BDAB49, 0xFFBBCDEB] 32)) = some (5, ws (List.range 32)) := by decide
/-- B9. -/
theorem test_unpack_B9 : answers (exec (.unpack 0) (viewed [] 32)) = some (0, List.replicate 32 0) := by decide

/-! ## BinaryPacking: section 2.3 -/

/-- P1v. -/
theorem test_bpHc_P1v :
    answers (exec .bpHc (viewed (List.range 50) 6)) = some (32, ws [5, 0x8A418820, 0xC5A92839, 0xCA307B9A, 0x38BDAB49, 0xFFBBCDEB]) := by decide
/-- P9v: a group header and three single headers. -/
theorem test_bpHc_P9v :
    bpCompress (ws (List.replicate 224 1)) =
      .ok (224, ws [0x01010101, 0xFFFFFFFF, 0xFFFFFFFF, 0xFFFFFFFF, 0xFFFFFFFF, 1, 0xFFFFFFFF, 1, 0xFFFFFFFF, 1, 0xFFFFFFFF]) := by decide +kernel
/-- P11v: `N` = 50 rounds down. -/
theorem test_bpHd_P11v :
    answers (exec .bpHd { viewed [5, 0x8A418820, 0xC5A92839, 0xCA307B9A, 0x38BDAB49, 0xFFBBCDEB] 32 with n := 50 }) = some (6, ws (List.range 32)) := by decide
/-- P2v. -/
theorem test_bpC_P2v :
    answers (exec .bpC (viewed (List.range 50) 7)) = some (32, ws [0x20, 5, 0x8A418820, 0xC5A92839, 0xCA307B9A, 0x38BDAB49, 0xFFBBCDEB]) := by decide
/-- P4v. -/
theorem test_bpD_P4v :
    answers (exec .bpD (viewed [0x20, 5, 0x8A418820, 0xC5A92839, 0xCA307B9A, 0x38BDAB49, 0xFFBBCDEB] 32)) = some (7, ws (List.range 32)) := by decide
/-- X14: the second width byte is 33. -/
theorem test_bpHd_X14 : bpDecompress (ws [0x05052105, 0]) 128 = .error malformed := by decide

/-! ## Patched codecs: section 2.4 -/

/-- Block E. -/
def blockE : List Nat := (List.range 128).map fun i => if i = 5 then 0x12345 else i % 16

/-- Its sixteen data words. -/
def dataE : List Nat := (List.replicate 8 [0x76543210, 0xFEDCBA98]).flatten

/-- The words of F1. -/
def pageE : List Nat := [0x11] ++ dataE ++ [4, 0x05110104, 0x1000, 1, 0x1234] ++ List.replicate 12 0

/-- Block G. -/
def blockG : List Nat := (List.range 128).map fun i => if i = 0 then 0x3FF else if i ≤ 20 then 0x100 + i else i % 4

/-- F1. -/
theorem test_fpf128Hc_F1 : headlessCompress .fpf128 65536 8 (ws blockE) = .ok (128, ws pageE) := by decide +kernel
/-- F2. -/
theorem test_fpf128Hd_F2 : headlessDecompress .fpf128 65536 (ws pageE) 128 = .ok (34, ws blockE) := by decide +kernel
/-- F4. -/
theorem test_fpf256Hc_F4 :
    headlessCompress .fpf256 65536 8 (ws (blockE ++ List.replicate 128 0)) =
      .ok (256, ws ([0x21] ++ dataE ++ List.replicate 16 0 ++ [4, 0x05110104, 0x1000, 1, 0x1234] ++ List.replicate 12 0)) := by decide +kernel
/-- F4 reversed. -/
theorem test_fpf256Hd_F4 :
    headlessDecompress .fpf256 65536 (ws ([0x21] ++ dataE ++ List.replicate 16 0 ++ [4, 0x05110104, 0x1000, 1, 0x1234] ++ List.replicate 12 0)) 256 =
      .ok (50, ws (blockE ++ List.replicate 128 0)) := by decide +kernel
/-- F5. -/
theorem test_npfd9Hc_F5 : headlessCompress .npfd9 65536 8 (ws blockE) = .ok (128, ws ([0x00110104, 0x748D0005] ++ dataE)) := by decide +kernel
/-- F6. -/
theorem test_npfd16Hc_F6 : headlessCompress .npfd16 65536 8 (ws blockE) = .ok (128, ws ([0x00110104, 0xE48D0005] ++ dataE)) := by decide +kernel
/-- G3. -/
theorem test_opfd9Hc_G3 :
    headlessCompress .opfd9 65536 8 (ws blockG) =
      .ok (128, ws ([0x000A1502, 0x36543210, 0x3DCBA987, 0x4128C1EE, 0x63FC2813, 0x58302040, 0x585060C1, 0x5870A142, 0x5890E1C3, 0x58B12244, 0xE4E4E4E7]
        ++ List.replicate 7 0xE4E4E4E4)) := by decide +kernel
/-- G4. -/
theorem test_opfd16Hc_G4 :
    headlessCompress .opfd16 65536 8 (ws blockG) =
      .ok (128, ws ([0x000A1502, 0x6FAA1908, 0x7EDCBA98, 0xA9C9140F, 0xD203FC14, 0xC8306040, 0xC850A0C1, 0xC870E142, 0xC89121C3, 0xC0116244, 0xE4E4E4E7]
        ++ List.replicate 7 0xE4E4E4E4)) := by decide +kernel
/-- G3 reversed, by the codec of either search. -/
theorem test_pfd9Hd_G3 :
    headlessDecompress .npfd9 65536 (ws ([0x000A1502, 0x36543210, 0x3DCBA987, 0x4128C1EE, 0x63FC2813, 0x58302040, 0x585060C1, 0x5870A142, 0x5890E1C3, 0x58B12244,
      0xE4E4E4E7] ++ List.replicate 7 0xE4E4E4E4)) 128 = .ok (18, ws blockG) := by decide +kernel
/-- G4 reversed. -/
theorem test_pfd16Hd_G4 :
    headlessDecompress .opfd16 65536 (ws ([0x000A1502, 0x6FAA1908, 0x7EDCBA98, 0xA9C9140F, 0xD203FC14, 0xC8306040, 0xC850A0C1, 0xC870E142, 0xC89121C3, 0xC0116244,
      0xE4E4E4E7] ++ List.replicate 7 0xE4E4E4E4)) 128 = .ok (18, ws blockG) := by decide +kernel
/-- X20. -/
theorem test_fpf128Hc_X20 : headlessCompress .fpf128 100 8 (ws blockE) = .error ⟨.badConfig, 100⟩ := by decide
/-- X21. -/
theorem test_fpf128Hc_X21 : faults (exec .fpf128Hc { viewed [] 0 with page := 0 }) = some (10, 0) := by decide
/-- Y4. -/
theorem test_fpf256D_Y4 : answers (exec .fpf256D { viewed [] 0 with page := 0 }) = some (0, []) := by decide

/-! ## Selector codecs: section 2.5 -/

/-- S5. -/
theorem test_s9Hc_S5 :
    selectorCompress simple9 (ws (List.replicate 28 1 ++ List.replicate 14 3 ++ [100, 200, 300, 0xFFFFFFF])) =
      .ok (46, ws [0x0FFFFFFF, 0x1FFFFFFF, 0x64B19064, 0x8FFFFFFF]) := by decide +kernel
/-- S3. -/
theorem test_s9Hc_S3 : answers (exec .s9Hc (viewed [1, 2, 3, 4, 5, 6, 7] 1)) = some (7, ws [0x201F58D1]) := by decide
/-- S8. -/
theorem test_s9Hd_S8 : answers (exec .s9Hd { viewed [0x201F58D1] 9 with n := 9 }) = some (1, ws [1, 2, 3, 4, 5, 6, 7, 0, 0]) := by decide
/-- S22. -/
theorem test_s9Hd_S22 : faults (exec .s9Hd { viewed [0x90000000] 0 with n := 1 }) = some (9, 0) := by decide
/-- S12. -/
theorem test_s16Hc_S12 : answers (exec .s16Hc (viewed [1, 2, 3, 4, 5, 6, 7] 1)) = some (7, ws [0x503EB1A1]) := by decide
/-- S10. -/
theorem test_s16Hc_S10 : answers (exec .s16Hc (viewed [1000, 500, 500] 1)) = some (3, ws [0xDFA7D3E8]) := by decide
/-- S21. -/
theorem test_s16Hd_S21 : answers (exec .s16Hd { viewed [0x90000000] 1 with n := 1 }) = some (1, ws [0]) := by decide
/-- S19. -/
theorem test_s9C_S19 : answers (exec .s9C (viewed (List.replicate 28 0) 2)) = some (28, ws [0x1C, 0]) := by decide
/-- 44_selectorcodec.md R230. -/
theorem test_s9D_R230 : answers (exec .s9D (viewed [0x1C, 0] 28)) = some (2, List.replicate 28 0) := by decide
/-- S16v, headed. -/
theorem test_s16C_S16v : answers (exec .s16C (viewed [2, 2] 2)) = some (2, ws [2, 0x1000000A]) := by decide
/-- S16v reversed, headed. -/
theorem test_s16D_S16v : answers (exec .s16D (viewed [2, 0x1000000A] 2)) = some (2, ws [2, 2]) := by decide
/-- S20: the destination view is not looked at. -/
theorem test_s9Est_S20 :
    nextHas (exec .s9Est { viewed [1, 2, 3, 4, 5, 6, 7] 0 with dp := 99, de := 3 })
      (fun t => decide (t.rc = 7 ∧ t.wc = 1 ∧ t.sp = 0 ∧ t.dp = 99 ∧ t.cp = 1)) = true := by decide
/-- X17. -/
theorem test_s16Est_X17 : faults (exec .s16Est (viewed [1, 2, 0xFFFFFFFF] 0)) = some (8, 0xFFFFFFFF) := by decide

/-! ## DeltaZigzag: section 2.6 -/

/-- Z2. -/
theorem test_dzEnc_Z2 :
    nextHas (exec .dzEnc (viewed [0, 0xFFFFFFFF, 0x80000000, 0x7FFFFFFF, 1] 5))
      (fun t => decide (t.zp = 1 ∧ t.rc = 5 ∧ t.memRead 5 5 = ws [0, 1, 0xFFFFFFFD, 1, 0xFFFFFFFB])) = true := by decide
/-- Z6. -/
theorem test_dzDec_Z6 :
    nextHas (exec .dzDec { viewed [6, 20] 2 with zp := 7 }) (fun t => decide (t.zp = 20 ∧ t.memRead 2 2 = ws [10, 20])) = true := by decide

/-! ## VariableByte: section 2.7 -/

/-- V1. -/
theorem test_vbHc_V1 : answers (exec .vbHc (viewed [0, 127, 128, 300, 0xFFFFFFFF] 3)) = some (5, ws [0x01807F00, 0xFFFF02AC, 0x000FFFFF]) := by decide
/-- V3. -/
theorem test_vbHd_V3 : answers (exec .vbHd { viewed [0x01807F00, 0xFFFF02AC, 0x000FFFFF] 3 with n := 3 }) = some (1, ws [0, 127, 128]) := by decide
/-- V10. -/
theorem test_vbHd_V10 : faults (exec .vbHd { viewed [0x80808080, 0x80] 0 with n := 1 }) = some (9, 0) := by decide
/-- V6. -/
theorem test_vbC_V6 : answers (exec .vbC (viewed [300, 5] 2)) = some (2, ws [2, 0x000502AC]) := by decide
/-- 46_variablebyte.md R271. -/
theorem test_vbD_R271 :
    answers (exec .vbD (viewed [5, 0x01807F00, 0xFFFF02AC, 0x000FFFFF] 5)) = some (4, ws [0, 127, 128, 300, 0xFFFFFFFF]) := by decide

/-! ## Composition: section 2.8 -/

/-- The words of T1. -/
def streamT1 : List Nat := [0x20, 5, 0x8A418820, 0xC5A92839, 0xCA307B9A, 0x38BDAB49, 0xFFBBCDEB, 0x23222120, 0x27262524, 0x2B2A2928, 0x2F2E2D2C, 0x3130]

/-- T1. -/
theorem test_compC_T1 : compCompress .bp .vb 65536 8 (ws (List.range 50)) = .ok (50, ws streamT1) := by decide +kernel
/-- T4. -/
theorem test_compC_T4 : answers (exec (.compC .bp .vb) (viewed [1, 2, 3] 2)) = some (3, ws [0, 0x00030201]) := by decide
/-- T5. -/
theorem test_compD_T5 : answers (exec (.compD .bp .vb) { viewed [0, 0x00030201] 3 with n := 3 }) = some (2, ws [1, 2, 3]) := by decide
/-- T3. -/
theorem test_compD_T3 : compDecompress .bp .vb 65536 (ws streamT1) 20 = .error ⟨.badCount, 0⟩ := by decide +kernel
/-- T12. -/
theorem test_topC_T12 : answers (exec (.topC .vb none) (viewed [300, 5] 2)) = some (2, ws [2, 0x000502AC]) := by decide
/-- T15. -/
theorem test_topC_T15 : answers (exec (.topC .bp (some .vb)) (viewed [] 2)) = some (0, ws [0, 0]) := by decide
/-- T16. -/
theorem test_topD_T16 : answers (exec (.topD .bp (some .vb)) (viewed [0, 0] 0)) = some (2, []) := by decide
/-- T19. -/
theorem test_topD_T19 : faults (exec (.topD .vb none) (viewed [] 0)) = some (6, 0) := by decide

/-! ## Faults and their priority: section 2.9 -/

/-- X2: `BadWidth` before `BadView`. -/
theorem test_fault_X2 : faults (exec (.pack 33) { State.resetOf 64 with sp := 10, se := 5 }) = some (3, 33) := by decide
/-- X4: `DE` above `MEMWORDS`. -/
theorem test_fault_X4 : faults (exec (.unpack 5) { State.resetOf 64 with sp := 10, se := 15, dp := 40, de := 65 }) = some (4, 0) := by decide
/-- X5: word 39 is shared. -/
theorem test_fault_X5 : faults (exec (.pack 5) { State.resetOf 64 with sp := 8, se := 40, dp := 39, de := 50 }) = some (5, 0) := by decide
/-- X7: `SourceUnderrun` before `DestinationOverflow`. -/
theorem test_fault_X7 : faults (exec (.pack 5) { State.resetOf 64 with sp := 8, se := 39, dp := 40, de := 40 }) = some (6, 0) := by decide
/-- X8 (with a source of zeros). -/
theorem test_fault_X8 : faults (exec (.pack 5) (viewed (List.replicate 32 0) 4)) = some (7, 0) := by decide
/-- X16: `ValueTooLarge` before `DestinationOverflow`. -/
theorem test_fault_X16 : faults (exec .s9Hc (viewed [1, 2, 0x10000000] 0)) = some (8, 0x10000000) := by decide
/-- Y2: an empty destination view inside the source range overlaps nothing. -/
theorem test_no_fault_Y2 :
    nextHas (exec (.pack 0) { State.resetOf 64 with sp := 8, se := 40, dp := 20, de := 20 })
      (fun t => decide (t.status = .idle ∧ t.sp = 40 ∧ t.dp = 20 ∧ t.rc = 32 ∧ t.wc = 0)) = true := by decide

/-! ## The host: section 2.1 -/

/-- Q10. -/
theorem test_host_Q10 :
    (events [.host .clear, .host (.start 8)] { State.resetOf 64 with status := .faulted, cause := 8, finfo := 5 }).map (fun t => (t.status, t.cause, t.finfo, t.cp))
      = some (.running, 0, 0, 8) := by decide
/-- R22: a host write of 1 to `STATUS` is ignored. -/
theorem test_host_writeStatus : nextHas (hostMove (.writeStatus 1) { State.resetOf 64 with status := .halted }) (fun t => decide (t.status = .halted)) = true := by
  decide

/-! ## Witnesses: for each statement with hypotheses, data that meet them all -/

/-- DecodeReadsBackEncode. -/
theorem test_witness_decodeReadsBackEncode : (Instr.pack 255).wellFormed = true ∧ (Instr.topD .vb none).wellFormed = true := by decide
/-- DecodedWordsAreItsEncoding. -/
theorem test_witness_decodedWordsAreItsEncoding : decode [0x02090000, 0xFFFFFFFF, 7] = .ok (.set .ovh 0xFFFFFFFF, [7]) := by decide
/-- IllegalCommandWordsFault, the first clause, at the last word of the memory. -/
theorem test_witness_illegal_step :
    let s : State := { State.resetOf 64 with mem := cellsOf 63 [0x020A0000], cp := 63, status := .running }
    s.status = .running ∧ s.cp.toNat < s.memwords ∧ IllegalByR66 (s.wordAt s.cp.toNat) := by
  refine ⟨rfl, by decide, ?_⟩; simp only [IllegalByR66]; decide +kernel
/-- Its other two clauses: words on either side of a boundary of R66. -/
theorem test_witness_illegal_words :
    IllegalByR66 0x240A0000 ∧ IllegalByR66 0x2A000A00 ∧ ¬ IllegalByR66 0x24080000 ∧ ¬ IllegalByR66 0x2A090F00 ∧ ¬ IllegalByR66 0x12FF0000 := by
  refine ⟨?_, ?_, ?_, ?_, ?_⟩ <;> (simp only [IllegalByR66]; decide)
/-- StepRunsDecodedInstruction, a `SET` in the last two words. -/
theorem test_witness_step :
    let s : State := { State.resetOf 64 with mem := cellsOf 62 [0x02070000, 5], cp := 62, status := .running }
    s.status = .running ∧ s.cp.toNat + (encode (.set .zp 5)).length ≤ s.memwords ∧
      decode (s.memRead s.cp.toNat (encode (.set .zp 5)).length) = .ok (.set .zp 5, []) := by decide
/-- FetchOutOfRangeFaults, the first clause, at its boundary. -/
theorem test_witness_fetch_command :
    let s : State := { State.resetOf 64 with cp := 64, status := .running }
    s.status = .running ∧ s.memwords ≤ s.cp.toNat := by decide
/-- The second clause. -/
theorem test_witness_fetch_immediate :
    let s : State := { State.resetOf 64 with mem := cellsOf 63 [0x02090000], cp := 63, status := .running }
    s.status = .running ∧ s.cp.toNat < s.memwords ∧ s.memwords ≤ s.cp.toNat + 1 ∧
      s.wordAt s.cp.toNat = commandWord 0x02 Reg.ovh.index 0 := by decide
/-- StoppedEngineKeepsState. -/
theorem test_witness_stopped : State.reset.status ≠ .running := by decide
/-- SetWritesItsRegister, the second clause. -/
theorem test_witness_set :
    let s : State := { State.resetOf 64 with mem := cellsOf 62 [0x02000000, 5], cp := 62, status := .running }
    s.status = .running ∧ s.cp.toNat + 1 < s.memwords ∧ s.wordAt s.cp.toNat = commandWord 0x02 Reg.sp.index 0 := by decide
/-- The views of `viewed` are valid and disjoint. -/
theorem test_viewed_viewsOk : ViewsOk (viewed [1, 2, 3] 2) := by unfold ViewsOk; decide
/-- LaneCommandsCommit, `PACK` and `PACKU`, at width 32 with no word to spare, the inputs fitting. -/
theorem test_witness_pack :
    let s := viewed (List.replicate 32 7) 32
    ViewsOk s ∧ 32 ≤ s.source.length ∧ 32 ≤ s.capacity ∧ allFit 32 (s.source.take 32) = true := by unfold ViewsOk; decide +kernel
/-- `UNPACK`, at width 0. -/
theorem test_witness_unpack :
    let s := viewed [] 32
    ViewsOk s ∧ 0 ≤ s.source.length ∧ 32 ≤ s.capacity := by unfold ViewsOk; decide
/-- Its short source: 31 words for `PACK` and `PACKU`, `b - 1` words for `UNPACK`, with no capacity at all, and they fault with code 6 (R306, R314). -/
theorem test_witness_lane_shortSource :
    let s := viewed (List.replicate 31 7) 0
    let u := viewed [1, 2, 3, 4] 0
    ViewsOk s ∧ s.source.length = 31 ∧ s.capacity < 5 ∧ ViewsOk u ∧ u.source.length = 5 - 1 ∧ u.capacity < 32 ∧
      faults (exec (.pack 5) s) = some (6, 0) ∧ faults (exec (.packu 5) s) = some (6, 0) ∧ faults (exec (.unpack 5) u) = some (6, 0) := by
  unfold ViewsOk; decide +kernel
/-- BadWidthFaults, the first clause and the second. -/
theorem test_witness_badWidth :
    32 < 33 ∧ Instr.unpack 33 ∈ [Instr.pack 33, .packu 33, .unpack 33] ∧ (viewed [] 0).status ≠ .faulted ∧
      nextHas (exec (.unpack 33) (viewed [] 0)) (fun t => decide (t.status = .faulted ∧ t.cause = 3)) = true := by decide
/-- PackedStreamOfLanes, UnpackedLanesOfStream, PackUnpackInverse, at width 31. -/
theorem test_witness_lanes :
    (ws (List.replicate 32 0x7FFFFFFF)).length = 32 ∧ allFit 31 (ws (List.replicate 32 0x7FFFFFFF)) = true ∧
      (ws (List.replicate 31 0xFFFFFFFF)).length = 31 := by decide
/-- CompressCommandsCommit: for every command, headless and headed, its function answers on an empty source, with views at reset. -/
theorem test_witness_compress_all :
    ViewsOk (viewed [] 0) ∧ (∀ p ∈ headlessCompressCommands, headlessCompress p.2 65536 8 (viewed [] 0).source = .ok (0, [])) ∧
      ∀ p ∈ headedCompressCommands, headedCompress p.2 65536 8 (viewed [] 0).source = .ok (0, []) := by unfold ViewsOk; decide
/-- DecompressCommandsCommit: for every command, the count 0. -/
theorem test_witness_decompress_all :
    ViewsOk (viewed [0] 0) ∧ (∀ p ∈ headlessDecompressCommands, headlessDecompress p.2 65536 (viewed [0] 0).source 0 = .ok (0, [])) ∧
      ∀ p ∈ headedDecompressCommands, headedDecompress p.2 65536 (viewed [0] 0).source = .ok (1, []) := by unfold ViewsOk; decide
/-- CompressCommandsCommit and DecompressCommandsCommit with something to write and exactly the room for it. -/
theorem test_witness_codec_vb :
    let s := viewed [300, 5] 1
    let t := { viewed [0x000502AC] 2 with n := 2 }
    ViewsOk s ∧ headlessCompress .vb s.page s.ovh s.source = .ok (2, ws [0x000502AC]) ∧ s.capacity = 1 ∧
      ViewsOk t ∧ headlessDecompress .vb t.page t.source t.n.toNat = .ok (1, ws [300, 5]) ∧ t.capacity = 2 := by unfold ViewsOk; decide
/-- CompressFaultsExactly: pages of each kind, and values on either side of `2^28`. -/
theorem test_witness_compressFaults :
    (0 : Word).toNat = 0 ∧ (128 : Word).toNat % 256 ≠ 0 ∧ (256 : Word).toNat ≠ 0 ∧ (256 : Word).toNat % 256 = 0 ∧
      allFit 28 (ws [0xFFFFFFF]) = true ∧ allFit 28 (ws [0x10000000]) = false := by decide
/-- The decompress functions, `ReadsExactly`: a stream of two words and what each shorter prefix gives (R306). -/
theorem test_witness_readsExactly :
    headlessDecompress .bp 0 (ws [1, 0xFFFFFFFF, 9]) 32 = .ok (2, ws (List.replicate 32 1)) ∧
      headlessDecompress .bp 0 (ws [1]) 32 = .error underrun ∧ headlessDecompress .bp 0 [] 32 = .error underrun := by decide +kernel
/-- `RunsInSequence`: a second block that is malformed, a second block that is not, and a first one that is. -/
theorem test_witness_inSequence :
    (32 % 32 = 0 ∧ 32 + 32 < 128) ∧ bpDecompress (ws [0, 33]) 32 = .ok (1, ws (List.replicate 32 0)) ∧ bpDecompress (ws [33]) 32 = .error malformed ∧
      bpDecompress (ws [0, 33]) 64 = .error malformed ∧ bpDecompress (ws [0, 0]) 64 = .ok (2, ws (List.replicate 64 0)) ∧
      128 % 128 = 0 ∧ pfdDecompress simple9 (ws [0, 33]) 128 = .ok (1, ws (List.replicate 128 0)) ∧ pfdDecompress simple9 (ws [0, 33]) 256 = .error malformed ∧
      256 % 256 = 0 ∧ fpfDecompress 256 256 (ws [1, 2, 0, 0, 0]) 256 = .ok (4, ws (List.replicate 256 0)) ∧
      fpfDecompress 256 256 (ws [1, 2, 0, 0, 0]) 512 = .error malformed := by decide +kernel
/-- `BinaryPackingFaults`: a byte of 33 in each place of a group header, three data words of four, a single header of 33, and of 256 whose low byte is legal (R140). -/
theorem test_witness_bpFaults :
    bpDecompress (ws [0x00000021]) 128 = .error malformed ∧ bpDecompress (ws [0x00002100]) 128 = .error malformed ∧
      bpDecompress (ws [0x00210000]) 128 = .error malformed ∧ bpDecompress (ws [0x21000000]) 128 = .error malformed ∧
      bpDecompress (ws [0x01010101, 0, 0, 0]) 128 = .error underrun ∧ bpDecompress (ws [33]) 32 = .error malformed ∧
      bpDecompress (ws [256]) 32 = .error malformed ∧ bpDecompress (ws [32, 0]) 127 = .error underrun := by decide +kernel
/-- `SelectorFaults`: selector 9 under each table, no word, and a fault after a first word that raises nothing (R225). -/
theorem test_witness_selectorStreams :
    simple9.length ≤ (0x90000000 : Word).toNat / 2 ^ 28 ∧ selectorDecompress simple9 (ws [0x90000000]) 1 = .error malformed ∧
      selectorDecompress simple16 (ws [0x90000004]) 1 = .ok (1, ws [4]) ∧ selectorDecompress simple9 [] 1 = .error underrun ∧
      simple9[(0x80000007 : Word).toNat / 2 ^ 28]? = some [28] ∧ selectorDecompress simple9 (ws [0x80000007, 0xF0000000]) 2 = .error malformed := by decide
/-- `VariableByteFaults`: one value of one byte, then five bytes with the continuation bit, then three of them (R268). -/
theorem test_witness_vbFaults :
    vbValues 1 [5] = .ok (ws [5], []) ∧ bytesOfWords (ws [0x80808005, 0x00008080]) = [5] ++ [0x80, 0x80, 0x80, 0x80, 0x80, 0, 0] ∧
      vbDecompress (ws [0x80808005, 0x00008080]) 2 = .error malformed ∧ bytesOfWords (ws [0x80808005]) = [5] ++ [0x80, 0x80, 0x80] ∧
      vbDecompress (ws [0x80808005]) 2 = .error underrun := by decide
/-- `PfdFaults` (R187): each bad header, a fault of the secondary codec, too few data words, a position of 128, and a good block. -/
theorem test_witness_pfdFaults :
    ([0x01000000, 33, 0x00010000, 0x00000100, 0x00210101, 0x001D0100, 0x00108000].all fun H => decide (pfdDecompress simple9 (ws [H]) 128 = .error malformed)) = true ∧
      pfdDecompress simple9 (ws [0x00010100]) 128 = .error underrun ∧ pfdDecompress simple9 (ws [0x00010100, 0x90000000]) 128 = .error malformed ∧
      selectorDecompress simple9 (ws [0x700040FF]) 2 = .ok (1, ws [255, 1]) ∧ pfdDecompress simple9 (ws [0x00010100, 0x700040FF]) 128 = .error malformed ∧
      selectorDecompress simple9 (ws [0x70004005]) 2 = .ok (1, ws [5, 1]) ∧ pfdDecompress simple9 (ws [0x00020101, 0x70004005, 0, 0, 0]) 128 = .error underrun ∧
      (pfdDecompress simple9 (ws [0x00020101, 0x70004005, 0, 0, 0, 0]) 128).map (·.1) = .ok 6 := by decide +kernel
/-- `FastPforFaults` (R173): an offset of 0, an offset, a container and a bitmap past the end, a bucket count of 0, a good page. -/
theorem test_witness_fpfFaults :
    fpfDecompress 128 256 (ws [0]) 128 = .error malformed ∧ fpfDecompress 128 256 (ws [2, 0]) 128 = .error underrun ∧
      fpfDecompress 128 256 (ws [1, 5, 0]) 128 = .error underrun ∧ fpfDecompress 128 256 (ws [1, 2, 0]) 128 = .error underrun ∧
      readBuckets 1 32 1 (ws [0]) = .error malformed ∧ fpfDecompress 128 256 (ws [1, 2, 0, 1, 0]) 128 = .error malformed ∧
      readBuckets 0 32 1 [] = .ok (List.replicate 32 [], []) ∧ fpfDecompress 128 256 (ws [1, 2, 0, 0]) 128 = .ok (4, ws (List.replicate 128 0)) ∧
      fpfDecompress 128 100 [] 128 = .error ⟨.badConfig, 100⟩ := by decide +kernel
/-- `BucketFaults`: bit 0 clear, then set with the counts 0, 33 (two words at width 1), one word short of them and enough. -/
theorem test_witness_bucketFaults :
    0 / 2 ^ (1 - 1) % 2 = 0 ∧ readBuckets 0 1 1 [] = .ok ([[]], []) ∧ 1 / 2 ^ (1 - 1) % 2 = 1 ∧ readBuckets 1 1 1 [] = .error underrun ∧
      readBuckets 1 1 1 (ws [0]) = .error malformed ∧ readBuckets 1 1 1 (ws [33, 0]) = .error underrun ∧
      readBuckets 1 1 1 (ws [33, 0, 0]) = .ok ([ws (List.replicate 33 0)], []) := by decide
/-- `PageBlockFaults`, clause by clause: data left over, one byte, a width of 33, too few bytes, `maxB` equal to `bestB`, data past the limit, data missing, a position of
128, an empty bucket, and a good block with an exception. -/
theorem test_witness_pageBlocks :
    fpfBlocks 128 0 [] [] 0 [] = .ok [] ∧ fpfBlocks 128 0 [] [] 1 [] = .error malformed ∧ fpfBlocks 128 1 [0] [] 0 [] = .error malformed ∧
      fpfBlocks 128 1 [33, 0] [] 200 [] = .error malformed ∧ fpfBlocks 128 1 [0, 1, 1] [] 0 [] = .error malformed ∧
      fpfBlocks 128 1 [1, 1, 1, 0] [] 4 (ws [0, 0, 0, 0]) = .error malformed ∧ fpfBlocks 128 1 [1, 0] [] 3 (ws [0, 0, 0, 0]) = .error malformed ∧
      fpfBlocks 128 1 [1, 0] [] 4 (ws [0, 0, 0]) = .error underrun ∧ fpfBlocks 128 1 [0, 1, 1, 128] [[1]] 0 [] = .error malformed ∧
      fpfBlocks 128 1 [0, 1, 1, 127] [[]] 0 [] = .error malformed ∧
      fpfBlocks 128 1 [0, 1, 1, 127] [[1]] 0 [] = .ok (ws (List.replicate 127 0 ++ [1])) := by decide +kernel
/-- The headed form's fault is the headless one's. -/
theorem test_witness_headedFault :
    headlessDecompress .bp 0 (ws [33]) 32 = .error malformed ∧ headedDecompress .bp 0 (ws [32, 33]) = .error malformed := by decide
/-- HeadlessFormsRoundToTheGranule, PlainCodecRoundTrip, both forms. -/
theorem test_witness_plain :
    headlessCompress .s9 0 0 (ws [5]) = .ok (1, ws [0x20000005]) ∧ headedCompress .s9 0 0 (ws [5]) = .ok (1, ws [1, 0x20000005]) ∧
      headlessDecompress .s9 0 (ws [0x20000005]) 1 = .ok (1, ws [5]) ∧ (ws [5]).length ≤ 2 ^ 31 := by decide
/-- PatchedCodecRoundTrip, with an exception (`test_npfd9Hc_F5` is the headless form). -/
theorem test_witness_patched :
    headedCompress .npfd9 65536 8 (ws blockE) = .ok (128, ws ([128, 0x00110104, 0x748D0005] ++ dataE)) ∧ (ws blockE).length ≤ 2 ^ 31 := by decide +kernel
/-- FastPforRoundTrip, with an exception (`test_fpf128Hc_F1` is the headless form). -/
theorem test_witness_fastPfor : headedCompress .fpf128 65536 8 (ws blockE) = .ok (128, ws (128 :: pageE)) := by decide +kernel
/-- BlockWidthIsTheLargest. -/
theorem test_witness_width : (ws (List.range 32)).length = 32 ∧ width (ws (List.range 32)) = 5 := by decide
/-- BinaryPackingLength. -/
theorem test_witness_bpLength : bpCompress (ws (List.replicate 33 0)) = .ok (32, [0]) := by decide
/-- Its header clauses, four blocks of different widths (95_test_vectors.md, P6v, its first four blocks) and exactly one block (P8v). -/
theorem test_witness_bpHeaders :
    bpCompress (ws (List.replicate 32 0 ++ List.replicate 32 1 ++ (List.range 32).map (· % 4) ++ List.replicate 31 0 ++ [0xFFFFFFFF])) =
        .ok (128, ws ([0x20020100, 0xFFFFFFFF, 0xE4E4E4E4, 0xE4E4E4E4] ++ List.replicate 31 0 ++ [0xFFFFFFFF])) ∧
      bpCompress (ws (0x80000000 :: List.replicate 31 0)) = .ok (32, ws (0x20 :: 0x80000000 :: List.replicate 31 0)) := by decide +kernel
/-- GreedyDescentStopsWhereTheCostDoes: a descent that stops between 0 and `maxB` (43_for_patched.md section 5). -/
theorem test_witness_greedy : maxWidth (widths (ws blockE)) = 17 ∧ greedyWidth 128 8 32 (widths (ws blockE)) = 4 := by decide +kernel
/-- Its cost and eligibility clauses, on either side of the discount (the costs 2056 and 1930 of 43_for_patched.md section 5). -/
theorem test_witness_cost :
    cost 128 8 17 (widths (ws blockE)) 16 = 2056 ∧ cost 128 8 17 (widths (ws blockE)) 15 = 1930 ∧ eligible 128 28 17 (widths (ws blockE)) 16 = true := by
  decide +kernel
/-- ExhaustiveSearchIsMinimal (95_test_vectors.md, block G). -/
theorem test_witness_exhaustive : simple9 ∈ [simple9, simple16] ∧ (ws blockG).length = 128 ∧ exhaustiveWidth simple9 128 28 (ws blockG) = .ok 2 := by
  decide +kernel
/-- PatchingRestoresTheBlock: a block with one exception at width 4. -/
theorem test_witness_patching : exceptions 4 (ws [3, 0x12345]) = [(1, 0x1234)] := by decide
/-- BadPageFaults, every clause: too few words, a granule, an empty source. -/
theorem test_witness_badPage :
    let s := { viewed (List.replicate 256 0) 0 with page := 100 }
    let t := { viewed [] 0 with page := 0 }
    ViewsOk s ∧ s.page.toNat % 256 ≠ 0 ∧ 256 ≤ s.source.length ∧ s.source ≠ [] ∧ ViewsOk t ∧ t.page.toNat = 0 ∧ t.source.length < 128 ∧ t.source = [] := by
  unfold ViewsOk; decide +kernel
/-- SelectorFaultsOnFirstLargeValue: a list with a large value, and one without. -/
theorem test_witness_selectorFaults :
    (ws [1, 0x10000000, 0xFFFFFFFF]).find? (fun v => decide (2 ^ 28 ≤ v.toNat)) = some 0x10000000 ∧
      selectorCompress simple9 (ws [5]) = .ok (1, ws [0x20000005]) := by decide
/-- SelectorWordHoldsTheFirstFit. -/
theorem test_witness_firstFit : firstFit simple9 0 (ws [1, 2, 3]) = some (1, List.replicate 14 2) := by decide
/-- Its last clause, the values of a second word left over. -/
theorem test_witness_selectorCompress :
    firstFit simple9 0 (ws [0xFFFFFFF, 5]) = some (8, [28]) ∧ selectorCompress simple9 ((ws [0xFFFFFFF, 5]).drop 1) = .ok (1, ws [0x20000005]) := by decide
/-- EstimatesWriteCountsOnly, each clause. -/
theorem test_witness_estimates :
    ¬ { State.resetOf 64 with sp := 32, se := 65 }.sourceValid ∧ (viewed [5] 0).sourceValid ∧ selectorEstimate simple9 (viewed [5] 0).source = .ok 1 ∧
      selectorEstimate simple16 (viewed [0x10000000] 0).source = .error ⟨.valueTooLarge, 0x10000000⟩ := by decide
/-- ZigzagIsABijection: both signs at their boundaries. -/
theorem test_witness_zigzag : 0 ≤ (0x7FFFFFFF : Word).toInt ∧ (0x80000000 : Word).toInt < 0 ∧ zigzag 0x80000000 = 0xFFFFFFFF := by decide
/-- FilterCommandsCommit, on an empty and on a non-empty source. -/
theorem test_witness_filter :
    ViewsOk (viewed [] 0) ∧ (viewed [] 0).source.length ≤ (viewed [] 0).capacity ∧ ViewsOk (viewed [3, 4] 2) ∧
      (viewed [3, 4] 2).source.length ≤ (viewed [3, 4] 2).capacity := by unfold ViewsOk; decide
/-- BytesPackLittleEndian: the last, partly filled word. -/
theorem test_witness_bytes : (wordsOfBytes [1, 2, 3, 4, 5])[1]? = some 5 := by decide
/-- CompositionCommandsCommit, the two compress clauses, and CompositionMarkerDiscipline with the marker. -/
theorem test_witness_compress_composition :
    let s := viewed [1, 2, 3] 3
    ViewsOk s ∧ compCompress .bp .vb s.page s.ovh s.source = .ok (3, ws [0, 0x00030201]) ∧
      topCompress .bp (some .vb) s.page s.ovh s.source = .ok (3, ws [3, 0, 0x00030201]) ∧ s.capacity = 3 := by unfold ViewsOk; decide
/-- The two decompress clauses. -/
theorem test_witness_decompress_composition :
    let s := { viewed [0, 0x00030201] 3 with n := 3 }
    let t := viewed [3, 0, 0x00030201] 3
    ViewsOk s ∧ compDecompress .bp .vb s.page s.source s.n.toNat = .ok (2, ws [1, 2, 3]) ∧
      ViewsOk t ∧ topDecompress .bp (some .vb) t.page t.source = .ok (3, ws [1, 2, 3]) := by unfold ViewsOk; decide
/-- CompositionRoundTrip and TopLevelRoundTrip, stage one not empty, the tail not consumed. -/
theorem test_witness_composition_roundTrip :
    compCompress .vb .bp 0 0 (ws [1, 2, 3]) = .ok (3, ws [3, 0x00030201]) ∧ topCompress .bp none 0 0 (ws (List.replicate 33 0)) = .ok (32, ws [33, 0]) := by decide
/-- Their clauses for a FastPFOR first stage: a legal `PAGE` and an illegal one, less than a granule. -/
theorem test_witness_composition_fastPfor :
    compCompress .fpf128 .vb 256 8 (ws [1, 2, 3]) = .ok (3, ws [0, 0x00030201]) ∧ compCompress .fpf128 .vb 100 8 (ws [1, 2, 3]) = .ok (3, ws [0, 0x00030201]) ∧
      topCompress .fpf128 (some .vb) 100 8 (ws [1, 2, 3]) = .ok (3, ws [3, 0, 0x00030201]) := by decide
/-- BadCountFaults, both clauses. -/
theorem test_witness_badCount :
    let s := { viewed [2, 0x00000201] 0 with n := 1 }
    let t := viewed [1, 2, 0x00000201] 0
    ViewsOk s ∧ headedDecompress .vb s.page s.source = .ok (2, ws [1, 2]) ∧ s.n.toNat < 2 ∧
      ViewsOk t ∧ t.source = ws [1, 2, 0x00000201] ∧ headedDecompress .vb t.page (ws [2, 0x00000201]) = .ok (2, ws [1, 2]) := by unfold ViewsOk; decide
/-- DataCommandsEvaluateThenCommit: an evaluation that faults, one that overflows, one that commits. -/
theorem test_witness_evaluates :
    let s := viewed [300, 5] 1
    ViewsOk s ∧ Evaluates s (.unpack 3) (.error underrun) ∧ Evaluates s (.unpack 2) (.ok { read := 2, out := unpack 2 s.source }) ∧
      s.capacity < 32 ∧ Evaluates s .vbHc (.ok { read := 2, out := ws [0x000502AC] }) := by
  refine ⟨by unfold ViewsOk; decide, Evaluates.unpack 3 (by decide), Evaluates.unpack 2 (by decide), by decide, ?_⟩
  exact Evaluates.headlessCompress .vbHc .vb (by decide)
/-- ViewFaultsChangeNothing: invalid views, overlapping views, an estimate's invalid view. -/
theorem test_witness_viewFaults :
    let s := { State.resetOf 64 with sp := 10, se := 5 }
    let t := { State.resetOf 64 with sp := 8, se := 40, dp := 39, de := 50 }
    hasDestination .vbHc = true ∧ ¬ (s.sourceValid ∧ s.destValid) ∧ t.sourceValid ∧ t.destValid ∧ t.overlapping ∧ ¬ s.sourceValid := by decide
/-- FaultEntryKeepsTheMachine, StepsWriteOnlyTheDestinationView and FaultInformation, causes 1 and 2: steps that fault. -/
theorem test_witness_fault_fetch :
    faults (step (running [0x04000000] [])) = some (1, 0x04000000) ∧ faults (step { running [] [] with cp := 64 }) = some (2, 64) := by decide
/-- FaultInformation, causes 3, 8, 10 and one whose `FINFO` is 0. -/
theorem test_witness_fault_data :
    faults (step (running [0x12FF0000] [])) = some (3, 255) ∧
      faults (step { running [0x24070000] [0x10000000] with sp := 32, se := 33 }) = some (8, 0x10000000) ∧
      faults (step { running [0x20010000] [] with page := 100 }) = some (10, 100) ∧ faults (step (running [0x10000000] [])) = some (6, 0) := by decide +kernel
/-- FaultInformation, the clause of the first offending value: the second of two large values is not it, and one before the second stage's words is not either. -/
theorem test_witness_firstOffending :
    let s := { running [0x24070000] [1, 0x10000000, 0x10000001] with sp := 32, se := 35 }
    (decode s.fetchWindow).toOption.map (·.1) = some .s9Est ∧ faults (step s) = some (8, 0x10000000) ∧
      selectorStart (.compC .bp .s9) 35 = 32 ∧ selectorStart (.topC .s16 (some .bp)) 35 = 0 := by decide
/-- EveryRunEnds and StepKeepsLegal: a legal running engine. -/
theorem test_witness_legal_running : State.Legal { State.resetOf 64 with status := .running } where
  memwords_pos := by decide
  memwords_le := by decide
  mem_wf := by decide
  mem_inside := by intro c hc; cases hc
  cause := ⟨rfl, rfl⟩
/-- CommandPointerOnlyAdvances and OnlySetAndMovWriteConfiguration: a command that answers and is neither `SET` nor `MOV`. -/
theorem test_witness_exec_answers : ∃ t, exec .s9Est State.reset = .next t ∧ t.cp = 1 ∧ t.status = .idle := ⟨_, rfl, by decide, rfl⟩
/-- DataCommandsSeeOnlyTheSourceView: two engines that differ outside the source view only. -/
theorem test_witness_noninterference :
    let s := viewed [7] 1
    let s' := { s with mem := cellsOf 0 (ws [7, 9]) }
    s ≠ s' ∧ (∀ r, s.reg r = s'.reg r) ∧ s.source = s'.source ∧ answers (exec .vbHc s) = answers (exec .vbHc s') ∧
      answers (exec .vbHc s) = some (1, ws [7]) := by
  refine ⟨by decide, by intro r; cases r <;> rfl, by decide, by decide, by decide⟩
/-- StartAndClear, ResetMoves and HostAccessOnlyWhileStopped: an engine in each of the four states. -/
theorem test_witness_status :
    (State.resetOf 64).status = .idle ∧ (running [] []).status = .running ∧ nextHas (step (running [0x01000000] [])) (fun t => decide (t.status = .halted)) = true ∧
      nextHas (step { running [] [] with cp := 64 }) (fun t => decide (t.status = .faulted)) = true := by decide
/-- ResetMoves, the clauses in which no data command is cut short: a running engine at a `NOP`, and at an illegal word. -/
theorem test_witness_reset :
    (decode (running [0x00000000] []).fetchWindow).toOption.map (·.1) = some .nop ∧ hasDestination .nop = false ∧
      (decode (running [0x04000000] []).fetchWindow).toOption = none := by decide
/-- HostAccessOnlyWhileStopped: `CAUSE` and `FINFO` of a faulted engine, read, and a write of them that changes nothing. -/
theorem test_witness_host_cause :
    let s := { State.resetOf 64 with status := .faulted, cause := 8, finfo := 5 }
    s.hostReadCause = some 8 ∧ s.hostReadFinfo = some 5 ∧ s.hostReadStatus = 3 ∧
      nextHas (hostMove (.writeCause 1) s) (fun t => decide (t = s)) = true ∧ nextHas (hostMove (.writeFinfo 1) s) (fun t => decide (t = s)) = true := by decide
/-- HostAccessOnlyWhileStopped and HostMovesKeepLegal: the last word of the memory, written. -/
theorem test_witness_host_write :
    nextHas (hostMove (.writeWord 63 0xFFFFFFFF) (State.resetOf 64)) (fun t => decide (t.wordAt 63 = 0xFFFFFFFF)) = true := by decide

end Sys2Proof.Tests
end

