-- ==== Sys2Proof/Proofs/IllegalWords.lean ====
section
/-! PROOF. The command words that rule R66 calls illegal (30_encoding.md): the decoder rejects exactly these, and a running engine faults on them. -/

namespace Sys2Proof.Proofs

open Sys2Proof.Machine

/-! ## What each table leaves out -/

/-- The registers are numbered 0 to 9 (R64). -/
theorem regOfIndex_eq_none_iff (a : Nat) : Reg.ofIndex a = none ↔ 9 < a := by
  unfold Reg.ofIndex
  split
  case h_11 => simp only [imp_false, true_iff] at *; omega
  all_goals simp

/-- The codecs are numbered 0 to 9 (R63). -/
theorem codecOfId_eq_none_iff (k : Nat) : Codec.ofId k = none ↔ 9 < k := by
  unfold Codec.ofId
  split
  case h_11 => simp only [imp_false, true_iff] at *; omega
  all_goals simp

/-- A second codec is a codec or 15 (R63). -/
theorem secondOfId_eq_none_iff (b : Nat) : secondOfId b = none ↔ 9 < b ∧ b ≠ 15 := by
  unfold secondOfId
  split
  case isTrue h => simp [h]
  case isFalse h => simp [codecOfId_eq_none_iff, h]

/-- Only codecs 7 and 8 have an estimate (R62). -/
theorem estOfId_eq_none_iff (a : Nat) : estOfId a = none ↔ a ≠ 7 ∧ a ≠ 8 := by
  unfold estOfId
  split
  case h_3 => simp_all
  all_goals simp

/-! ## The decoder -/

/-- An arm with two operands: either of them is missing. -/
theorem bind_map_eq_none_iff {α β γ : Type} (x : Option α) (y : Option β) (f : α → β → γ) :
    (x.bind fun k => y.map (f k)) = none ↔ x = none ∨ y = none := by
  cases x <;> simp

/-- The fields over which `IllegalByR66` speaks are the decoder's: the opcode is what is left of the word above bit 23. -/
theorem decodeHead_eq_decodeFields (w : Word) :
    decodeHead w = decodeFields (w.toNat / 2 ^ 24) (w.toNat / 2 ^ 16 % 256) (w.toNat / 2 ^ 8 % 256) (w.toNat % 256) := by
  have hopc : field w 31 24 = w.toNat / 2 ^ 24 := by
    have := w.isLt
    simp only [field]
    omega
  have hc : field w 7 0 = w.toNat % 256 := by simp [field]
  rw [decodeHead, hopc, hc]
  rfl

/-- The decoder finds no command in a word exactly when rule R66 calls the word illegal: one case for each arm of the decoder, which finds nothing
exactly when a field it does not use is not 0 or an operand is missing from its table. -/
theorem decodeHead_eq_none_iff (w : Word) : decodeHead w = none ↔ IllegalByR66 w := by
  rw [decodeHead_eq_decodeFields]
  unfold IllegalByR66
  generalize w.toNat / 2 ^ 24 = opc, w.toNat / 2 ^ 16 % 256 = a, w.toNat / 2 ^ 8 % 256 = b, w.toNat % 256 = c
  unfold decodeFields
  by_cases hc : c = 0
  · rw [if_neg (not_not.2 hc)]
    split
    case h_19 => simp_all
    all_goals
      simp only [ite_eq_right_iff, imp_iff_not_or, bind_map_eq_none_iff, Option.map_eq_none_iff, regOfIndex_eq_none_iff, codecOfId_eq_none_iff,
        secondOfId_eq_none_iff, estOfId_eq_none_iff, not_and_or]
      simp [hc]
  · simp [hc]

/-- An illegal word is rejected by name, whatever follows it (R67). -/
theorem decode_cons_of_illegal {w : Word} (h : IllegalByR66 w) (rest : List Word) : decode (w :: rest) = .error (.illegal w) := by
  rw [decode, (decodeHead_eq_none_iff w).2 h]

/-- A legal word begins a command: of one word, or a `SET` that takes the next word as it is (R65). -/
theorem decode_cons_cons_of_legal {w : Word} (h : ¬ IllegalByR66 w) (imm : Word) (rest : List Word) :
    ∃ i rest', decode (w :: imm :: rest) = .ok (i, rest') := by
  rw [← decodeHead_eq_none_iff] at h
  cases hd : decodeHead w with
  | none => exact absurd hd h
  | some hw =>
    cases hw with
    | whole i => exact ⟨i, imm :: rest, by rw [decode, hd]⟩
    | setOf rd => exact ⟨.set rd imm, rest, by rw [decode, hd]⟩

/-! ## The step -/

/-- A running engine whose fetch gives no command takes the fetch's fault (R90). -/
theorem step_of_fetch_error {s : State} {r : Reject} (hs : s.status = .running) (hd : decode s.fetchWindow = .error r) :
    step s = .next (s.takeFault (fetchTrap s r)) := by
  simp only [step, hs, hd]

/-- The fetch of an illegal word is rejected, at the last address of the memory too. -/
theorem decode_fetchWindow_of_illegal {s : State} (hcp : s.cp.toNat < s.memwords) (h : IllegalByR66 (s.wordAt s.cp.toNat)) :
    decode s.fetchWindow = .error (.illegal (s.wordAt s.cp.toNat)) := by
  rw [State.fetchWindow, if_pos hcp, decode_cons_of_illegal h]

/-- A fault leaves the memory as it was. -/
theorem memKept_takeFault (s : State) (t : Trap) : MemKept s (s.takeFault t) := fun _ => rfl

/-- A fault's own writes are the three status registers (R315). -/
theorem faulted_takeFault (s : State) (c : Cause) (info : Word) : Faulted s (s.takeFault ⟨c, info⟩) c info where
  status := rfl
  cause := rfl
  finfo := rfl
  regs r _ := s.reg_takeFault _ r
  cp := rfl
  memwords := rfl
  frame i _ := memKept_takeFault s _ i

/-- Settles O3: the decoder's answer on each word, and the fault of a step whose fetch the decoder rejects. -/
theorem illegalCommandWordsFault : Obligations.IllegalCommandWordsFault := by
  refine ⟨fun s hs hcp hill => ?_, fun w rest h => decode_cons_of_illegal h rest, fun w imm rest h => decode_cons_cons_of_legal h imm rest⟩
  exact ⟨_, step_of_fetch_error hs (decode_fetchWindow_of_illegal hcp hill), faulted_takeFault s _ _, memKept_takeFault s _⟩

end Sys2Proof.Proofs
end

