-- ==== Sys2Proof/Proofs/BlockWidth.lean ====
section
/-! PROOF. The width of a block (42_blockcodec.md R136). The one idea is a bound: a width is at most `k` exactly when every word of the block fits in `k` bits. -/

namespace Sys2Proof.Proofs

open Sys2Proof.Machine

/-! ## The bit length of a word -/

/-- `bitlen` counts the bits a word needs. -/
theorem bitlen_le_iff (v : Word) (k : Nat) : bitlen v ≤ k ↔ v.toNat < 2 ^ k := by
  unfold bitlen
  split
  case isTrue h => simp [h]
  case isFalse h => exact Nat.log2_lt h

theorem lt_bitlen_iff (v : Word) (k : Nat) : k < bitlen v ↔ 2 ^ k ≤ v.toNat := by
  rw [← Nat.not_le, bitlen_le_iff, Nat.not_lt]

theorem bitlen_le_zero_iff (v : Word) : bitlen v ≤ 0 ↔ v = 0 := by
  rw [bitlen_le_iff]
  bv_omega

theorem bitlen_le_wordSize (v : Word) : bitlen v ≤ 32 := (bitlen_le_iff v 32).2 v.isLt

theorem toNat_lt_two_pow_bitlen (v : Word) : v.toNat < 2 ^ bitlen v := (bitlen_le_iff v _).1 le_rfl

theorem two_pow_bitlen_sub_one_le {v : Word} (h : v ≠ 0) : 2 ^ (bitlen v - 1) ≤ v.toNat := by
  have hpos : ¬ bitlen v ≤ 0 := mt (bitlen_le_zero_iff v).1 h
  exact (lt_bitlen_iff v _).1 (by omega)

/-- An OR fits in `k` bits exactly when both its words do. -/
theorem bitlen_or_le_iff (v w : Word) (k : Nat) : bitlen (v ||| w) ≤ k ↔ bitlen v ≤ k ∧ bitlen w ≤ k := by
  simp only [bitlen_le_iff, BitVec.toNat_or]
  constructor
  · intro h
    exact ⟨Nat.left_le_or.trans_lt h, Nat.right_le_or.trans_lt h⟩
  · rintro ⟨hv, hw⟩
    exact Nat.or_lt_two_pow hv hw

theorem bitlen_foldl_or_le_iff (V : List Word) (a : Word) (k : Nat) :
    bitlen (V.foldl (· ||| ·) a) ≤ k ↔ bitlen a ≤ k ∧ ∀ v ∈ V, bitlen v ≤ k := by
  induction V generalizing a with
  | nil => simp
  | cons v V ih => rw [List.foldl_cons, ih, bitlen_or_le_iff, List.forall_mem_cons, and_assoc]

/-! ## The width of a block -/

/-- The width of a block is the least bound of its words' bit lengths. -/
theorem width_le_iff (V : List Word) (k : Nat) : width V ≤ k ↔ ∀ v ∈ V, bitlen v ≤ k := by
  have hzero : bitlen 0 ≤ k := ((bitlen_le_zero_iff 0).2 rfl).trans k.zero_le
  rw [width, bitlen_foldl_or_le_iff, and_iff_right hzero]

theorem bitlen_le_width {V : List Word} {v : Word} (hv : v ∈ V) : bitlen v ≤ width V := (width_le_iff V _).1 le_rfl v hv

theorem lt_width_iff (V : List Word) (k : Nat) : k < width V ↔ ∃ v ∈ V, k < bitlen v := by
  simp only [← Nat.not_le, width_le_iff, not_forall, exists_prop]

theorem width_le_wordSize (V : List Word) : width V ≤ 32 := (width_le_iff V 32).2 fun v _ => bitlen_le_wordSize v

theorem width_eq_zero_iff (V : List Word) : width V = 0 ↔ ∀ v ∈ V, v = 0 := by
  rw [← Nat.le_zero, width_le_iff]
  simp only [bitlen_le_zero_iff]

theorem width_eq_wordSize_iff (V : List Word) : width V = 32 ↔ ∃ v ∈ V, 2 ^ 31 ≤ v.toNat := by
  have hmax := width_le_wordSize V
  have htop : width V = 32 ↔ 31 < width V := by omega
  rw [htop, lt_width_iff]
  simp only [lt_bitlen_iff]

/-- A word of a block that is not empty attains the width: a positive width is not bounded by the number below it, and width 0 is every word's bit length. -/
theorem exists_bitlen_eq_width {V : List Word} (hV : V ≠ []) : ∃ v ∈ V, bitlen v = width V := by
  cases hw : width V with
  | zero =>
    obtain ⟨v, hv⟩ := List.exists_mem_of_ne_nil V hV
    exact ⟨v, hv, Nat.le_zero.1 (hw ▸ bitlen_le_width hv)⟩
  | succ k =>
    obtain ⟨v, hv, hk⟩ := (lt_width_iff V k).1 (by omega)
    have hle := bitlen_le_width hv
    exact ⟨v, hv, by omega⟩

/-- Settles O24: each clause is the bound `width_le_iff` at one number, or the meaning of `bitlen`. -/
theorem blockWidthIsTheLargest : Obligations.BlockWidthIsTheLargest := by
  intro V hlen
  have hV : V ≠ [] := List.ne_nil_of_length_pos (by omega)
  exact ⟨rfl, fun _ hv => bitlen_le_width hv, exists_bitlen_eq_width hV, width_eq_zero_iff V, width_eq_wordSize_iff V,
    fun v _ => ⟨toNat_lt_two_pow_bitlen v, two_pow_bitlen_sub_one_le⟩⟩

end Sys2Proof.Proofs
end

