-- ==== Sys2Proof/Proofs/ExceptionCount.lean ====
section
/-! PROOF. The exception count of a width (43_for_patched.md R161). The one idea is the search's own accumulation: from `b + 1` to `b` the count grows by one histogram entry. -/

namespace Sys2Proof.Proofs

open Sys2Proof.Machine

/-! ## The largest width -/

theorem foldl_max_le_iff (ws : List Nat) (a k : Nat) : ws.foldl max a ≤ k ↔ a ≤ k ∧ ∀ w ∈ ws, w ≤ k := by
  induction ws generalizing a with
  | nil => simp
  | cons w ws ih => rw [List.foldl_cons, ih, max_le_iff, List.forall_mem_cons, and_assoc]

/-- `maxB` is the least bound of the widths (R160). -/
theorem maxWidth_le_iff (ws : List Nat) (k : Nat) : maxWidth ws ≤ k ↔ ∀ w ∈ ws, w ≤ k := by
  rw [maxWidth, foldl_max_le_iff, and_iff_right k.zero_le]

theorem le_maxWidth {ws : List Nat} {w : Nat} (hw : w ∈ ws) : w ≤ maxWidth ws := (maxWidth_le_iff ws _).1 le_rfl w hw

theorem widths_le_wordSize {V : List Word} {w : Nat} (hw : w ∈ widths V) : w ≤ 32 := by
  obtain ⟨v, -, rfl⟩ := List.mem_map.1 hw
  exact bitlen_le_wordSize v

/-! ## The count, for any list of widths -/

theorem exceptionCount_eq_zero_iff (ws : List Nat) (b : Nat) : exceptionCount ws b = 0 ↔ ∀ w ∈ ws, w ≤ b := by
  simp [exceptionCount, List.countP_eq_zero]

@[simp] theorem exceptionCount_maxWidth (ws : List Nat) : exceptionCount ws (maxWidth ws) = 0 :=
  (exceptionCount_eq_zero_iff ws _).2 fun _ => le_maxWidth

theorem exceptionCount_le_of_le (ws : List Nat) {b c : Nat} (h : b ≤ c) : exceptionCount ws c ≤ exceptionCount ws b := by
  refine List.countP_mono_left fun w _ hw => ?_
  simp only [decide_eq_true_eq] at *
  omega

/-- The count grows by one histogram entry: a width above `b` is above `b + 1`, or is `b + 1`. -/
theorem exceptionCount_eq_succ_add_count (ws : List Nat) (b : Nat) : exceptionCount ws b = exceptionCount ws (b + 1) + ws.count (b + 1) := by
  induction ws with
  | nil => rfl
  | cons w ws ih =>
    simp only [exceptionCount, List.countP_cons, List.count_cons, decide_eq_true_eq, beq_iff_eq] at *
    split_ifs <;> omega

/-- The histogram entries above `b`, up to `n`, are what the count at `b` has more than the count at `n`. -/
theorem exceptionCount_eq_sum_add (ws : List Nat) (b n : Nat) :
    exceptionCount ws b = ((List.range (n + 1)).map fun k => if b < k then ws.count k else 0).sum + exceptionCount ws (max b n) := by
  induction n with
  | zero => simp
  | succ n ih =>
    rw [List.sum_range_succ, ih]
    by_cases h : b < n + 1
    · have hacc := exceptionCount_eq_succ_add_count ws n
      rw [if_pos h, max_eq_right (by omega : b ≤ n), max_eq_right h.le]
      omega
    · rw [if_neg h, max_eq_left (by omega : n ≤ b), max_eq_left (by omega : n + 1 ≤ b), add_zero]

/-! ## The count, for the widths of a block -/

/-- A word is wider than `b` bits exactly when a shift by `b` leaves something. -/
theorem ushiftRight_eq_zero_iff (v : Word) (b : Nat) : v >>> b = 0 ↔ bitlen v ≤ b := by
  rw [bitlen_le_iff, ← BitVec.toNat_inj, BitVec.toNat_ushiftRight, Nat.shiftRight_eq_div_pow]
  exact Nat.div_eq_zero_iff_lt (Nat.two_pow_pos b)

theorem exceptionCount_widths_eq_sum (V : List Word) (b : Nat) :
    exceptionCount (widths V) b = ((List.range 33).map fun k => if b < k then (widths V).count k else 0).sum := by
  have hnone : exceptionCount (widths V) (max b 32) = 0 :=
    (exceptionCount_eq_zero_iff _ _).2 fun _ hw => (widths_le_wordSize hw).trans (le_max_right b 32)
  rw [exceptionCount_eq_sum_add _ b 32, hnone, Nat.add_zero]

theorem exceptionCount_widths_eq_length_filter (V : List Word) (b : Nat) :
    exceptionCount (widths V) b = (V.filter fun v : Word => decide (v >>> b ≠ 0)).length := by
  rw [exceptionCount, widths, List.countP_map, ← List.countP_eq_length_filter]
  refine List.countP_congr fun v _ => ?_
  simp only [Function.comp_apply, decide_eq_true_eq, ne_eq, ushiftRight_eq_zero_iff, Nat.not_le]

/-- Settles O26: the count by its definition, by its accumulation over the histogram, and by the words a shift does not clear. -/
theorem exceptionsAccumulate : Obligations.ExceptionsAccumulate := by
  intro V
  exact ⟨fun _ => List.countP_eq_length_filter, exceptionCount_widths_eq_sum V, exceptionCount_maxWidth _,
    fun b _ => exceptionCount_widths_eq_length_filter V b, exceptionCount_eq_succ_add_count _, fun _ _ => exceptionCount_le_of_le _⟩

end Sys2Proof.Proofs
end

