-- ==== Sys2Proof/Proofs/Patching.lean ====
section
/-! PROOF. Patching (43_for_patched.md R168). The exceptions are patched in order of position, so the block is restored from its front: what is before the next position is
already the block, what is from there on is still truncated. -/

namespace Sys2Proof.Proofs

open Sys2Proof.Machine

/-! ## One patch -/

/-- A patch changes its one position by an OR of the shifted high bits. -/
theorem getElem?_patch (b p : Nat) (h : Word) (U : List Word) (j : Nat) :
    (patch b U p h)[j]? = if j = p then U[j]?.map (· ||| h <<< b) else U[j]? := by
  rw [patch, List.getElem?_modify]
  by_cases hj : j = p
  · simp [hj]
  · simp [hj, Ne.symm hj]

theorem patch_append_cons (b : Nat) (h u : Word) (A U : List Word) :
    patch b (A ++ u :: U) A.length h = A ++ (u ||| h <<< b) :: U := by
  simp [patch, List.modify_eq_take_cons_drop]

/-! ## A truncated word -/

/-- The low `b` bits of a word. -/
def truncate (b : Nat) (v : Word) : Word := BitVec.ofNat 32 (v.toNat % 2 ^ b)

theorem truncate_or_highBits (b : Nat) (v : Word) : truncate b v ||| v >>> b <<< b = v := by
  refine BitVec.eq_of_getLsbD_eq fun i hi => ?_
  simp only [truncate, BitVec.getLsbD_or, BitVec.getLsbD_ofNat, BitVec.getLsbD_shiftLeft, BitVec.getLsbD_ushiftRight, Nat.testBit_mod_two_pow,
    BitVec.testBit_toNat, hi]
  by_cases hb : i < b
  · simp [hb]
  · simp [hb, Nat.add_sub_cancel' (Nat.not_lt.1 hb)]

/-- Truncation changes exceptions only. -/
theorem truncate_eq_self {b : Nat} {v : Word} (h : v >>> b = 0) : truncate b v = v := by
  simpa [h] using truncate_or_highBits b v

/-! ## All the exceptions of a block -/

theorem foldl_patch_exceptionsFrom (b : Nat) (A V : List Word) :
    (exceptionsFrom b A.length V).foldl (fun U e => patch b U e.1 e.2) (A ++ V.map (truncate b)) = A ++ V := by
  induction V generalizing A with
  | nil => simp [exceptionsFrom]
  | cons v V ih =>
    have ih' := ih (A ++ [v])
    simp only [List.length_append, List.length_singleton, List.append_assoc, List.singleton_append] at ih'
    rw [exceptionsFrom, List.map_cons]
    split
    case isTrue h => rw [truncate_eq_self h, ih']
    case isFalse h => rw [List.foldl_cons, patch_append_cons, truncate_or_highBits, ih']

/-- Settles O29: one patch position by position, and the restoration from position 0 on. -/
theorem patchingRestoresTheBlock : Obligations.PatchingRestoresTheBlock :=
  ⟨getElem?_patch, fun b V _ => foldl_patch_exceptionsFrom b [] V⟩

end Sys2Proof.Proofs
end

