-- ==== Sys2Proof/Proofs/SelectorCodec.lean ====
section
/-! PROOF. The selector codecs Simple9 and Simple16 (44_selectorcodec.md): the first fit, the selector word, and the loop of the compress. Beyond the walk over a table,
the proofs need only what both tables share (`IsSelectorTable`). -/

namespace Sys2Proof.Proofs

open Sys2Proof.Machine

/-! ## The tables -/

/-- What both tables have: a selector goes into four bits, a layout has a slot and goes into the payload, and there is the layout of one slot of 28 bits. -/
structure IsSelectorTable (T : Layouts) : Prop where
  length_le : T.length ≤ 16
  length_pos : ∀ l ∈ T, 0 < l.length
  sum_le : ∀ l ∈ T, l.sum ≤ 28
  single_mem : [28] ∈ T

theorem isSelectorTable_simple9 : IsSelectorTable simple9 := ⟨by decide, by decide, by decide, by decide⟩

theorem isSelectorTable_simple16 : IsSelectorTable simple16 := ⟨by decide, by decide, by decide, by decide⟩

theorem isSelectorTable_of_mem {T : Layouts} (h : T ∈ [simple9, simple16]) : IsSelectorTable T := by
  simp only [List.mem_cons, List.not_mem_nil, or_false] at h
  obtain rfl | rfl := h
  · exact isSelectorTable_simple9
  · exact isSelectorTable_simple16

/-- Settles O31: the tables are the rows the spec lists. -/
theorem selectorTablesAsWritten : Obligations.SelectorTablesAsWritten :=
  ⟨rfl, by decide, rfl, rfl, rfl⟩

/-! ## Which values fit a layout -/

@[simp] theorem fitsSlots_nil_left (A : List Word) : FitsSlots [] A := by simp [FitsSlots]

@[simp] theorem fitsSlots_nil_right (l : List Nat) : FitsSlots l [] := by simp [FitsSlots]

@[simp] theorem fitsSlots_cons_cons (w : Nat) (l : List Nat) (v : Word) (A : List Word) :
    FitsSlots (w :: l) (v :: A) ↔ v.toNat < 2 ^ w ∧ FitsSlots l A := by
  constructor
  · exact fun h => ⟨h 0 w v rfl rfl, fun j => h (j + 1)⟩
  · rintro ⟨hv, hA⟩ (_ | j) w' v' hw' hv'
    · cases hw'; cases hv'; exact hv
    · exact hA j w' v' hw' hv'

theorem fits_iff (l : List Nat) (A : List Word) : fits l A = true ↔ FitsSlots l A := by
  induction l generalizing A with
  | nil => simp [fits]
  | cons w l ih => cases A <;> simp [fits, ih]

/-- A value that fits a slot of a layout is below `2 ^ 28`, as no slot is wider than the payload. -/
theorem lt_of_fitsSlots {l : List Nat} {A : List Word} (hsum : l.sum ≤ 28) (h : FitsSlots l A) {v : Word} (hv : v ∈ A.take l.length) :
    v.toNat < 2 ^ 28 := by
  obtain ⟨j, hj⟩ := List.mem_iff_getElem?.1 hv
  rw [List.getElem?_take, Option.ite_none_right_eq_some] at hj
  obtain ⟨hjl, hA⟩ := hj
  have hslot : l[j] ≤ 28 := (List.le_sum_of_mem (List.getElem_mem hjl)).trans hsum
  exact (h j _ v (List.getElem?_eq_getElem hjl) hA).trans_le (Nat.pow_le_pow_right (by decide) hslot)

/-! ## The first fit -/

theorem firstFit_cons_of_fits {l : List Nat} {A : List Word} (T : Layouts) (k : Nat) (h : FitsSlots l A) :
    firstFit (l :: T) k A = some (k, l) := if_pos ((fits_iff l A).2 h)

theorem firstFit_cons_of_not_fits {l : List Nat} {A : List Word} (T : Layouts) (k : Nat) (h : ¬ FitsSlots l A) :
    firstFit (l :: T) k A = firstFit T (k + 1) A := if_neg (mt (fits_iff l A).1 h)

/-- A search that starts one number later finds a selector one larger. -/
theorem firstFit_succ (T : Layouts) (k : Nat) (A : List Word) :
    firstFit T (k + 1) A = (firstFit T k A).map (Prod.map (· + 1) id) := by
  induction T generalizing k with
  | nil => rfl
  | cons l T ih =>
    by_cases h : FitsSlots l A
    · simp [firstFit_cons_of_fits, h]
    · simp only [firstFit_cons_of_not_fits, h, not_false_eq_true, ih]

theorem firstFit_eq_none_iff (T : Layouts) (k : Nat) (A : List Word) : firstFit T k A = none ↔ ∀ l ∈ T, ¬ FitsSlots l A := by
  induction T generalizing k with
  | nil => simp [firstFit]
  | cons l T ih =>
    by_cases h : FitsSlots l A
    · simp [firstFit_cons_of_fits, h]
    · simp [firstFit_cons_of_not_fits, h, ih]

/-- Behind a layout that does not fit, the selectors to rule out are those of the rest of the table. -/
theorem no_earlier_fit_cons_iff {l₀ : List Nat} {A : List Word} (h : ¬ FitsSlots l₀ A) (T : Layouts) (s : Nat) :
    (∀ s' l', s' < s + 1 → (l₀ :: T)[s']? = some l' → ¬ FitsSlots l' A) ↔ ∀ s' l', s' < s → T[s']? = some l' → ¬ FitsSlots l' A := by
  constructor
  · exact fun hlt s' l' hs' => hlt (s' + 1) l' (by omega)
  · rintro hlt (_ | s') l' hs' hl'
    · cases hl'; exact h
    · exact hlt s' l' (by omega) hl'

/-- The search finds the first layout of the table that fits. -/
theorem firstFit_eq_some_iff (T : Layouts) (A : List Word) (s : Nat) (l : List Nat) :
    firstFit T 0 A = some (s, l) ↔ T[s]? = some l ∧ FitsSlots l A ∧ ∀ s' l', s' < s → T[s']? = some l' → ¬ FitsSlots l' A := by
  induction T generalizing s with
  | nil => simp [firstFit]
  | cons l₀ T ih =>
    by_cases h : FitsSlots l₀ A
    · rw [firstFit_cons_of_fits T 0 h]
      cases s with
      | zero =>
        constructor
        · rintro ⟨⟩
          exact ⟨rfl, h, fun s' _ hs' => absurd hs' s'.not_lt_zero⟩
        · rintro ⟨⟨⟩, -, -⟩
          rfl
      | succ s => exact iff_of_false (by simp) fun ⟨_, _, hfirst⟩ => hfirst 0 l₀ s.succ_pos rfl h
    · rw [firstFit_cons_of_not_fits T 0 h, firstFit_succ]
      cases s with
      | zero =>
        refine iff_of_false (by simp) ?_
        rintro ⟨⟨⟩, hl, -⟩
        exact h hl
      | succ s =>
        rw [List.getElem?_cons_succ, no_earlier_fit_cons_iff h, ← ih]
        simp

theorem layout_mem_of_firstFit {T : Layouts} {A : List Word} {s : Nat} {l : List Nat} (h : firstFit T 0 A = some (s, l)) : l ∈ T :=
  List.mem_of_getElem? ((firstFit_eq_some_iff T A s l).1 h).1

theorem fitsSlots_of_firstFit {T : Layouts} {A : List Word} {s : Nat} {l : List Nat} (h : firstFit T 0 A = some (s, l)) : FitsSlots l A :=
  ((firstFit_eq_some_iff T A s l).1 h).2.1

/-! ## The payload -/

theorem payload_lt {l : List Nat} {A : List Word} (h : FitsSlots l A) : payload l A < 2 ^ (l.take A.length).sum := by
  induction l generalizing A with
  | nil => simp [payload]
  | cons w l ih =>
    cases A with
    | nil => simp [payload]
    | cons v A =>
      obtain ⟨hv, hA⟩ := (fitsSlots_cons_cons w l v A).1 h
      calc payload (w :: l) (v :: A) = v.toNat + 2 ^ w * payload l A := rfl
        _ < 2 ^ w * (payload l A + 1) := by rw [Nat.mul_add_one]; omega
        _ ≤ 2 ^ w * 2 ^ (l.take A.length).sum := Nat.mul_le_mul_left _ (ih hA)
        _ = 2 ^ ((w :: l).take (v :: A).length).sum := by simp [pow_add]

/-- Value `j` stands at the sum of the widths before slot `j`. -/
theorem payload_slot {l : List Nat} {A : List Word} (h : FitsSlots l A) {j w : Nat} {v : Word} (hw : l[j]? = some w) (hv : A[j]? = some v) :
    payload l A / 2 ^ (l.take j).sum % 2 ^ w = v.toNat := by
  induction l generalizing A j with
  | nil => simp at hw
  | cons w₀ l ih =>
    cases A with
    | nil => simp at hv
    | cons v₀ A =>
      obtain ⟨hv₀, hA⟩ := (fitsSlots_cons_cons w₀ l v₀ A).1 h
      cases j with
      | zero =>
        cases hw; cases hv
        simp [payload, Nat.mod_eq_of_lt hv₀]
      | succ j =>
        have hrest : payload (w₀ :: l) (v₀ :: A) / 2 ^ w₀ = payload l A := by
          rw [payload, Nat.add_mul_div_left _ _ (Nat.two_pow_pos w₀), Nat.div_eq_of_lt hv₀, Nat.zero_add]
        rw [List.take_succ_cons, List.sum_cons, pow_add, ← Nat.div_div_eq_div_mul, hrest]
        exact ih hA hw hv

/-! ## The selector word -/

theorem sum_take_le (l : List Nat) (j : Nat) : (l.take j).sum ≤ l.sum := (List.take_sublist j l).sum_le_sum (by simp)

theorem sum_take_add_le {l : List Nat} {j w : Nat} (hw : l[j]? = some w) : (l.take j).sum + w ≤ l.sum := by
  obtain ⟨hj, rfl⟩ := List.getElem?_eq_some_iff.1 hw
  rw [← List.sum_take_succ l j hj]
  exact sum_take_le l (j + 1)

section
variable {T : Layouts} {A : List Word} {s : Nat} {l : List Nat}

/-- The selector goes into four bits and the payload into 28, so nothing of the word is cut off. -/
theorem toNat_selectorWord (hT : IsSelectorTable T) (h : firstFit T 0 A = some (s, l)) :
    (selectorWord s l A).toNat = s * 2 ^ 28 + payload l A ∧ payload l A < 2 ^ 28 := by
  obtain ⟨hs, hfits, -⟩ := (firstFit_eq_some_iff T A s l).1 h
  have hs16 : s < 16 := (List.getElem?_eq_some_iff.1 hs).1.trans_le hT.length_le
  have hp : payload l A < 2 ^ 28 := (payload_lt hfits).trans_le
    (Nat.pow_le_pow_right (by decide) ((sum_take_le l _).trans (hT.sum_le l (layout_mem_of_firstFit h))))
  rw [selectorWord, BitVec.toNat_ofNat]
  omega

theorem selectorWord_div (hT : IsSelectorTable T) (h : firstFit T 0 A = some (s, l)) : (selectorWord s l A).toNat / 2 ^ 28 = s := by
  obtain ⟨hw, hp⟩ := toNat_selectorWord hT h
  omega

theorem selectorWord_mod (hT : IsSelectorTable T) (h : firstFit T 0 A = some (s, l)) : (selectorWord s l A).toNat % 2 ^ 28 = payload l A := by
  obtain ⟨hw, hp⟩ := toNat_selectorWord hT h
  omega

/-- A field of a number's low bits is that field of the number. -/
theorem mod_two_pow_div_mod {o w k : Nat} (n : Nat) (h : o + w ≤ k) : n % 2 ^ k / 2 ^ o % 2 ^ w = n / 2 ^ o % 2 ^ w := by
  obtain ⟨d, rfl⟩ := Nat.exists_eq_add_of_le (Nat.le_of_add_right_le h)
  rw [pow_add, Nat.mod_mul_right_div_self, Nat.mod_mod_of_dvd _ (pow_dvd_pow 2 (by omega))]

theorem selectorWord_slot (hT : IsSelectorTable T) (h : firstFit T 0 A = some (s, l)) {j w : Nat} {v : Word} (hw : l[j]? = some w)
    (hv : A[j]? = some v) : (selectorWord s l A).toNat / 2 ^ (l.take j).sum % 2 ^ w = v.toNat := by
  have hslot : (l.take j).sum + w ≤ 28 := (sum_take_add_le hw).trans (hT.sum_le l (layout_mem_of_firstFit h))
  rw [← mod_two_pow_div_mod _ hslot, selectorWord_mod hT h]
  exact payload_slot (fitsSlots_of_firstFit h) hw hv

end

/-! ## The loop of the compress -/

@[simp] theorem selectorWords_nil (T : Layouts) (n : Nat) : selectorWords T n [] = .ok [] := by cases n <;> rfl

theorem selectorWords_cons_of_none {T : Layouts} {v : Word} {A : List Word} (h : firstFit T 0 (v :: A) = none) (n : Nat) :
    selectorWords T (n + 1) (v :: A) = .error ⟨.valueTooLarge, v⟩ := by
  simp only [selectorWords, h]

theorem selectorWords_cons_of_some {T : Layouts} {v : Word} {A : List Word} {s : Nat} {l : List Nat} (h : firstFit T 0 (v :: A) = some (s, l))
    (n : Nat) :
    selectorWords T (n + 1) (v :: A) = (selectorWords T n ((v :: A).drop l.length)).map (selectorWord s l (v :: A) :: ·) := by
  simp only [selectorWords, h]
  rfl

/-- A round takes at least one value. -/
theorem length_drop_le_of_firstFit {T : Layouts} (hT : IsSelectorTable T) {v : Word} {A : List Word} {s : Nat} {l : List Nat}
    (h : firstFit T 0 (v :: A) = some (s, l)) : ((v :: A).drop l.length).length ≤ A.length := by
  have hpos := hT.length_pos l (layout_mem_of_firstFit h)
  rw [List.length_drop, List.length_cons]
  omega

/-- Rounds beyond the number of values change nothing. -/
theorem selectorWords_eq_of_length_le {T : Layouts} (hT : IsSelectorTable T) {n : Nat} {A : List Word} (hn : A.length ≤ n) :
    selectorWords T n A = selectorWords T A.length A := by
  induction n using Nat.strong_induction_on generalizing A with
  | _ n ih =>
    cases A with
    | nil => simp
    | cons v A =>
      obtain ⟨m, rfl⟩ := Nat.exists_eq_add_one_of_ne_zero (Nat.ne_zero_of_lt hn)
      rw [List.length_cons] at hn ⊢
      cases hf : firstFit T 0 (v :: A) with
      | none => rw [selectorWords_cons_of_none hf, selectorWords_cons_of_none hf]
      | some p =>
        have hle := length_drop_le_of_firstFit hT hf
        rw [selectorWords_cons_of_some hf, selectorWords_cons_of_some hf, ih m (by omega) (by omega), ih A.length (by omega) hle]

/-- The values the compress faults on (R224). -/
def isTooLarge (v : Word) : Bool := decide (2 ^ 28 ≤ v.toNat)

/-- A first value that no layout takes is too large, as the layout of one slot of 28 bits does not take it. -/
theorem isTooLarge_of_firstFit_none {T : Layouts} (hT : IsSelectorTable T) {v : Word} {A : List Word} (h : firstFit T 0 (v :: A) = none) :
    isTooLarge v := by
  have hnot := (firstFit_eq_none_iff T 0 _).1 h [28] hT.single_mem
  simpa [isTooLarge] using hnot

/-- The values a round takes are not too large, so the first one that is comes after them. -/
theorem find?_isTooLarge_of_firstFit {T : Layouts} (hT : IsSelectorTable T) {A : List Word} {s : Nat} {l : List Nat}
    (h : firstFit T 0 A = some (s, l)) : A.find? isTooLarge = (A.drop l.length).find? isTooLarge := by
  have hnone : (A.take l.length).find? isTooLarge = none := by
    simp only [List.find?_eq_none, isTooLarge, decide_eq_true_eq, Nat.not_le]
    exact fun v hv => lt_of_fitsSlots (hT.sum_le l (layout_mem_of_firstFit h)) (fitsSlots_of_firstFit h) hv
  calc A.find? isTooLarge = (A.take l.length ++ A.drop l.length).find? isTooLarge := by rw [List.take_append_drop]
    _ = (A.drop l.length).find? isTooLarge := by rw [List.find?_append, hnone, Option.none_or]

theorem exceptMap_eq_error_iff {ε α β : Type} (f : α → β) (x : Except ε α) (e : ε) : x.map f = .error e ↔ x = .error e := by
  cases x <;> simp [Except.map]

theorem selectorWords_eq_error_iff {T : Layouts} (hT : IsSelectorTable T) (t : Trap) {n : Nat} {A : List Word} (hn : A.length ≤ n) :
    selectorWords T n A = .error t ↔ ∃ v, A.find? isTooLarge = some v ∧ t = ⟨.valueTooLarge, v⟩ := by
  induction n generalizing A with
  | zero => simp [List.length_eq_zero_iff.1 (Nat.le_zero.1 hn)]
  | succ n ih =>
    cases A with
    | nil => simp
    | cons v A =>
      rw [List.length_cons] at hn
      cases hf : firstFit T 0 (v :: A) with
      | none =>
        rw [selectorWords_cons_of_none hf, List.find?_cons_of_pos (isTooLarge_of_firstFit_none hT hf)]
        simp [eq_comm]
      | some p =>
        have hle := length_drop_le_of_firstFit hT hf
        rw [selectorWords_cons_of_some hf, exceptMap_eq_error_iff, ih (by omega), ← find?_isTooLarge_of_firstFit hT hf]

/-! ## The compress and the estimate -/

theorem selectorCompress_eq (T : Layouts) (A : List Word) : selectorCompress T A = (selectorWords T A.length A).map (A.length, ·) := rfl

theorem selectorEstimate_eq (T : Layouts) (A : List Word) : selectorEstimate T A = (selectorWords T A.length A).map List.length := rfl

/-- What a compress consumes and writes. -/
theorem selectorCompress_eq_ok_iff (T : Layouts) (A : List Word) (n : Nat) (out : List Word) :
    selectorCompress T A = .ok (n, out) ↔ n = A.length ∧ selectorWords T A.length A = .ok out := by
  rw [selectorCompress_eq]
  cases selectorWords T A.length A <;> simp [Except.map, eq_comm]

/-- Settles O32: both are the loop's answer, mapped, and the loop's faults are `selectorWords_eq_error_iff`. -/
theorem selectorFaultsOnFirstLargeValue : Obligations.SelectorFaultsOnFirstLargeValue := by
  intro T A t hmem
  have hT := isSelectorTable_of_mem hmem
  refine ⟨?_, ?_, fun n out h => ?_, rfl⟩
  · exact (exceptMap_eq_error_iff _ _ t).trans (selectorWords_eq_error_iff hT t le_rfl)
  · rw [selectorEstimate_eq, selectorCompress_eq, exceptMap_eq_error_iff, exceptMap_eq_error_iff]
  · obtain ⟨hn, hout⟩ := (selectorCompress_eq_ok_iff T A n out).1 h
    exact ⟨hn, by rw [selectorEstimate_eq, hout]; rfl⟩

/-- One round of the compress, and the compress of the values after it. -/
theorem selectorCompress_of_firstFit {T : Layouts} (hT : IsSelectorTable T) {A : List Word} {s : Nat} {l : List Nat} (hA : A ≠ [])
    (h : firstFit T 0 A = some (s, l)) {n : Nat} {out : List Word} (hrest : selectorCompress T (A.drop l.length) = .ok (n, out)) :
    selectorCompress T A = .ok (A.length, selectorWord s l A :: out) := by
  obtain ⟨v, A, rfl⟩ := List.exists_cons_of_ne_nil hA
  obtain ⟨-, hout⟩ := (selectorCompress_eq_ok_iff T _ n out).1 hrest
  refine (selectorCompress_eq_ok_iff T _ _ _).2 ⟨rfl, ?_⟩
  rw [List.length_cons, selectorWords_cons_of_some h, selectorWords_eq_of_length_le hT (length_drop_le_of_firstFit hT h), hout]
  rfl

/-- Settles O33: the first fit, the fields of its word, and one round of the loop. -/
theorem selectorWordHoldsTheFirstFit : Obligations.SelectorWordHoldsTheFirstFit := by
  intro T A s l hmem
  have hT := isSelectorTable_of_mem hmem
  refine ⟨firstFit_eq_some_iff T A s l, fun h => ⟨selectorWord_div hT h, hT.sum_le l (layout_mem_of_firstFit h), ?_, fun j w v => selectorWord_slot hT h⟩,
    rfl, fun hA h n out => selectorCompress_of_firstFit hT hA h⟩
  rw [selectorWord_mod hT h]
  exact payload_lt (fitsSlots_of_firstFit h)

end Sys2Proof.Proofs
end

