-- ==== Sys2Proof/Proofs/Zigzag.lean ====
section
/-! PROOF. The arithmetic of the DeltaZigzag filter (45_deltazigzag.md R250, R251). `zigzag` and `unzigzag` are a shift by one, exclusive-ored with one bit spread over the
word: the sign, and bit 0. The numbers follow from the two values of the sign, the inverses from what each bit is. -/

namespace Sys2Proof.Proofs

open Sys2Proof.Machine

/-! ## The two masks -/

/-- The arithmetic shift by 31 spreads the sign over the word. -/
theorem sshiftRight_31_eq_fill (n : Word) : n.sshiftRight 31 = BitVec.fill 32 n.msb := by
  refine BitVec.eq_of_getElem_eq fun i hi => ?_
  rw [BitVec.getElem_sshiftRight, BitVec.getElem_fill]
  split
  · obtain rfl : i = 0 := by omega
    exact (BitVec.msb_eq_getLsbD_last n).symm
  · rfl

/-- The negated lowest bit spreads that bit over the word. -/
theorem zero_sub_and_one_eq_fill (z : Word) : (0 : Word) - (z &&& (1 : Word)) = BitVec.fill 32 z[0] := by
  have hlow : z &&& (1 : Word) = (BitVec.ofBool z[0]).setWidth 32 := BitVec.and_one_eq_setWidth_ofBool_getLsbD
  rw [hlow]
  cases z[0] <;> decide

theorem zigzag_eq_xor_fill (n : Word) : zigzag n = n <<< 1 ^^^ BitVec.fill 32 n.msb := by
  rw [zigzag, sshiftRight_31_eq_fill]

theorem unzigzag_eq_xor_fill (z : Word) : unzigzag z = z >>> 1 ^^^ BitVec.fill 32 z[0] := by
  rw [unzigzag, zero_sub_and_one_eq_fill]

/-! ## `zigzag` as numbers -/

theorem toNat_zigzag_of_nonneg {n : Word} (h : 0 ≤ n.toInt) : ((zigzag n).toNat : Int) = 2 * n.toInt := by
  have hmsb : n.msb = false := by simpa [BitVec.msb_eq_toInt] using h
  have hlt : 2 * n.toNat < 2 ^ 32 := BitVec.msb_eq_false_iff_two_mul_lt.1 hmsb
  rw [zigzag_eq_xor_fill, hmsb, BitVec.fill_false, BitVec.xor_zero, BitVec.toNat_shiftLeft, Nat.shiftLeft_eq,
    BitVec.toInt_eq_toNat_of_msb hmsb]
  omega

/-- A negative word is shifted and complemented. -/
theorem toNat_zigzag_of_neg {n : Word} (h : n.toInt < 0) : ((zigzag n).toNat : Int) = -2 * n.toInt - 1 := by
  have hmsb : n.msb = true := by simpa [BitVec.msb_eq_toInt] using h
  have hge : 2 ^ 32 ≤ 2 * n.toNat := BitVec.msb_eq_true_iff_two_mul_ge.1 hmsb
  rw [zigzag_eq_xor_fill, hmsb, BitVec.fill_true, BitVec.xor_allOnes, BitVec.toNat_not, BitVec.toNat_shiftLeft, Nat.shiftLeft_eq,
    BitVec.toInt_eq_msb_cond, if_pos hmsb]
  have hlt := n.isLt
  omega

/-! ## The bits of `zigzag` and `unzigzag` -/

@[simp] theorem getElem_zigzag_zero (n : Word) : (zigzag n)[0] = n.msb := by
  simp [zigzag_eq_xor_fill]

@[simp] theorem getElem_zigzag_succ (n : Word) {i : Nat} (hi : i + 1 < 32) : (zigzag n)[i + 1] = (n[i] ^^ n.msb) := by
  simp [zigzag_eq_xor_fill]

@[simp] theorem msb_unzigzag (z : Word) : (unzigzag z).msb = z[0] := by
  simp [unzigzag_eq_xor_fill]

theorem getElem_unzigzag (z : Word) {i : Nat} (hi : i < 32) : (unzigzag z)[i] = (z.getLsbD (i + 1) ^^ z[0]) := by
  simp [unzigzag_eq_xor_fill, Nat.add_comm]

/-! ## The bijection -/

/-- Below the top, a bit comes back from the next one; the top bit comes back from bit 0, where `zigzag` put the sign. -/
@[simp] theorem unzigzag_zigzag (n : Word) : unzigzag (zigzag n) = n := by
  refine BitVec.eq_of_getElem_eq fun i hi => ?_
  rw [getElem_unzigzag]
  rcases Nat.lt_or_ge (i + 1) 32 with hlt | hge
  · simp [hlt]
  · obtain rfl : i = 31 := by omega
    simp [BitVec.msb_eq_getLsbD_last]

/-- Bit 0 comes back from the sign, where `unzigzag` put it; every other bit comes back from the one below. -/
@[simp] theorem zigzag_unzigzag (z : Word) : zigzag (unzigzag z) = z := by
  refine BitVec.eq_of_getElem_eq fun i hi => ?_
  cases i with
  | zero => rw [getElem_zigzag_zero, msb_unzigzag]
  | succ i => simp [getElem_unzigzag, hi]

/-- Settles O35: the formula is the definition; the numbers by the sign; the inverses bit by bit. -/
theorem zigzagIsABijection : Obligations.ZigzagIsABijection :=
  ⟨fun _ => rfl, fun _ => toNat_zigzag_of_nonneg, fun _ => toNat_zigzag_of_neg, unzigzag_zigzag, zigzag_unzigzag⟩

end Sys2Proof.Proofs
end

