-- ==== Sys2Proof/Proofs/VariableByte.lean ====
section
/-! PROOF. VariableByte's bytes (46_variablebyte.md R265) and their packing into words (R266). The bytes of a value are its digits in base 128 (`IsVbytes`), and each clause
is an induction over the digits; a byte list becomes words four bytes at a time, a short last group padded with 0. -/

namespace Sys2Proof.Proofs

open Sys2Proof.Machine

/-! ## The bytes of a value -/

/-- The bytes that R265 gives a number, however long it is: a last byte below 128, or the low group with the continuation bit and then the bytes of the rest. -/
inductive IsVbytes : Nat → List Byte → Prop
  | last {v : Nat} (hv : v < 128) : IsVbytes v [BitVec.ofNat 8 v]
  | more {v : Nat} {Y : List Byte} (hv : 128 ≤ v) (rest : IsVbytes (v / 128) Y) : IsVbytes v (BitVec.ofNat 8 (v % 128 + 128) :: Y)

/-- The loop's bound on the number of bytes cuts nothing off a number of at most that many groups. -/
theorem isVbytes_vbytesFrom {more v : Nat} (hv : v < 128 ^ (more + 1)) : IsVbytes v (vbytesFrom more v) := by
  induction more generalizing v with
  | zero => exact .last hv
  | succ more ih =>
    unfold vbytesFrom
    split
    case isTrue h => exact .more h (ih (Nat.div_lt_of_lt_mul (by rwa [← pow_succ'])))
    case isFalse h => exact .last (Nat.lt_of_not_le h)

/-- Five groups are enough for a word. -/
theorem isVbytes_vbytes (v : Word) : IsVbytes v.toNat (vbytes v) := isVbytes_vbytesFrom (v.isLt.trans (by decide))

theorem toNat_lastByte {v : Nat} (hv : v < 128) : (BitVec.ofNat 8 v).toNat = v := by
  rw [BitVec.toNat_ofNat]
  omega

theorem toNat_continuationByte (v : Nat) : (BitVec.ofNat 8 (v % 128 + 128)).toNat = v % 128 + 128 := by
  rw [BitVec.toNat_ofNat]
  omega

theorem ne_nil_of_isVbytes {v : Nat} {Y : List Byte} (h : IsVbytes v Y) : Y ≠ [] := by
  cases h <;> exact List.cons_ne_nil _ _

/-- There are as many bytes as digits in base 128. -/
theorem length_le_iff_of_isVbytes {v : Nat} {Y : List Byte} (h : IsVbytes v Y) (k : Nat) : Y.length ≤ k + 1 ↔ v < 128 ^ (k + 1) := by
  induction h generalizing k with
  | last hv =>
    have hpow : 128 ≤ 128 ^ (k + 1) := Nat.le_self_pow k.succ_ne_zero 128
    simpa using hv.trans_le hpow
  | more hv rest ih =>
    have hpos := List.length_pos_of_ne_nil (ne_nil_of_isVbytes rest)
    rw [List.length_cons, Nat.add_le_add_iff_right]
    cases k with
    | zero => omega
    | succ k => rw [ih, Nat.div_lt_iff_lt_mul (by decide), ← pow_succ]

/-- Both sides have the same upper bounds: `k` bytes are enough exactly when `7 * k` bits are. -/
theorem length_vbytes (v : Word) : (vbytes v).length = max 1 ((bitlen v + 6) / 7) := by
  have hpos := List.length_pos_of_ne_nil (ne_nil_of_isVbytes (isVbytes_vbytes v))
  refine eq_of_forall_ge_iff fun k => ?_
  cases k with
  | zero => omega
  | succ k =>
    have hbits : (vbytes v).length ≤ k + 1 ↔ bitlen v ≤ 7 * (k + 1) := by
      rw [length_le_iff_of_isVbytes (isVbytes_vbytes v), bitlen_le_iff, pow_mul]
      rfl
    rw [hbits]
    omega

theorem continuationBit_of_isVbytes {v : Nat} {Y : List Byte} (h : IsVbytes v Y) : ∀ b ∈ Y.dropLast, 128 ≤ b.toNat := by
  induction h with
  | last => simp
  | more hv rest ih =>
    rw [List.dropLast_cons_of_ne_nil (ne_nil_of_isVbytes rest), List.forall_mem_cons, toNat_continuationByte]
    exact ⟨by omega, ih⟩

/-- A group that is written after another is not of 0: the number before it had more than seven bits. -/
theorem lastByte_of_isVbytes {v : Nat} {Y : List Byte} (h : IsVbytes v Y) (b : Byte) (hb : Y.getLast? = some b) :
    b.toNat < 128 ∧ (b = 0 → v = 0) := by
  induction h with
  | last hv =>
    rw [List.getLast?_singleton, Option.some_inj] at hb
    rw [← hb, ← BitVec.toNat_inj, toNat_lastByte hv]
    exact ⟨hv, id⟩
  | more hv rest ih =>
    rw [List.getLast?_cons_of_ne_nil (ne_nil_of_isVbytes rest)] at hb
    obtain ⟨hlt, hzero⟩ := ih hb
    exact ⟨hlt, fun h0 => by have := hzero h0; omega⟩

/-- What R265 reads a byte list as: the low seven bits of byte `k` count `2^(7k)`. -/
def groupsValue (Y : List Byte) : Nat := ((List.range Y.length).map fun k => (Y.getD k 0).toNat % 128 * 2 ^ (7 * k)).sum

@[simp] theorem groupsValue_nil : groupsValue [] = 0 := rfl

@[simp] theorem groupsValue_cons (b : Byte) (Y : List Byte) : groupsValue (b :: Y) = b.toNat % 128 + 128 * groupsValue Y := by
  simp only [groupsValue, List.length_cons, List.range_succ_eq_map, List.map_cons, List.map_map, List.sum_cons, ← List.sum_map_mul_left]
  congr 3
  · simp
  · funext k
    simp only [Function.comp_apply, List.getD_cons_succ, Nat.mul_succ, pow_add]
    ring

theorem groupsValue_of_isVbytes {v : Nat} {Y : List Byte} (h : IsVbytes v Y) : groupsValue Y = v := by
  induction h with
  | last hv =>
    rw [groupsValue_cons, groupsValue_nil, toNat_lastByte hv]
    omega
  | more hv rest ih =>
    rw [groupsValue_cons, toNat_continuationByte, ih]
    omega

/-- Settles O38: each clause holds of all bytes that are written as R265 says, and `vbytes` writes such. -/
theorem variableByteGroups : Obligations.VariableByteGroups := by
  intro v
  have h := isVbytes_vbytes v
  refine ⟨length_vbytes v, continuationBit_of_isVbytes h, fun b hb => ?_, (groupsValue_of_isVbytes h).symm⟩
  obtain ⟨hlt, hzero⟩ := lastByte_of_isVbytes h b hb
  exact ⟨hlt, fun h0 => BitVec.eq_of_toNat_eq (hzero h0)⟩

/-! ## Bytes in words -/

/-- A word gives back the four bytes it was made of (R43). -/
theorem wordByte_joinBytes (f : Nat → Byte) {k : Nat} (hk : k < 4) : wordByte (joinBytes (f 0) (f 1) (f 2) (f 3)) k = f k := by
  have h0 := (f 0).isLt
  have h1 := (f 1).isLt
  have h2 := (f 2).isLt
  have h3 := (f 3).isLt
  refine BitVec.eq_of_toNat_eq ?_
  rw [wordByte_toNat, joinBytes, BitVec.toNat_ofNat]
  interval_cases k <;> omega

/-- One equation for full and short groups: the missing bytes of a short one read as 0. -/
theorem wordsOfBytes_of_ne_nil {Y : List Byte} (h : Y ≠ []) :
    wordsOfBytes Y = joinBytes (Y.getD 0 0) (Y.getD 1 0) (Y.getD 2 0) (Y.getD 3 0) :: wordsOfBytes (Y.drop 4) := by
  rcases Y with _ | ⟨b0, _ | ⟨b1, _ | ⟨b2, _ | ⟨b3, Y⟩⟩⟩⟩
  · exact absurd rfl h
  all_goals rfl

theorem ne_nil_of_getElem?_wordsOfBytes {Y : List Byte} {j : Nat} {w : Word} (h : (wordsOfBytes Y)[j]? = some w) : Y ≠ [] := by
  rintro rfl
  cases h

theorem length_wordsOfBytes (Y : List Byte) : (wordsOfBytes Y).length = ceil4 Y.length := by
  induction Y using wordsOfBytes.induct with
  | case5 b0 b1 b2 b3 Y ih =>
    rw [wordsOfBytes, List.length_cons, ih]
    simp only [ceil4, List.length_cons]
    omega
  | _ => simp [wordsOfBytes, ceil4]

/-- Four bytes and one word are dropped together. -/
theorem wordByte_wordsOfBytes {Y : List Byte} {j k : Nat} {w : Word} (hk : k < 4) (hw : (wordsOfBytes Y)[j]? = some w) :
    wordByte w k = Y.getD (4 * j + k) 0 := by
  induction j generalizing Y with
  | zero =>
    rw [wordsOfBytes_of_ne_nil (ne_nil_of_getElem?_wordsOfBytes hw)] at hw
    cases hw
    rw [wordByte_joinBytes (Y.getD · 0) hk, Nat.mul_zero, Nat.zero_add]
  | succ j ih =>
    rw [wordsOfBytes_of_ne_nil (ne_nil_of_getElem?_wordsOfBytes hw), List.getElem?_cons_succ] at hw
    rw [ih hw, List.getD_eq_getElem?_getD, List.getD_eq_getElem?_getD, List.getElem?_drop]
    congr 2
    omega

/-- Settles O39: the first clause is the definition; the bytes of a word by its index. -/
theorem bytesPackLittleEndian : Obligations.BytesPackLittleEndian := by
  refine ⟨fun _ => rfl, fun Y => ⟨length_wordsOfBytes Y, fun j k w hk hw => ?_⟩⟩
  rw [← wordByte_toNat, wordByte_wordsOfBytes hk hw]

end Sys2Proof.Proofs
end

