-- ==== Sys2Proof/Proofs/FetchFaults.lean ====
section
/-! PROOF. A fetch that leaves the memory (60_exceptions.md R302): the command word, and the immediate of a `SET`. -/

namespace Sys2Proof.Proofs

open Sys2Proof.Machine

/-- The fetch window begins with the command word (R90). -/
theorem fetchWindow_eq_cons {s : State} (hcp : s.cp.toNat < s.memwords) : ∃ ws, s.fetchWindow = s.wordAt s.cp.toNat :: ws :=
  ⟨_, if_pos hcp⟩

theorem fetchWindow_eq_nil {s : State} (hcp : s.memwords ≤ s.cp.toNat) : s.fetchWindow = [] := if_neg (Nat.not_lt.2 hcp)

/-- A `SET` in the last word of the memory has no immediate word (R67). -/
theorem decode_set_alone (rd : Reg) : decode [commandWord 0x02 rd.index 0] = .error .noImmediate := by cases rd <;> decide

/-- Settles O6: both fetches are rejected, and the step takes the fetch's fault. -/
theorem fetchOutOfRangeFaults : Obligations.FetchOutOfRangeFaults := by
  refine ⟨fun s hs hcp => ?_, fun s rd hs hcp hlast hset => ?_⟩
  · have hd : decode s.fetchWindow = .error .noCommand := by rw [fetchWindow_eq_nil hcp]; rfl
    exact ⟨_, step_of_fetch_error hs hd, faulted_takeFault s _ _, rfl, memKept_takeFault s _⟩
  · have hd : decode s.fetchWindow = .error .noImmediate := by
      rw [State.fetchWindow, if_pos hcp, if_neg (Nat.not_lt.2 hlast), hset, decode_set_alone]
    exact ⟨_, step_of_fetch_error hs hd, faulted_takeFault s _ _, rfl, memKept_takeFault s _⟩

end Sys2Proof.Proofs
end

