-- ==== Sys2Proof/Proofs/DataCommand.lean ====
section
/-! PROOF. A data command is the shared frame over its pure function (20_memory.md R46), and that frame ends in a fault or in a commit. With it, the fault of a first
stage that gives too many integers (60_exceptions.md R311). -/

namespace Sys2Proof.Proofs

open Sys2Proof.Machine

/-! ## The two ends of a data command -/

theorem viewsOk_iff (s : State) : ViewsOk s ↔ s.viewFault = none := s.viewFault_eq_none.symm

/-- Words stored from `a` on leave every byte outside them. -/
theorem memKeptOutside_of_mem_eq {s t : State} {a hi : Nat} {ws : List Word} (hmem : t.mem = writeWords s.mem a ws) (hepoch : t.epoch = s.epoch)
    (hhi : a + ws.length = hi) : MemKeptOutside a hi s t := by
  intro i hi'
  rw [State.byteAt, hmem, hepoch]
  exact readByte_writeWords_outside _ _ _ _ _ (hhi ▸ hi')

/-- A fault past the view checks (R315, R52). -/
theorem faulted_voidDestination {s : State} (h : s.viewFault = none) (c : Cause) (info : Word) :
    Faulted s (s.voidDestination.takeFault ⟨c, info⟩) c info where
  status := rfl
  cause := rfl
  finfo := rfl
  regs r _ := by simp
  cp := rfl
  memwords := rfl
  frame := by
    obtain ⟨-, ⟨hle, -⟩, -⟩ := s.viewFault_eq_none.1 h
    exact memKeptOutside_of_mem_eq rfl rfl (by rw [State.freeWords_length, State.capacity]; omega)

/-- A fault before the view checks (log 6). -/
theorem faulted_voidIfViews (s : State) (c : Cause) (info : Word) : Faulted s (s.voidIfViews.takeFault ⟨c, info⟩) c info := by
  obtain h | ⟨hv, h⟩ := s.voidIfViews_eq
  · rw [h]; exact faulted_takeFault s c info
  · rw [h]; exact faulted_voidDestination hv c info

/-- A commit writes what R46 (5) says and nothing else. -/
theorem committed_commit (s : State) (e : Evaluated) : Committed s (s.commit e) e.read e.out (e.zp.getD s.zp) where
  sp := by rw [State.commit_sp, BitVec.ofNat_add, BitVec.ofNat_toNat, BitVec.setWidth_eq]
  dp := by rw [State.commit_dp, BitVec.ofNat_add, BitVec.ofNat_toNat, BitVec.setWidth_eq]
  rc := rfl
  wc := rfl
  zp := rfl
  cp := rfl
  regs r hr := by cases r <;> simp [State.reg] at hr ⊢
  control := ⟨rfl, rfl, rfl, rfl⟩
  stored := readWords_writeWords_same _ _ _ _
  frame := memKeptOutside_of_mem_eq rfl rfl rfl

/-! ## The codec commands by form -/

theorem eq_hcOf_of_mem {i : Instr} {k : Codec} (h : (i, k) ∈ headlessCompressCommands) : i = hcOf k :=
  (by decide : ∀ p ∈ headlessCompressCommands, p.1 = hcOf p.2) _ h

theorem eq_hdOf_of_mem {i : Instr} {k : Codec} (h : (i, k) ∈ headlessDecompressCommands) : i = hdOf k :=
  (by decide : ∀ p ∈ headlessDecompressCommands, p.1 = hdOf p.2) _ h

theorem eq_cOf_of_mem {i : Instr} {k : Codec} (h : (i, k) ∈ headedCompressCommands) : i = cOf k :=
  (by decide : ∀ p ∈ headedCompressCommands, p.1 = cOf p.2) _ h

theorem eq_dOf_of_mem {i : Instr} {k : Codec} (h : (i, k) ∈ headedDecompressCommands) : i = dOf k :=
  (by decide : ∀ p ∈ headedDecompressCommands, p.1 = dOf p.2) _ h

/-- A data command is the shared frame over a function, and `Evaluates` gives that function's value on the source words. -/
theorem exec_of_evaluates {s : State} {i : Instr} {v : Except Trap Evaluated} (h : Evaluates s i v) :
    ∃ f, exec i s = dataCommand f s ∧ f s.source = v := by
  cases h with
  | pack b hb => exact ⟨_, widthCommand_inRange hb, rfl⟩
  | packu b hb => exact ⟨_, widthCommand_inRange hb, rfl⟩
  | unpack b hb => exact ⟨_, widthCommand_inRange hb, rfl⟩
  | headlessCompress _ k hk => exact ⟨_, by rw [eq_hcOf_of_mem hk, exec_hcOf]; rfl, rfl⟩
  | headlessDecompress _ k hk => exact ⟨_, by rw [eq_hdOf_of_mem hk, exec_hdOf]; rfl, rfl⟩
  | headedCompress _ k hk => exact ⟨_, by rw [eq_cOf_of_mem hk, exec_cOf]; rfl, rfl⟩
  | headedDecompress _ k hk => exact ⟨_, by rw [eq_dOf_of_mem hk, exec_dOf]; rfl, rfl⟩
  | compC k1 k2 => exact ⟨fun src => codecEvaluated (compCompress k1 k2 s.page s.ovh src), rfl, rfl⟩
  | compD k1 k2 => exact ⟨fun src => codecEvaluated (compDecompress k1 k2 s.page src s.n.toNat), rfl, rfl⟩
  | topC k1 k2 => exact ⟨fun src => codecEvaluated (topCompress k1 k2 s.page s.ovh src), rfl, rfl⟩
  | topD k1 k2 => exact ⟨fun src => codecEvaluated (topDecompress k1 k2 s.page src), rfl, rfl⟩
  | dzEnc => exact ⟨fun src => .ok { read := src.length, out := (dzEncode s.zp src).1, zp := some (dzEncode s.zp src).2 }, rfl, rfl⟩
  | dzDec => exact ⟨fun src => .ok { read := src.length, out := (dzDecode s.zp src).1, zp := some (dzDecode s.zp src).2 }, rfl, rfl⟩

/-- A data command whose function faults. -/
theorem exec_of_evaluates_error {s : State} {i : Instr} {t : Trap} (hv : ViewsOk s) (h : Evaluates s i (.error t)) :
    ∃ t', exec i s = .next t' ∧ Faulted s t' t.cause t.info := by
  have hviews := (viewsOk_iff s).1 hv
  obtain ⟨f, hf, heval⟩ := exec_of_evaluates h
  exact ⟨_, by rw [hf, dataCommand_error hviews heval], faulted_voidDestination hviews _ _⟩

/-- A data command whose output does not fit (R307). -/
theorem exec_of_evaluates_overflow {s : State} {i : Instr} {e : Evaluated} (hv : ViewsOk s) (h : Evaluates s i (.ok e))
    (hc : s.capacity < e.out.length) : ∃ t, exec i s = .next t ∧ Faulted s t .destinationOverflow 0 := by
  have hviews := (viewsOk_iff s).1 hv
  obtain ⟨f, hf, heval⟩ := exec_of_evaluates h
  exact ⟨_, by rw [hf, dataCommand_overflow hviews heval hc], faulted_voidDestination hviews _ _⟩

/-- A data command whose output fits. -/
theorem exec_of_evaluates_ok {s : State} {i : Instr} {e : Evaluated} (hv : ViewsOk s) (h : Evaluates s i (.ok e))
    (hc : e.out.length ≤ s.capacity) : ∃ t, exec i s = .next t ∧ Committed s t e.read e.out (e.zp.getD s.zp) := by
  obtain ⟨f, hf, heval⟩ := exec_of_evaluates h
  exact ⟨_, by rw [hf, dataCommand_commit ((viewsOk_iff s).1 hv) heval hc], committed_commit s e⟩

/-! ## A first stage that gives too many integers -/

/-- R281: the total count is checked right after the first stage. -/
theorem compDecompress_badCount {k1 : Codec} (k2 : Codec) {page : Word} {W : List Word} {n u : Nat} {o : List Word}
    (h : headedDecompress k1 page W = .ok (u, o)) (hn : n < o.length) : compDecompress k1 k2 page W n = .error ⟨.badCount, 0⟩ := by
  simp [compDecompress, h, hn, Bind.bind, Except.bind]

/-- R285: with a second codec, the stream after the count word is a composition's. -/
theorem topDecompress_cons_some {k1 k2 : Codec} {page c : Word} {W : List Word} {t : Trap}
    (h : compDecompress k1 k2 page W c.toNat = .error t) : topDecompress k1 (some k2) page (c :: W) = .error t := by
  simp [topDecompress, h, Bind.bind, Except.bind]

/-- Settles O44: the composition's function faults, and the command with it. -/
theorem badCountFaults : Obligations.BadCountFaults := by
  refine ⟨fun s k1 k2 u o hv hstage hn => ?_, fun s k1 k2 c W u o hv hsrc hstage hc => ?_⟩
  · have heval := Evaluates.compD (s := s) k1 k2
    rw [compDecompress_badCount k2 hstage hn] at heval
    obtain ⟨t, ht, hf⟩ := exec_of_evaluates_error hv heval
    exact ⟨t, ht, hf, hf.cause⟩
  · have heval := Evaluates.topD (s := s) k1 (some k2)
    rw [hsrc, topDecompress_cons_some (compDecompress_badCount k2 hstage hc)] at heval
    obtain ⟨t, ht, hf⟩ := exec_of_evaluates_error hv heval
    exact ⟨t, ht, hf, hf.cause⟩

end Sys2Proof.Proofs
end

