-- ==== Sys2Proof/Proofs/StreamFaults.lean ====
section
/-! PROOF. What the decompress functions can fault on (60_exceptions.md R306, R309, R310), reader by reader: each fault is one of a part's, so a rule for each way the
readers are put together carries the claim from `get()` and `take(n)` up to the codec functions. -/

namespace Sys2Proof.Proofs

open Sys2Proof.Machine

/-! ## Faults of a computation put together from parts -/

/-- Every fault of the computation has the property. -/
def FaultsSatisfy {α : Type} (P : Trap → Prop) (x : Except Trap α) : Prop := ∀ t, x = .error t → P t

namespace FaultsSatisfy

variable {α β : Type} {P Q : Trap → Prop}

theorem ok (a : α) : FaultsSatisfy P (.ok a) := fun _ h => nomatch h

theorem error {t : Trap} (h : P t) : FaultsSatisfy P (.error t : Except Trap α) := fun _ ht => by cases ht; exact h

theorem bind {x : Except Trap α} {f : α → Except Trap β} (hx : FaultsSatisfy P x) (hf : ∀ a, x = .ok a → FaultsSatisfy P (f a)) :
    FaultsSatisfy P (x >>= f) := by
  cases x with
  | error t => exact error (hx t rfl)
  | ok a => exact hf a rfl

theorem ite {c : Prop} [Decidable c] {x y : Except Trap α} (hx : c → FaultsSatisfy P x) (hy : ¬ c → FaultsSatisfy P y) :
    FaultsSatisfy P (if c then x else y) := by
  split
  · exact hx ‹_›
  · exact hy ‹_›

theorem mono {x : Except Trap α} (hx : FaultsSatisfy P x) (h : ∀ t, P t → Q t) : FaultsSatisfy Q x := fun t ht => h t (hx t ht)

theorem map {x : Except Trap α} (hx : FaultsSatisfy P x) (f : α → β) : FaultsSatisfy P (x.map f) :=
  fun t ht => hx t ((exceptMap_eq_error_iff f x t).1 ht)

end FaultsSatisfy

/-! ## The readers -/

/-- The two faults a stream can have: it ends too early, or it is no stream of the codec. -/
def StreamFault (t : Trap) : Prop := t = underrun ∨ t = malformed

/-- A reader with stream faults alone. -/
abbrev StreamReader {α : Type} (x : Except Trap α) : Prop := FaultsSatisfy StreamFault x

theorem streamReader_underrun {α : Type} : StreamReader (.error underrun : Except Trap α) := .error (.inl rfl)

theorem streamReader_malformed {α : Type} : StreamReader (.error malformed : Except Trap α) := .error (.inr rfl)

theorem streamReader_getWord (s : List Word) : StreamReader (getWord s) := by
  cases s with
  | nil => exact streamReader_underrun
  | cons w s => exact .ok _

theorem streamReader_takeWords (n : Nat) (s : List Word) : StreamReader (takeWords n s) :=
  .ite (fun _ => streamReader_underrun) fun _ => .ok _

theorem streamReader_unpackBlocks (b k : Nat) (s : List Word) : StreamReader (unpackBlocks b k s) := by
  induction k generalizing s with
  | zero => exact .ok _
  | succ k ih => exact (streamReader_takeWords b s).bind fun _ _ => (ih _).bind fun _ _ => .ok _

/-! ## BinaryPacking (R140) -/

theorem streamReader_bpGroups (k : Nat) (s : List Word) : StreamReader (bpGroups k s) := by
  induction k generalizing s with
  | zero => exact .ok _
  | succ k ih =>
    exact (streamReader_getWord s).bind fun _ _ => .ite (fun _ => streamReader_malformed) fun _ =>
      (streamReader_takeWords _ _).bind fun _ _ => (streamReader_takeWords _ _).bind fun _ _ => (streamReader_takeWords _ _).bind fun _ _ =>
        (streamReader_takeWords _ _).bind fun _ _ => (ih _).bind fun _ _ => .ok _

theorem streamReader_bpSingles (k : Nat) (s : List Word) : StreamReader (bpSingles k s) := by
  induction k generalizing s with
  | zero => exact .ok _
  | succ k ih =>
    exact (streamReader_getWord s).bind fun _ _ => .ite (fun _ => streamReader_malformed) fun _ =>
      (streamReader_takeWords _ _).bind fun _ _ => (ih _).bind fun _ _ => .ok _

theorem streamReader_bpDecompress (W : List Word) (n : Nat) : StreamReader (bpDecompress W n) :=
  (streamReader_bpGroups _ _).bind fun _ _ => (streamReader_bpSingles _ _).bind fun _ _ => .ok _

/-! ## The selector codecs (R225) -/

theorem streamReader_selectorDecompress (T : Layouts) (W : List Word) (n : Nat) : StreamReader (selectorDecompress T W n) := by
  induction W generalizing n with
  | nil =>
    cases n with
    | zero => exact .ok _
    | succ n => exact streamReader_underrun
  | cons w W ih =>
    cases n with
    | zero => exact .ok _
    | succ n =>
      rw [selectorDecompress]
      split
      · exact streamReader_malformed
      · exact (ih _).bind fun _ _ => .ok _

/-! ## FastPFOR (R173) -/

theorem streamReader_readBuckets (bitmap left k : Nat) (s : List Word) : StreamReader (readBuckets bitmap left k s) := by
  induction left generalizing k s with
  | zero => exact .ok _
  | succ left ih =>
    exact .ite (fun _ => (ih _ _).bind fun _ _ => .ok _) fun _ =>
      (streamReader_getWord s).bind fun _ _ => .ite (fun _ => streamReader_malformed) fun _ =>
        (streamReader_unpackBlocks _ _ _).bind fun _ _ => (ih _ _).bind fun _ _ => .ok _

theorem streamReader_nextByte (bs : List Byte) : StreamReader (nextByte bs) := by
  cases bs with
  | nil => exact streamReader_malformed
  | cons b bs => exact .ok _

theorem streamReader_nextBytes (k : Nat) (bs : List Byte) : StreamReader (nextBytes k bs) := by
  induction k generalizing bs with
  | zero => exact .ok _
  | succ k ih => exact (streamReader_nextByte bs).bind fun _ _ => (ih _).bind fun _ _ => .ok _

theorem streamReader_patchBlock (bs b k : Nat) (ps : List Byte) (U : List Word) (ex : List (List Word)) :
    StreamReader (patchBlock bs b k ps U ex) := by
  induction ps generalizing U ex with
  | nil => exact .ok _
  | cons p ps ih =>
    refine .ite (fun _ => streamReader_malformed) fun _ => ?_
    split
    · exact streamReader_malformed
    · exact ih _ _

theorem streamReader_readExceptions (b e : Nat) (bc : List Byte) : StreamReader (readExceptions b e bc) :=
  .ite (fun _ => .ok _) fun _ => (streamReader_nextByte bc).bind fun _ _ => .ite (fun _ => streamReader_malformed) fun _ =>
    (streamReader_nextBytes _ _).bind fun _ _ => .ok _

theorem streamReader_fpfBlocks (bs k : Nat) (bc : List Byte) (ex : List (List Word)) (limit : Nat) (s : List Word) :
    StreamReader (fpfBlocks bs k bc ex limit s) := by
  induction k generalizing bc ex limit s with
  | zero => exact .ite (fun _ => .ok _) fun _ => streamReader_malformed
  | succ k ih =>
    exact (streamReader_nextByte _).bind fun _ _ => (streamReader_nextByte _).bind fun _ _ => .ite (fun _ => streamReader_malformed) fun _ =>
      (streamReader_readExceptions _ _ _).bind fun _ _ => .ite (fun _ => streamReader_malformed) fun _ =>
        (streamReader_unpackBlocks _ _ _).bind fun _ _ => (streamReader_patchBlock _ _ _ _ _ _).bind fun _ _ =>
          (ih _ _ _ _).bind fun _ _ => .ok _

theorem streamReader_fpfReadPage (bs pn : Nat) (W : List Word) : StreamReader (fpfReadPage bs pn W) :=
  (streamReader_getWord W).bind fun _ _ => .ite (fun _ => streamReader_malformed) fun _ =>
    (streamReader_takeWords _ _).bind fun _ _ => (streamReader_getWord _).bind fun _ _ => (streamReader_takeWords _ _).bind fun _ _ =>
      (streamReader_getWord _).bind fun _ _ => (streamReader_readBuckets _ _ _ _).bind fun _ _ =>
        (streamReader_fpfBlocks _ _ _ _ _ _).bind fun _ _ => .ok _

theorem streamReader_fpfReadPages (bs : Nat) (ps : List Nat) (W : List Word) : StreamReader (fpfReadPages bs ps W) := by
  induction ps generalizing W with
  | nil => exact .ok _
  | cons pn ps ih => exact (streamReader_fpfReadPage _ _ _).bind fun _ _ => (ih _).bind fun _ _ => .ok _

/-! ## NewPFD and OptPFD (R187) -/

theorem streamReader_pfdPatch (b : Nat) (ps : List (Word × Word)) (U : List Word) : StreamReader (pfdPatch b ps U) := by
  induction ps generalizing U with
  | nil => exact .ok _
  | cons p ps ih => exact .ite (fun _ => streamReader_malformed) fun _ => ih _

theorem streamReader_pfdExceptions (T : Layouts) (e : Nat) (s : List Word) : StreamReader (pfdExceptions T e s) :=
  .ite (fun _ => .ok _) fun _ => (streamReader_selectorDecompress T s _).bind fun _ _ => .ok _

theorem streamReader_pfdReadBlocks (T : Layouts) (k : Nat) (s : List Word) : StreamReader (pfdReadBlocks T k s) := by
  induction k generalizing s with
  | zero => exact .ok _
  | succ k ih =>
    exact (streamReader_getWord s).bind fun _ _ => .ite (fun _ => streamReader_malformed) fun _ =>
      (streamReader_pfdExceptions _ _ _).bind fun _ _ => (streamReader_unpackBlocks _ _ _).bind fun _ _ =>
        (streamReader_pfdPatch _ _ _).bind fun _ _ => (ih _).bind fun _ _ => .ok _

theorem streamReader_pfdDecompress (T : Layouts) (W : List Word) (n : Nat) : StreamReader (pfdDecompress T W n) :=
  (streamReader_pfdReadBlocks _ _ _).bind fun _ _ => .ok _

/-! ## VariableByte (R268) -/

theorem streamReader_vbValue (k v : Nat) (bytes : List Byte) : StreamReader (vbValue k v bytes) := by
  induction bytes generalizing k v with
  | nil =>
    rw [vbValue]
    exact .ite (fun _ => streamReader_malformed) fun _ => streamReader_underrun
  | cons c bytes ih =>
    rw [vbValue]
    exact .ite (fun _ => streamReader_malformed) fun _ => .ite (fun _ => .ok _) fun _ => ih _ _

theorem streamReader_vbValues (n : Nat) (bytes : List Byte) : StreamReader (vbValues n bytes) := by
  induction n generalizing bytes with
  | zero => exact .ok _
  | succ n ih => exact (streamReader_vbValue 0 0 bytes).bind fun _ _ => (ih _).bind fun _ _ => .ok _

theorem streamReader_vbDecompress (W : List Word) (n : Nat) : StreamReader (vbDecompress W n) :=
  (streamReader_vbValues n _).bind fun _ _ => .ok _

/-! ## The codec functions -/

/-- The faults of a decompress: its stream's, and `BadConfig` with the value of `PAGE` (R310). -/
def DecompressFault (page : Word) (t : Trap) : Prop := StreamFault t ∨ t = ⟨.badConfig, page⟩

theorem eq_badConfig_of_pageFault {page : Word} {t : Trap} (h : pageFault page = some t) : t = ⟨.badConfig, page⟩ := by
  unfold pageFault at h
  split at h
  · exact (Option.some.inj h).symm
  · exact nomatch h

theorem fpfDecompress_faults (bs : Nat) (page : Word) (W : List Word) (n : Nat) :
    FaultsSatisfy (DecompressFault page) (fpfDecompress bs page W n) := by
  unfold fpfDecompress
  split
  next t h => exact .error (.inr (eq_badConfig_of_pageFault h))
  next => exact .bind ((streamReader_fpfReadPages _ _ _).mono fun _ => .inl) fun _ _ => .ok _

theorem headlessDecompress_faults (k : Codec) (page : Word) (W : List Word) (n : Nat) :
    FaultsSatisfy (DecompressFault page) (headlessDecompress k page W n) := by
  cases k with
  | bp => exact (streamReader_bpDecompress W n).mono fun _ => .inl
  | fpf128 => exact fpfDecompress_faults 128 page W n
  | fpf256 => exact fpfDecompress_faults 256 page W n
  | npfd9 => exact (streamReader_pfdDecompress _ W n).mono fun _ => .inl
  | npfd16 => exact (streamReader_pfdDecompress _ W n).mono fun _ => .inl
  | opfd9 => exact (streamReader_pfdDecompress _ W n).mono fun _ => .inl
  | opfd16 => exact (streamReader_pfdDecompress _ W n).mono fun _ => .inl
  | s9 => exact (streamReader_selectorDecompress _ W n).mono fun _ => .inl
  | s16 => exact (streamReader_selectorDecompress _ W n).mono fun _ => .inl
  | vb => exact (streamReader_vbDecompress W n).mono fun _ => .inl

theorem headedDecompress_faults (k : Codec) (page : Word) (W : List Word) :
    FaultsSatisfy (DecompressFault page) (headedDecompress k page W) := by
  cases W with
  | nil => exact .ok _
  | cons L W => exact (headlessDecompress_faults k page W L.toNat).bind fun _ _ => .ok _

/-- The faults of a composition's decompress: a stage's, and `BadCount` (R311). -/
def CompositionFault (page : Word) (t : Trap) : Prop := DecompressFault page t ∨ t = ⟨.badCount, 0⟩

theorem compDecompress_faults (k1 k2 : Codec) (page : Word) (W : List Word) (n : Nat) :
    FaultsSatisfy (CompositionFault page) (compDecompress k1 k2 page W n) :=
  .bind ((headedDecompress_faults k1 page W).mono fun _ => .inl) fun _ _ => .ite (fun _ => .error (.inr rfl)) fun _ =>
    .bind ((headlessDecompress_faults k2 page _ _).mono fun _ => .inl) fun _ _ => .ok _

theorem topDecompress_faults (k1 : Codec) (k2 : Option Codec) (page : Word) (W : List Word) :
    FaultsSatisfy (CompositionFault page) (topDecompress k1 k2 page W) := by
  cases W with
  | nil => exact .error (.inl (.inl (.inl rfl)))
  | cons c W =>
    cases k2 with
    | none => exact .bind ((headlessDecompress_faults k1 page W _).mono fun _ => .inl) fun _ _ => .ok _
    | some k2 => exact .bind (compDecompress_faults k1 k2 page W _) fun _ _ => .ok _

end Sys2Proof.Proofs
end

