-- ==== Sys2Proof/Proofs/ReadCounts.lean ====
section
/-! PROOF. How many words the codec functions consume (42_blockcodec.md R131, 20_memory.md R46): a compress its input rounded down to the granule, a decompress
no more than there are. -/

namespace Sys2Proof.Proofs

open Sys2Proof.Machine

theorem exceptBind_eq_ok_iff {ε α β : Type} (x : Except ε α) (f : α → Except ε β) (b : β) :
    (x >>= f) = .ok b ↔ ∃ a, x = .ok a ∧ f a = .ok b := by
  cases x <;> simp [Bind.bind, Except.bind]

/-! ## Compress -/

theorem floorTo_le (g n : Nat) : floorTo g n ≤ n := Nat.sub_le _ _

theorem floorTo_one (n : Nat) : floorTo 1 n = n := by rw [floorTo, Nat.mod_one, Nat.sub_zero]

theorem floorTo_floorTo (g n : Nat) : floorTo g (floorTo g n) = floorTo g n := by
  have hdvd : floorTo g n % g = 0 := Nat.mod_eq_zero_of_dvd (Nat.dvd_sub_mod n)
  rw [floorTo, hdvd, Nat.sub_zero]

theorem fpfCompress_read {bs : Nat} {page ovh : Word} {A : List Word} {r : Nat} {out : List Word}
    (h : fpfCompress bs page ovh A = .ok (r, out)) : r = floorTo bs A.length := by
  unfold fpfCompress at h
  split at h
  · exact nomatch h
  · cases h; rfl

theorem pfdCompress_read {search : Search} {T : Layouts} {ovh : Word} {A : List Word} {r : Nat} {out : List Word}
    (h : pfdCompress search T ovh A = .ok (r, out)) : r = floorTo 128 A.length := by
  obtain ⟨x, -, hx⟩ := (exceptBind_eq_ok_iff _ _ _).1 h
  cases hx; rfl

theorem selectorCompress_read {T : Layouts} {A : List Word} {r : Nat} {out : List Word} (h : selectorCompress T A = .ok (r, out)) :
    r = floorTo 1 A.length := by
  rw [floorTo_one]
  exact ((selectorCompress_eq_ok_iff T A r out).1 h).1

theorem headlessCompress_read {k : Codec} {page ovh : Word} {A : List Word} {r : Nat} {out : List Word}
    (h : headlessCompress k page ovh A = .ok (r, out)) : r = floorTo (granule k) A.length := by
  cases k with
  | bp => cases h; rfl
  | fpf128 => exact fpfCompress_read h
  | fpf256 => exact fpfCompress_read h
  | npfd9 => exact pfdCompress_read h
  | npfd16 => exact pfdCompress_read h
  | opfd9 => exact pfdCompress_read h
  | opfd16 => exact pfdCompress_read h
  | s9 => exact selectorCompress_read h
  | s16 => exact selectorCompress_read h
  | vb => cases h; exact (floorTo_one _).symm

theorem headlessCompress_read_le {k : Codec} {page ovh : Word} {A : List Word} {r : Nat} {out : List Word}
    (h : headlessCompress k page ovh A = .ok (r, out)) : r ≤ A.length := headlessCompress_read h ▸ floorTo_le _ _

/-- The headed form consumes what its headless form does, or nothing when that is nothing (R134). -/
theorem headedCompress_read {k : Codec} {page ovh : Word} {A : List Word} {r : Nat} {out : List Word}
    (h : headedCompress k page ovh A = .ok (r, out)) : r = floorTo (granule k) A.length := by
  simp only [headedCompress] at h
  split at h
  next h0 => cases h; exact h0.symm
  next =>
    obtain ⟨⟨r', o⟩, hstream, heq⟩ := (exceptBind_eq_ok_iff _ _ _).1 h
    cases heq
    rw [headlessCompress_read hstream, List.length_take, Nat.min_eq_left (floorTo_le _ _), floorTo_floorTo]

theorem headedCompress_read_le {k : Codec} {page ovh : Word} {A : List Word} {r : Nat} {out : List Word}
    (h : headedCompress k page ovh A = .ok (r, out)) : r ≤ A.length := headedCompress_read h ▸ floorTo_le _ _

theorem compCompress_read_le {k1 k2 : Codec} {page ovh : Word} {A : List Word} {r : Nat} {out : List Word}
    (h : compCompress k1 k2 page ovh A = .ok (r, out)) : r ≤ A.length := by
  obtain ⟨⟨r1, o1⟩, h1, h⟩ := (exceptBind_eq_ok_iff _ _ _).1 h
  obtain ⟨⟨r2, o2⟩, h2, heq⟩ := (exceptBind_eq_ok_iff _ _ _).1 h
  cases heq
  have hr1 := headedCompress_read_le h1
  have hr2 := headlessCompress_read_le h2
  rw [List.length_drop] at hr2
  omega

theorem topCompress_read_le {k1 : Codec} {k2 : Option Codec} {page ovh : Word} {A : List Word} {r : Nat} {out : List Word}
    (h : topCompress k1 k2 page ovh A = .ok (r, out)) : r ≤ A.length := by
  cases k2 with
  | none =>
    obtain ⟨_, hinner, heq⟩ := (exceptBind_eq_ok_iff _ _ _).1 h
    cases heq
    exact headlessCompress_read_le hinner
  | some k2 =>
    obtain ⟨_, hinner, heq⟩ := (exceptBind_eq_ok_iff _ _ _).1 h
    cases heq
    exact compCompress_read_le hinner

/-! ## Decompress -/

theorem bpDecompress_read_le {W : List Word} {n r : Nat} {out : List Word} (h : bpDecompress W n = .ok (r, out)) : r ≤ W.length := by
  obtain ⟨_, -, h⟩ := (exceptBind_eq_ok_iff _ _ _).1 h
  obtain ⟨_, -, heq⟩ := (exceptBind_eq_ok_iff _ _ _).1 h
  cases heq
  exact Nat.sub_le _ _

theorem fpfDecompress_read_le {bs : Nat} {page : Word} {W : List Word} {n r : Nat} {out : List Word}
    (h : fpfDecompress bs page W n = .ok (r, out)) : r ≤ W.length := by
  unfold fpfDecompress at h
  split at h
  · exact nomatch h
  · obtain ⟨_, -, heq⟩ := (exceptBind_eq_ok_iff _ _ _).1 h
    cases heq
    exact Nat.sub_le _ _

theorem pfdDecompress_read_le {T : Layouts} {W : List Word} {n r : Nat} {out : List Word} (h : pfdDecompress T W n = .ok (r, out)) :
    r ≤ W.length := by
  obtain ⟨_, -, heq⟩ := (exceptBind_eq_ok_iff _ _ _).1 h
  cases heq
  exact Nat.sub_le _ _

theorem selectorDecompress_read_le {T : Layouts} {W : List Word} {n r : Nat} {out : List Word}
    (h : selectorDecompress T W n = .ok (r, out)) : r ≤ W.length :=
  (selectorDecompress_seq T n W r out h).1

/-- The bytes taken are among four for each word. -/
theorem vbDecompress_read_le {W : List Word} {n r : Nat} {out : List Word} (h : vbDecompress W n = .ok (r, out)) : r ≤ W.length := by
  obtain ⟨_, -, heq⟩ := (exceptBind_eq_ok_iff _ _ _).1 h
  cases heq
  rw [bytesOfWords_length, ceil4]
  omega

theorem headlessDecompress_read_le {k : Codec} {page : Word} {W : List Word} {n r : Nat} {out : List Word}
    (h : headlessDecompress k page W n = .ok (r, out)) : r ≤ W.length := by
  cases k with
  | bp => exact bpDecompress_read_le h
  | fpf128 => exact fpfDecompress_read_le h
  | fpf256 => exact fpfDecompress_read_le h
  | npfd9 => exact pfdDecompress_read_le h
  | npfd16 => exact pfdDecompress_read_le h
  | opfd9 => exact pfdDecompress_read_le h
  | opfd16 => exact pfdDecompress_read_le h
  | s9 => exact selectorDecompress_read_le h
  | s16 => exact selectorDecompress_read_le h
  | vb => exact vbDecompress_read_le h

/-- A leading word, and what is read after it. -/
theorem one_add_le_length_cons {c : Word} {W : List Word} {r : Nat} (h : r ≤ W.length) : 1 + r ≤ (c :: W).length := by
  rw [List.length_cons, Nat.add_comm]
  exact Nat.succ_le_succ h

theorem headedDecompress_read_le {k : Codec} {page : Word} {W : List Word} {r : Nat} {out : List Word}
    (h : headedDecompress k page W = .ok (r, out)) : r ≤ W.length := by
  cases W with
  | nil => cases h; exact Nat.zero_le _
  | cons L W =>
    obtain ⟨⟨r', o⟩, hstream, heq⟩ := (exceptBind_eq_ok_iff _ _ _).1 h
    cases heq
    exact one_add_le_length_cons (headlessDecompress_read_le hstream)

theorem compDecompress_read_le {k1 k2 : Codec} {page : Word} {W : List Word} {n r : Nat} {out : List Word}
    (h : compDecompress k1 k2 page W n = .ok (r, out)) : r ≤ W.length := by
  obtain ⟨⟨u1, o1⟩, h1, h⟩ := (exceptBind_eq_ok_iff _ _ _).1 h
  dsimp only at h
  split at h
  · exact nomatch h
  · obtain ⟨⟨u2, o2⟩, h2, heq⟩ := (exceptBind_eq_ok_iff _ _ _).1 h
    cases heq
    have hu1 := headedDecompress_read_le h1
    have hu2 := headlessDecompress_read_le h2
    rw [List.length_drop] at hu2
    omega

theorem topDecompress_read_le {k1 : Codec} {k2 : Option Codec} {page : Word} {W : List Word} {r : Nat} {out : List Word}
    (h : topDecompress k1 k2 page W = .ok (r, out)) : r ≤ W.length := by
  cases W with
  | nil => exact nomatch h
  | cons c W =>
    cases k2 with
    | none =>
      obtain ⟨_, hinner, heq⟩ := (exceptBind_eq_ok_iff _ _ _).1 h
      cases heq
      exact one_add_le_length_cons (headlessDecompress_read_le hinner)
    | some k2 =>
      obtain ⟨_, hinner, heq⟩ := (exceptBind_eq_ok_iff _ _ _).1 h
      cases heq
      exact one_add_le_length_cons (compDecompress_read_le hinner)

/-! ## The data commands -/

theorem packEval_read_le {b : Nat} {src : List Word} {e : Evaluated} (h : packEval b src = .ok e) : e.read ≤ src.length := by
  unfold packEval at h
  split at h
  next => exact nomatch h
  next hlen => cases h; exact Nat.not_lt.1 hlen

theorem packuEval_read_le {free : List Word} {b : Nat} {src : List Word} {e : Evaluated} (h : packuEval free b src = .ok e) :
    e.read ≤ src.length := by
  unfold packuEval at h
  split at h
  next => exact nomatch h
  next hlen => split at h <;> (cases h; exact Nat.not_lt.1 hlen)

theorem unpackEval_read_le {b : Nat} {src : List Word} {e : Evaluated} (h : unpackEval b src = .ok e) : e.read ≤ src.length := by
  unfold unpackEval at h
  split at h
  next => exact nomatch h
  next hlen => cases h; exact Nat.not_lt.1 hlen

theorem codecEvaluated_read_le {x : CodecResult} {n : Nat} {e : Evaluated} (hx : ∀ r out, x = .ok (r, out) → r ≤ n)
    (h : codecEvaluated x = .ok e) : e.read ≤ n := by
  cases x with
  | error t => exact nomatch h
  | ok p => cases h; exact hx _ _ rfl

/-- R46 (2): no data command consumes more than the source view. -/
theorem read_le_of_evaluates {s : State} {i : Instr} {v : Except Trap Evaluated} (h : Evaluates s i v) {e : Evaluated} (he : v = .ok e) :
    e.read ≤ s.source.length := by
  cases h with
  | pack => exact packEval_read_le he
  | packu => exact packuEval_read_le he
  | unpack => exact unpackEval_read_le he
  | headlessCompress => exact codecEvaluated_read_le (fun _ _ => headlessCompress_read_le) he
  | headlessDecompress => exact codecEvaluated_read_le (fun _ _ => headlessDecompress_read_le) he
  | headedCompress => exact codecEvaluated_read_le (fun _ _ => headedCompress_read_le) he
  | headedDecompress => exact codecEvaluated_read_le (fun _ _ => headedDecompress_read_le) he
  | compC => exact codecEvaluated_read_le (fun _ _ => compCompress_read_le) he
  | compD => exact codecEvaluated_read_le (fun _ _ => compDecompress_read_le) he
  | topC => exact codecEvaluated_read_le (fun _ _ => topCompress_read_le) he
  | topD => exact codecEvaluated_read_le (fun _ _ => topDecompress_read_le) he
  | dzEnc => cases he; exact le_rfl
  | dzDec => cases he; exact le_rfl

/-- Settles O45: the three ends of the frame, and `read_le_of_evaluates`. -/
theorem dataCommandsEvaluateThenCommit : Obligations.DataCommandsEvaluateThenCommit := by
  intro s i v hv heval
  refine ⟨?_, fun e he => read_le_of_evaluates heval he, ?_, ?_⟩
  · rintro t rfl
    exact exec_of_evaluates_error hv heval
  · rintro e rfl hc
    obtain ⟨t, ht, hf⟩ := exec_of_evaluates_overflow hv heval hc
    exact ⟨t, ht, hf, hf.cause⟩
  · rintro e rfl hc
    exact exec_of_evaluates_ok hv heval hc

end Sys2Proof.Proofs
end

