-- ==== Sys2Proof/Proofs/CompressFaults.lean ====
section
/-! PROOF. What the compress functions can fault on (60_exceptions.md R308, R310). A selector codec faults on the first value at or above `2^28` of the words it is
given. NewPFD and OptPFD give theirs the exceptions of a block, whose values are below that: a chosen width is never more than 28 bits under the largest (R163). -/

namespace Sys2Proof.Proofs

open Sys2Proof.Machine

/-! ## The selector codecs (R224) -/

/-- The fault of a selector codec on the words `given` to it (R308). -/
def ValueFault (given : List Word) (t : Trap) : Prop := ∃ v, given.find? isTooLarge = some v ∧ t = ⟨.valueTooLarge, v⟩

theorem not_valueFault_nil (t : Trap) : ¬ ValueFault [] t := by rintro ⟨v, hv, -⟩; exact nomatch hv

theorem selectorCompress_faults {T : Layouts} (hT : IsSelectorTable T) (A : List Word) : FaultsSatisfy (ValueFault A) (selectorCompress T A) :=
  .map (fun t => (selectorWords_eq_error_iff hT t le_rfl).1) _

theorem selectorEstimate_faults {T : Layouts} (hT : IsSelectorTable T) (A : List Word) : FaultsSatisfy (ValueFault A) (selectorEstimate T A) :=
  .map (fun t => (selectorWords_eq_error_iff hT t le_rfl).1) _

theorem exists_ok_of_faultsSatisfy_valueFault {α : Type} {A : List Word} {x : Except Trap α} (hx : FaultsSatisfy (ValueFault A) x)
    (hA : ∀ v ∈ A, v.toNat < 2 ^ 28) : ∃ a, x = .ok a := by
  cases x with
  | ok a => exact ⟨a, rfl⟩
  | error t =>
    obtain ⟨v, hv, -⟩ := hx t rfl
    have hlarge : 2 ^ 28 ≤ v.toNat := by simpa [isTooLarge] using List.find?_some hv
    exact absurd (hA v (List.mem_of_find?_eq_some hv)) (Nat.not_lt.2 hlarge)

/-! ## The exceptions of a block -/

theorem mem_exceptionsFrom {b i : Nat} {V : List Word} {e : Nat × Word} (h : e ∈ exceptionsFrom b i V) :
    e.1 < i + V.length ∧ ∃ v ∈ V, e.2 = v >>> b := by
  induction V generalizing i with
  | nil => exact nomatch h
  | cons v V ih =>
    have htail (h : e ∈ exceptionsFrom b (i + 1) V) : e.1 < i + (v :: V).length ∧ ∃ w ∈ v :: V, e.2 = w >>> b := by
      obtain ⟨hpos, w, hw, he⟩ := ih h
      exact ⟨by rw [List.length_cons]; omega, w, List.mem_cons_of_mem _ hw, he⟩
    rw [exceptionsFrom] at h
    split at h
    · exact htail h
    · obtain rfl | h := List.mem_cons.1 h
      · exact ⟨by rw [List.length_cons]; omega, v, List.mem_cons_self, rfl⟩
      · exact htail h

/-- The high bits of a word over a width at most 28 bits under the block's largest. -/
theorem toNat_ushiftRight_lt {V : List Word} {v : Word} (hv : v ∈ V) {b : Nat} (hb : maxWidth (widths V) ≤ b + 28) : (v >>> b).toNat < 2 ^ 28 := by
  have hlt : v.toNat < 2 ^ (b + 28) := (bitlen_le_iff v _).1 ((le_maxWidth (List.mem_map_of_mem hv)).trans hb)
  rw [BitVec.toNat_ushiftRight, Nat.shiftRight_eq_div_pow]
  exact Nat.div_lt_of_lt_mul (by rwa [← pow_add])

theorem exceptionWords_lt {V : List Word} {b : Nat} (hlen : V.length ≤ 2 ^ 28) (hb : maxWidth (widths V) ≤ b + 28) :
    ∀ x ∈ exceptionWords b V, x.toNat < 2 ^ 28 := by
  intro x hx
  rw [exceptionWords, List.mem_append, List.mem_map, List.mem_map] at hx
  obtain ⟨e, he, rfl⟩ | ⟨e, he, rfl⟩ := hx
  · obtain ⟨hpos, -⟩ := mem_exceptionsFrom he
    rw [Nat.zero_add] at hpos
    rw [BitVec.toNat_ofNat]
    exact (Nat.mod_le _ _).trans_lt (hpos.trans_le hlen)
  · obtain ⟨-, v, hv, heq⟩ := mem_exceptionsFrom he
    rw [heq]
    exact toNat_ushiftRight_lt hv hb

/-! ## A chosen width is at most `gap` under the largest -/

theorem le_add_gap_of_eligible {bs gap m b : Nat} {ws : List Nat} (h : eligible bs gap m ws b = true) : m ≤ b + gap := by
  simp only [eligible, Bool.and_eq_true, decide_eq_true_eq] at h
  omega

theorem le_descend_add_gap (bs ovh gap m : Nat) (ws : List Nat) {best : Nat} (hbest : m ≤ best + gap) (bestCost k : Nat) :
    m ≤ descend bs ovh gap m ws best bestCost k + gap := by
  induction k generalizing best bestCost with
  | zero => exact hbest
  | succ b ih =>
    rw [descend]
    split
    next h => exact ih (le_add_gap_of_eligible (Bool.and_eq_true_iff.1 h).1) _
    next => exact hbest

theorem maxWidth_le_greedyWidth_add (bs ovh gap : Nat) (ws : List Nat) : maxWidth ws ≤ greedyWidth bs ovh gap ws + gap :=
  le_descend_add_gap _ _ _ _ _ (Nat.le_add_right _ _) _ _

/-- The search answers when every estimate it may ask for does. -/
theorem exists_searchAll_eq_ok {T : Layouts} {gap m : Nat} {V : List Word}
    (hest : ∀ b, m ≤ b + gap → ∃ est, selectorEstimate T (exceptionWords b V) = .ok est) (bs : Nat) {best : Nat} (hbest : m ≤ best + gap)
    (bestCost k : Nat) : ∃ b, searchAll T bs gap m V best bestCost k = .ok b ∧ m ≤ b + gap := by
  induction k generalizing best bestCost with
  | zero => exact ⟨best, rfl, hbest⟩
  | succ b ih =>
    rw [searchAll]
    split
    next h =>
      have hb := le_add_gap_of_eligible h
      obtain ⟨est, hok⟩ := hest b hb
      rw [hok]
      simp only [Bind.bind, Except.bind]
      split
      · exact ih hb _
      · exact ih hbest _
    next => exact ih hbest _

theorem exists_pfdWidth_eq_ok (search : Search) {T : Layouts} (hT : IsSelectorTable T) (ovh : Nat) {V : List Word} (hlen : V.length ≤ 2 ^ 28) :
    ∃ b, pfdWidth search T ovh V = .ok b ∧ maxWidth (widths V) ≤ b + 28 := by
  cases search with
  | greedy => exact ⟨_, rfl, maxWidth_le_greedyWidth_add _ _ _ _⟩
  | exhaustive =>
    refine exists_searchAll_eq_ok (fun b hb => ?_) _ (Nat.le_add_right _ _) _ _
    exact exists_ok_of_faultsSatisfy_valueFault (selectorEstimate_faults hT _) (exceptionWords_lt hlen hb)

/-! ## NewPFD and OptPFD never fault on a compress (R186) -/

theorem exists_pfdBlock_eq_ok (search : Search) {T : Layouts} (hT : IsSelectorTable T) (ovh : Nat) {V : List Word} (hlen : V.length ≤ 2 ^ 28) :
    ∃ out, pfdBlock search T ovh V = .ok out := by
  obtain ⟨b, hwidth, hb⟩ := exists_pfdWidth_eq_ok search hT ovh hlen
  obtain ⟨p, hp⟩ := exists_ok_of_faultsSatisfy_valueFault (selectorCompress_faults hT _) (exceptionWords_lt hlen hb)
  simp only [pfdBlock, hwidth, hp, Bind.bind, Except.bind]
  split
  · exact ⟨_, rfl⟩
  · exact ⟨_, rfl⟩

theorem exists_pfdBlocks_eq_ok (search : Search) {T : Layouts} (hT : IsSelectorTable T) (ovh : Nat) {Vs : List (List Word)}
    (hlen : ∀ V ∈ Vs, V.length ≤ 2 ^ 28) : ∃ out, pfdBlocks search T ovh Vs = .ok out := by
  induction Vs with
  | nil => exact ⟨[], rfl⟩
  | cons V Vs ih =>
    obtain ⟨hV, hVs⟩ := List.forall_mem_cons.1 hlen
    obtain ⟨x, hx⟩ := exists_pfdBlock_eq_ok search hT ovh hV
    obtain ⟨y, hy⟩ := ih hVs
    exact ⟨x ++ y, by rw [pfdBlocks, hx, hy]; rfl⟩

theorem length_le_of_mem_chunks {size k : Nat} {A V : List Word} (h : V ∈ chunks size k A) : V.length ≤ size := by
  induction k generalizing A with
  | zero => exact nomatch h
  | succ k ih =>
    obtain rfl | h := List.mem_cons.1 h
    · exact List.length_take_le _ _
    · exact ih h

theorem exists_pfdCompress_eq_ok (search : Search) {T : Layouts} (hT : IsSelectorTable T) (ovh : Word) (A : List Word) :
    ∃ p, pfdCompress search T ovh A = .ok p := by
  have hlen : ∀ V ∈ chunks 128 (A.length / 128) A, V.length ≤ 2 ^ 28 := fun V hV => (length_le_of_mem_chunks hV).trans (by decide)
  obtain ⟨out, hout⟩ := exists_pfdBlocks_eq_ok search hT ovh.toNat hlen
  exact ⟨_, by rw [pfdCompress, hout]; rfl⟩

theorem faultsSatisfy_of_exists_ok {α : Type} {P : Trap → Prop} {x : Except Trap α} (h : ∃ a, x = .ok a) : FaultsSatisfy P x := by
  obtain ⟨a, rfl⟩ := h
  exact .ok a

/-! ## The codec functions -/

/-- The faults of a compress of the codec `k` on the words `A`: `BadConfig` with the value of `PAGE`, and for a selector codec its value fault. -/
def CompressFault (k : Codec) (page : Word) (A : List Word) (t : Trap) : Prop :=
  t = ⟨.badConfig, page⟩ ∨ k ∈ [Codec.s9, .s16] ∧ ValueFault A t

theorem fpfCompress_faults (bs : Nat) (page ovh : Word) (A : List Word) :
    FaultsSatisfy (fun t => t = ⟨.badConfig, page⟩) (fpfCompress bs page ovh A) := by
  unfold fpfCompress
  split
  next t h => exact .error (eq_badConfig_of_pageFault h)
  next => exact .ok _

theorem headlessCompress_faults (k : Codec) (page ovh : Word) (A : List Word) :
    FaultsSatisfy (CompressFault k page A) (headlessCompress k page ovh A) := by
  cases k with
  | bp => exact .ok _
  | fpf128 => exact (fpfCompress_faults 128 page ovh A).mono fun _ => .inl
  | fpf256 => exact (fpfCompress_faults 256 page ovh A).mono fun _ => .inl
  | npfd9 => exact faultsSatisfy_of_exists_ok (exists_pfdCompress_eq_ok .greedy isSelectorTable_simple9 ovh A)
  | npfd16 => exact faultsSatisfy_of_exists_ok (exists_pfdCompress_eq_ok .greedy isSelectorTable_simple16 ovh A)
  | opfd9 => exact faultsSatisfy_of_exists_ok (exists_pfdCompress_eq_ok .exhaustive isSelectorTable_simple9 ovh A)
  | opfd16 => exact faultsSatisfy_of_exists_ok (exists_pfdCompress_eq_ok .exhaustive isSelectorTable_simple16 ovh A)
  | s9 => exact (selectorCompress_faults isSelectorTable_simple9 A).mono fun _ h => .inr ⟨by decide, h⟩
  | s16 => exact (selectorCompress_faults isSelectorTable_simple16 A).mono fun _ h => .inr ⟨by decide, h⟩
  | vb => exact .ok _

theorem granule_of_selector {k : Codec} (hk : k ∈ [Codec.s9, .s16]) : granule k = 1 :=
  (by decide : ∀ k ∈ [Codec.s9, .s16], granule k = 1) k hk

/-- A selector codec takes its whole input, in the headed form too, as its granule is 1. -/
theorem headedCompress_faults (k : Codec) (page ovh : Word) (A : List Word) :
    FaultsSatisfy (CompressFault k page A) (headedCompress k page ovh A) := by
  refine .ite (fun _ => .ok _) fun _ => .bind ((headlessCompress_faults k page ovh _).mono ?_) fun _ _ => .ok _
  rintro t (h | ⟨hk, h⟩)
  · exact .inl h
  · rw [granule_of_selector hk, floorTo_one, List.take_length] at h
    exact .inr ⟨hk, h⟩

/-- A first stage that is a selector codec is given the whole source; a second one that is, what the first stage left. After a first stage that is one, nothing is left. -/
theorem compCompress_faults (k1 k2 : Codec) (page ovh : Word) (A : List Word) :
    FaultsSatisfy (fun t => t = ⟨.badConfig, page⟩ ∨ ValueFault (A.drop (selectorStart (.compC k1 k2) A.length)) t)
      (compCompress k1 k2 page ovh A) := by
  refine .bind ((headedCompress_faults k1 page ovh A).mono ?_) fun p hp => .bind ((headlessCompress_faults k2 page ovh _).mono ?_) fun _ _ => .ok _
  · rintro t (h | ⟨hk, h⟩)
    · exact .inl h
    · rw [selectorStart, if_pos hk]
      exact .inr h
  · rintro t (h | ⟨-, h⟩)
    · exact .inl h
    · rw [headedCompress_read hp] at h
      rw [selectorStart]
      split
      next hk =>
        rw [granule_of_selector hk, floorTo_one, List.drop_length] at h
        exact absurd h (not_valueFault_nil t)
      next => exact .inr h

theorem topCompress_faults (k1 : Codec) (k2 : Option Codec) (page ovh : Word) (A : List Word) :
    FaultsSatisfy (fun t => t = ⟨.badConfig, page⟩ ∨ ValueFault (A.drop (selectorStart (.topC k1 k2) A.length)) t)
      (topCompress k1 k2 page ovh A) := by
  cases k2 with
  | none => exact .bind ((headlessCompress_faults k1 page ovh A).mono fun _ => .imp_right And.right) fun _ _ => .ok _
  | some k2 => exact .bind (compCompress_faults k1 k2 page ovh A) fun _ _ => .ok _

end Sys2Proof.Proofs
end

