-- ==== Sys2Proof/Proofs/CommandFaults.lean ====
section
/-! PROOF. Which faults a command can raise, said once for every command (`exec_faulted`): a width above 32 (60_exceptions.md R303), the three faults of the shared frame,
or a fault of the command's function. -/

namespace Sys2Proof.Proofs

open Sys2Proof.Machine

/-! ## Every command with a destination view is a data command -/

/-- The commands of the four codec forms. -/
def codecCommands : List (Instr × Codec) :=
  headlessCompressCommands ++ headlessDecompressCommands ++ headedCompressCommands ++ headedDecompressCommands

theorem exists_evaluates_of_mem_codecCommands {i : Instr} (h : i ∈ codecCommands.map Prod.fst) (s : State) : ∃ v, Evaluates s i v := by
  obtain ⟨⟨i, k⟩, hp, rfl⟩ := List.mem_map.1 h
  simp only [codecCommands, List.mem_append] at hp
  obtain ((hp | hp) | hp) | hp := hp
  · exact ⟨_, .headlessCompress i k hp⟩
  · exact ⟨_, .headlessDecompress i k hp⟩
  · exact ⟨_, .headedCompress i k hp⟩
  · exact ⟨_, .headedDecompress i k hp⟩

theorem wide_or_exists_evaluates {i : Instr} (h : hasDestination i = true) (s : State) :
    (∃ b, 32 < b ∧ i ∈ [Instr.pack b, .packu b, .unpack b]) ∨ ∃ v, Evaluates s i v := by
  cases i
  case nop | halt | set | mov | s9Est | s16Est => exact nomatch h
  case pack b => exact (Nat.lt_or_ge 32 b).imp (fun hb => ⟨b, hb, by simp⟩) fun hb => ⟨_, .pack b hb⟩
  case packu b => exact (Nat.lt_or_ge 32 b).imp (fun hb => ⟨b, hb, by simp⟩) fun hb => ⟨_, .packu b hb⟩
  case unpack b => exact (Nat.lt_or_ge 32 b).imp (fun hb => ⟨b, hb, by simp⟩) fun hb => ⟨_, .unpack b hb⟩
  case compC k1 k2 => exact .inr ⟨_, .compC k1 k2⟩
  case compD k1 k2 => exact .inr ⟨_, .compD k1 k2⟩
  case topC k1 k2 => exact .inr ⟨_, .topC k1 k2⟩
  case topD k1 k2 => exact .inr ⟨_, .topD k1 k2⟩
  case dzEnc => exact .inr ⟨_, .dzEnc⟩
  case dzDec => exact .inr ⟨_, .dzDec⟩
  all_goals exact .inr (exists_evaluates_of_mem_codecCommands (by decide) s)

/-! ## The faults of a data command's function -/

/-- The faults of a data command's function, with the words `given` to a selector codec. -/
def FunctionFault (page : Word) (given : List Word) (t : Trap) : Prop := CompositionFault page t ∨ ValueFault given t

theorem functionFault_of_decompressFault {page : Word} {given : List Word} {t : Trap} (h : DecompressFault page t) :
    FunctionFault page given t := .inl (.inl h)

theorem functionFault_underrun (page : Word) (given : List Word) : FunctionFault page given underrun :=
  functionFault_of_decompressFault (.inl (.inl rfl))

theorem functionFault_of_badConfig_or {page : Word} {given : List Word} {t : Trap} (h : t = ⟨.badConfig, page⟩ ∨ ValueFault given t) :
    FunctionFault page given t := h.imp_left fun h => .inl (.inr h)

theorem selectorStart_hcOf (k : Codec) (n : Nat) : selectorStart (hcOf k) n = 0 := by cases k <;> rfl

theorem selectorStart_cOf (k : Codec) (n : Nat) : selectorStart (cOf k) n = 0 := by cases k <;> rfl

theorem faults_of_evaluates {s : State} {i : Instr} {v : Except Trap Evaluated} (h : Evaluates s i v) :
    FaultsSatisfy (FunctionFault s.page (s.source.drop (selectorStart i s.source.length))) v := by
  cases h with
  | pack => exact .ite (fun _ => .error (functionFault_underrun _ _)) fun _ => .ok _
  | packu => exact .ite (fun _ => .error (functionFault_underrun _ _)) fun _ => .ite (fun _ => .ok _) fun _ => .ok _
  | unpack => exact .ite (fun _ => .error (functionFault_underrun _ _)) fun _ => .ok _
  | headlessCompress _ k hk =>
    rw [eq_hcOf_of_mem hk, selectorStart_hcOf]
    exact .map ((headlessCompress_faults k _ _ _).mono fun _ h => functionFault_of_badConfig_or (h.imp_right And.right)) _
  | headlessDecompress _ k _ => exact .map ((headlessDecompress_faults k _ _ _).mono fun _ => functionFault_of_decompressFault) _
  | headedCompress _ k hk =>
    rw [eq_cOf_of_mem hk, selectorStart_cOf]
    exact .map ((headedCompress_faults k _ _ _).mono fun _ h => functionFault_of_badConfig_or (h.imp_right And.right)) _
  | headedDecompress _ k _ => exact .map ((headedDecompress_faults k _ _).mono fun _ => functionFault_of_decompressFault) _
  | compC k1 k2 => exact .map ((compCompress_faults k1 k2 _ _ _).mono fun _ => functionFault_of_badConfig_or) _
  | compD k1 k2 => exact .map ((compDecompress_faults k1 k2 _ _ _).mono fun _ => .inl) _
  | topC k1 k2 => exact .map ((topCompress_faults k1 k2 _ _ _).mono fun _ => functionFault_of_badConfig_or) _
  | topD k1 k2 => exact .map ((topDecompress_faults k1 k2 _ _).mono fun _ => .inl) _
  | dzEnc => exact .ok _
  | dzDec => exact .ok _

/-! ## The faults of a command -/

/-- `CAUSE` and `FINFO` are a fault's. -/
def Reports (t : State) (trap : Trap) : Prop := t.cause = trap.cause.code ∧ t.finfo = trap.info

theorem reports_takeFault (s : State) (trap : Trap) : Reports (s.takeFault trap) trap := ⟨rfl, rfl⟩

/-- The faults of the command `i`. -/
inductive ExecFault (s : State) (i : Instr) : Trap → Prop
  /-- R303 -/
  | badWidth (b : Nat) (hb : 32 < b) (hi : i ∈ [Instr.pack b, .packu b, .unpack b]) : ExecFault s i ⟨.badWidth, BitVec.ofNat 32 b⟩
  /-- R304 -/
  | badView : ExecFault s i ⟨.badView, 0⟩
  /-- R305 -/
  | overlap : ExecFault s i ⟨.overlap, 0⟩
  /-- R307 -/
  | destinationOverflow : ExecFault s i ⟨.destinationOverflow, 0⟩
  /-- R306, R308 to R311 -/
  | function (t : Trap) (h : FunctionFault s.page (s.source.drop (selectorStart i s.source.length)) t) : ExecFault s i t

theorem viewFault_eq_some {s : State} {c : Cause} (h : s.viewFault = some c) : c = .badView ∨ c = .overlap := by
  unfold State.viewFault at h
  split at h
  next => exact .inl (Option.some.inj h).symm
  next =>
    split at h
    next => exact .inl (Option.some.inj h).symm
    next =>
      split at h
      next => exact .inr (Option.some.inj h).symm
      next => exact nomatch h

theorem execFault_of_viewFault {s : State} (i : Instr) {c : Cause} (h : s.viewFault = some c) : ExecFault s i ⟨c, 0⟩ := by
  obtain rfl | rfl := viewFault_eq_some h
  · exact .badView
  · exact .overlap

/-- The command's next state keeps `STATUS`, or is halted, or reports one of the command's faults. -/
def AnswersOrFaults (s : State) (i : Instr) : Prop :=
  ∃ t, exec i s = .next t ∧ (t.status = s.status ∨ t.status = .halted ∨ ∃ trap, Reports t trap ∧ ExecFault s i trap)

theorem answersOrFaults_of_evaluates {s : State} {i : Instr} {v : Except Trap Evaluated} (h : Evaluates s i v) : AnswersOrFaults s i := by
  obtain ⟨f, hf, heval⟩ := exec_of_evaluates h
  rw [AnswersOrFaults, hf]
  cases hviews : s.viewFault with
  | some c => exact ⟨_, dataCommand_viewFault hviews, .inr (.inr ⟨_, reports_takeFault _ _, execFault_of_viewFault i hviews⟩)⟩
  | none =>
    cases v with
    | error t => exact ⟨_, dataCommand_error hviews heval, .inr (.inr ⟨t, reports_takeFault _ _, .function t (faults_of_evaluates h t rfl)⟩)⟩
    | ok e =>
      obtain hc | hc := Nat.lt_or_ge s.capacity e.out.length
      · exact ⟨_, dataCommand_overflow hviews heval hc, .inr (.inr ⟨_, reports_takeFault _ _, .destinationOverflow⟩)⟩
      · exact ⟨_, dataCommand_commit hviews heval hc, .inl rfl⟩

theorem eq_of_mem_laneCommands {i : Instr} {b : Nat} (h : i ∈ [Instr.pack b, .packu b, .unpack b]) : i = .pack b ∨ i = .packu b ∨ i = .unpack b := by
  simpa using h

/-- A width above 32 faults before the views are looked at (R303, R314). -/
theorem exec_of_wide {i : Instr} {b : Nat} (hb : 32 < b) (hi : i ∈ [Instr.pack b, .packu b, .unpack b]) (s : State) :
    exec i s = .next (s.voidIfViews.takeFault ⟨.badWidth, BitVec.ofNat 32 b⟩) := by
  obtain rfl | rfl | rfl := eq_of_mem_laneCommands hi
  · exact widthCommand_badWidth hb
  · exact widthCommand_badWidth hb
  · exact widthCommand_badWidth hb

theorem answersOrFaults_of_estimate {T : Layouts} (hT : IsSelectorTable T) {s : State} {i : Instr} (hi : exec i s = estimateCommand T s)
    (hstart : selectorStart i s.source.length = 0) : AnswersOrFaults s i := by
  rw [AnswersOrFaults, hi]
  unfold estimateCommand
  split
  next => exact ⟨_, rfl, .inr (.inr ⟨_, reports_takeFault _ _, .badView⟩)⟩
  next =>
    split
    next t ht =>
      have hfault : ValueFault (s.source.drop (selectorStart i s.source.length)) t := by
        rw [hstart]
        exact selectorEstimate_faults hT _ t ht
      exact ⟨_, rfl, .inr (.inr ⟨t, reports_takeFault _ _, .function t (.inr hfault)⟩)⟩
    next => exact ⟨_, rfl, .inl rfl⟩

theorem answersOrFaults (i : Instr) (s : State) : AnswersOrFaults s i := by
  cases hdest : hasDestination i with
  | true =>
    obtain ⟨b, hb, hi⟩ | ⟨v, hv⟩ := wide_or_exists_evaluates hdest s
    · exact ⟨_, exec_of_wide hb hi s, .inr (.inr ⟨_, reports_takeFault _ _, .badWidth b hb hi⟩)⟩
    · exact answersOrFaults_of_evaluates hv
  | false =>
    cases i
    case nop => exact ⟨_, rfl, .inl rfl⟩
    case halt => exact ⟨_, rfl, .inr (.inl rfl)⟩
    case set rd imm => exact ⟨_, rfl, .inl (s.setReg_status rd imm)⟩
    case mov rd rs => exact ⟨_, rfl, .inl (s.setReg_status rd _)⟩
    case s9Est => exact answersOrFaults_of_estimate isSelectorTable_simple9 rfl rfl
    case s16Est => exact answersOrFaults_of_estimate isSelectorTable_simple16 rfl rfl
    all_goals exact nomatch hdest

/-- What a command that faulted reports. -/
theorem exec_faulted {i : Instr} {s t : State} (h : exec i s = .next t) (hs : s.status ≠ .faulted) (ht : t.status = .faulted) :
    ∃ trap, Reports t trap ∧ ExecFault s i trap := by
  obtain ⟨t', h', hstatus | hhalted | hfault⟩ := answersOrFaults i s <;> obtain rfl := Host.Outcome.next.inj (h'.symm.trans h)
  · exact absurd (hstatus.symm.trans ht) hs
  · exact nomatch hhalted.symm.trans ht
  · exact hfault

/-! ## BadWidth -/

theorem cause_ne_badWidth_of_functionFault {page : Word} {given : List Word} {t : Trap} (h : FunctionFault page given t) :
    t.cause ≠ .badWidth := by
  obtain (((rfl | rfl) | rfl) | rfl) | ⟨v, -, rfl⟩ := h <;> exact nofun

/-- Settles O13: a width above 32 is looked at first, and of a command's faults only that one has the cause. -/
theorem badWidthFaults : Obligations.BadWidthFaults := by
  refine ⟨fun s b i hb hi => ⟨_, exec_of_wide hb hi s, faulted_voidIfViews s _ _, rfl⟩, fun s t i h hs ht hcause => ?_⟩
  obtain ⟨trap, ⟨hcode, -⟩, hfault⟩ := exec_faulted h hs ht
  have hbad : trap.cause = .badWidth := Cause.code_injective (hcode.symm.trans hcause)
  cases hfault with
  | badWidth b hb hi => exact ⟨b, hb, hi⟩
  | function _ h => exact absurd hbad (cause_ne_badWidth_of_functionFault h)
  | badView => exact nomatch hbad
  | overlap => exact nomatch hbad
  | destinationOverflow => exact nomatch hbad

end Sys2Proof.Proofs
end

