-- ==== Sys2Proof/Proofs/FaultInformation.lean ====
section
/-! PROOF. What `FINFO` holds after a fault, by cause (60_exceptions.md R308, R312): of the faults of a fetch, and of the command that was decoded. For `BadWidth` the width
operand is the field of the command word. -/

namespace Sys2Proof.Proofs

open Sys2Proof.Machine

/-! ## The width field of the command word -/

/-- The width operand of the three lane commands (R110). -/
def widthOf : Instr → Option Nat
  | .pack b | .packu b | .unpack b => some b
  | _ => none

@[simp] theorem widthOf_hcOf (k : Codec) : widthOf (hcOf k) = none := by cases k <;> rfl

@[simp] theorem widthOf_hdOf (k : Codec) : widthOf (hdOf k) = none := by cases k <;> rfl

@[simp] theorem widthOf_cOf (k : Codec) : widthOf (cOf k) = none := by cases k <;> rfl

@[simp] theorem widthOf_dOf (k : Codec) : widthOf (dOf k) = none := by cases k <;> rfl

theorem widthOf_of_mem {i : Instr} {b : Nat} (h : i ∈ [Instr.pack b, .packu b, .unpack b]) : widthOf i = some b := by
  obtain rfl | rfl | rfl := eq_of_mem_laneCommands h <;> rfl

theorem widthOf_of_estOfId {a : Nat} {i : Instr} (h : estOfId a = some i) : widthOf i = none := by
  unfold estOfId at h
  split at h
  · cases h; rfl
  · cases h; rfl
  · exact nomatch h

/-- The width operand is the field `A` (R62). -/
theorem eq_of_decodeFields_of_widthOf {opc a b c n : Nat} {i : Instr} (h : decodeFields opc a b c = some (.whole i)) (hn : widthOf i = some n) :
    n = a := by
  unfold decodeFields at h
  split at h
  next => exact nomatch h
  next =>
    split at h
    case h_19 => exact nomatch h
    all_goals
      simp only [Option.ite_none_right_eq_some, Option.bind_eq_some_iff, Option.map_eq_some_iff, Option.some.injEq, Head.whole.injEq,
        reduceCtorEq] at h
      grind [widthOf, widthOf_hcOf, widthOf_hdOf, widthOf_cOf, widthOf_dOf, widthOf_of_estOfId]

/-- A command read from a word list is its first word's, or a `SET`, which has no width. -/
theorem decodeHead_of_decode_of_widthOf {w : Word} {ws rest : List Word} {i : Instr} {n : Nat} (h : decode (w :: ws) = .ok (i, rest))
    (hn : widthOf i = some n) : decodeHead w = some (.whole i) := by
  rw [decode] at h
  split at h
  next => exact nomatch h
  next hhead => cases h; exact hhead
  next =>
    split at h
    · exact nomatch h
    · cases h; exact nomatch hn

theorem lt_memwords_of_decode {s : State} {p : Instr × List Word} (h : decode s.fetchWindow = .ok p) : s.cp.toNat < s.memwords := by
  by_contra hcp
  rw [fetchWindow_eq_nil (Nat.not_lt.1 hcp)] at h
  exact nomatch h

theorem width_eq_field {s : State} {i : Instr} {rest : List Word} {b : Nat} (h : decode s.fetchWindow = .ok (i, rest)) (hb : widthOf i = some b) :
    b = (s.wordAt s.cp.toNat).toNat / 2 ^ 16 % 256 := by
  obtain ⟨ws, hws⟩ := fetchWindow_eq_cons (lt_memwords_of_decode h)
  rw [hws] at h
  have hhead := decodeHead_of_decode_of_widthOf h hb
  rw [decodeHead_eq_decodeFields] at hhead
  exact eq_of_decodeFields_of_widthOf hhead hb

/-! ## FINFO by cause -/

/-- What R312 and R308 say that `FINFO` holds after a fault at the state `s`. -/
def InfoByCause (s : State) (info : Word) : Cause → Prop
  | .illegalCommand => info = s.wordAt s.cp.toNat
  | .fetchOutOfRange => info = if s.memwords ≤ s.cp.toNat then s.cp else s.cp + 1
  | .badWidth => info.toNat = (s.wordAt s.cp.toNat).toNat / 2 ^ 16 % 256
  | .valueTooLarge => ∃ p, decode s.fetchWindow = .ok p ∧ (s.source.drop (selectorStart p.1 s.source.length)).find? isTooLarge = some info
  | .badConfig => info = s.page
  | .badView | .overlap | .sourceUnderrun | .destinationOverflow | .malformedStream | .badCount => info = 0

theorem infoByCause_of_functionFault {s : State} {i : Instr} {rest : List Word} {t : Trap} (hd : decode s.fetchWindow = .ok (i, rest))
    (h : FunctionFault s.page (s.source.drop (selectorStart i s.source.length)) t) : InfoByCause s t.info t.cause := by
  obtain (((rfl | rfl) | rfl) | rfl) | ⟨v, hv, rfl⟩ := h
  · exact rfl
  · exact rfl
  · exact rfl
  · exact rfl
  · exact ⟨_, hd, hv⟩

theorem infoByCause_of_execFault {s : State} {i : Instr} {rest : List Word} {t : Trap} (hd : decode s.fetchWindow = .ok (i, rest))
    (h : ExecFault s i t) : InfoByCause s t.info t.cause := by
  cases h with
  | badWidth b hb hi =>
    have hfield := width_eq_field hd (widthOf_of_mem hi)
    have hlt : b < 2 ^ 32 := hfield ▸ (Nat.mod_lt _ (by decide)).trans (by decide)
    exact (BitVec.toNat_ofNat b 32).trans ((Nat.mod_eq_of_lt hlt).trans hfield)
  | badView => exact rfl
  | overlap => exact rfl
  | destinationOverflow => exact rfl
  | function _ h => exact infoByCause_of_functionFault hd h

/-- The faults of the fetch (R301, R302). -/
theorem infoByCause_of_fetch_error {s : State} {r : Reject} (hd : decode s.fetchWindow = .error r) :
    InfoByCause s (fetchTrap s r).info (fetchTrap s r).cause := by
  obtain hcp | hcp := Nat.lt_or_ge s.cp.toNat s.memwords
  · obtain ⟨ws, hws⟩ := fetchWindow_eq_cons hcp
    rw [hws, decode] at hd
    split at hd
    next => cases hd; exact rfl
    next => exact nomatch hd
    next =>
      split at hd
      · cases hd; exact (if_neg (Nat.not_le.2 hcp)).symm
      · exact nomatch hd
  · rw [fetchWindow_eq_nil hcp] at hd
    cases hd
    exact (if_pos hcp).symm

theorem step_of_decode_ok {s : State} {p : Instr × List Word} (hs : s.status = .running) (hd : decode s.fetchWindow = .ok p) :
    step s = exec p.1 s := by
  simp only [step, hs, hd]

/-- What a step that faults reports. -/
theorem step_faulted {s t : State} (hs : s.status = .running) (h : step s = .next t) (ht : t.status = .faulted) :
    ∃ trap, Reports t trap ∧ InfoByCause s trap.info trap.cause := by
  cases hd : decode s.fetchWindow with
  | error r =>
    obtain rfl := Host.Outcome.next.inj ((step_of_fetch_error hs hd).symm.trans h)
    exact ⟨_, reports_takeFault _ _, infoByCause_of_fetch_error hd⟩
  | ok p =>
    rw [step_of_decode_ok hs hd] at h
    obtain ⟨trap, hreports, hfault⟩ := exec_faulted h (hs ▸ nofun) ht
    exact ⟨trap, hreports, infoByCause_of_execFault hd hfault⟩

/-- Settles O48: the cause is one of the eleven, and `FINFO` is what `InfoByCause` says of the cause with that code. -/
theorem faultInformation : Obligations.FaultInformation := by
  intro s t hs h ht
  obtain ⟨trap, ⟨hcause, hfinfo⟩, hinfo⟩ := step_faulted hs h ht
  have hby (c : Cause) (hc : t.cause = c.code) : InfoByCause s t.finfo c := by
    rw [hfinfo, ← Cause.code_injective (hcause.symm.trans hc)]
    exact hinfo
  obtain ⟨hlo, hhi⟩ := trap.cause.code_range
  refine ⟨hcause ▸ hlo, hcause ▸ hhi, hby .illegalCommand, hby .fetchOutOfRange, hby .badWidth, fun h8 => ?_, fun h8 i rest hd => ?_,
    hby .badConfig, fun hother => ?_⟩
  · obtain ⟨p, -, hfind⟩ := hby .valueTooLarge h8
    exact ⟨List.mem_of_mem_drop (List.mem_of_find?_eq_some hfind), by simpa [isTooLarge] using List.find?_some hfind⟩
  · obtain ⟨p, hp, hfind⟩ := hby .valueTooLarge h8
    obtain rfl := Except.ok.inj (hp.symm.trans hd)
    exact hfind
  · simp only [List.mem_cons, List.not_mem_nil, or_false] at hother
    obtain h4 | h5 | h6 | h7 | h9 | h11 := hother
    · exact hby .badView h4
    · exact hby .overlap h5
    · exact hby .sourceUnderrun h6
    · exact hby .destinationOverflow h7
    · exact hby .malformedStream h9
    · exact hby .badCount h11

end Sys2Proof.Proofs
end

