-- ==== Sys2Proof/Proofs/Encoding.lean ====
section
/-! PROOF. The decoder and the encoder are inverse (30_encoding.md R60 to R66). A command word is its fields (`eq_commandWord`), and each arm of the decoder finds an instruction
whose command word has the fields it looked at. -/

namespace Sys2Proof.Proofs

open Sys2Proof.Machine

/-! ## Decode after encode -/

theorem encodingStatement (i : Instr) : Laws.Encoding.Statement i := by
  cases i
  case set rd imm => exact Laws.Encoding.set rd imm
  case mov rd rs => exact Laws.Encoding.mov rd rs
  case pack b => exact Laws.Encoding.pack b
  case packu b => exact Laws.Encoding.packu b
  case unpack b => exact Laws.Encoding.unpack b
  case compC k1 k2 => exact Laws.Encoding.compC k1 k2
  case compD k1 k2 => exact Laws.Encoding.compD k1 k2
  case topC k1 k2 => exact Laws.Encoding.topC k1 k2
  case topD k1 k2 => exact Laws.Encoding.topD k1 k2
  all_goals exact fun _ rest => Laws.decode_whole (by decide) rest

/-- Settles O1: one lemma for each instruction, `Laws.Encoding`. -/
theorem decodeReadsBackEncode : Obligations.DecodeReadsBackEncode := fun i rest hi => encodingStatement i hi rest

/-! ## Encode after decode -/

/-- A word is made of its fields. -/
theorem eq_commandWord {w : Word} (hc : w.toNat % 256 = 0) :
    w = commandWord (w.toNat / 2 ^ 24) (w.toNat / 2 ^ 16 % 256) (w.toNat / 2 ^ 8 % 256) := by
  have hlt := w.isLt
  refine BitVec.eq_of_toNat_eq ?_
  rw [commandWord, BitVec.toNat_ofNat]
  omega

theorem index_of_ofIndex {a : Nat} {r : Reg} (h : Reg.ofIndex a = some r) : r.index = a := by
  unfold Reg.ofIndex at h
  split at h
  case h_11 => exact nomatch h
  all_goals cases h; rfl

theorem id_of_ofId {a : Nat} {k : Codec} (h : Codec.ofId a = some k) : k.id = a := by
  unfold Codec.ofId at h
  split at h
  case h_11 => exact nomatch h
  all_goals cases h; rfl

theorem secondId_of_secondOfId {b : Nat} {k : Option Codec} (h : secondOfId b = some k) : secondId k = b := by
  unfold secondOfId at h
  split at h
  case isTrue hb => cases h; exact hb.symm
  case isFalse =>
    obtain ⟨k, hk, rfl⟩ := Option.map_eq_some_iff.1 h
    exact id_of_ofId hk

theorem encode_hcOf (k : Codec) : encode (hcOf k) = [commandWord 0x20 k.id 0] := by cases k <;> rfl

theorem encode_hdOf (k : Codec) : encode (hdOf k) = [commandWord 0x21 k.id 0] := by cases k <;> rfl

theorem encode_cOf (k : Codec) : encode (cOf k) = [commandWord 0x22 k.id 0] := by cases k <;> rfl

theorem encode_dOf (k : Codec) : encode (dOf k) = [commandWord 0x23 k.id 0] := by cases k <;> rfl

theorem encode_of_estOfId {a : Nat} {i : Instr} (h : estOfId a = some i) : encode i = [commandWord 0x24 a 0] := by
  unfold estOfId at h
  split at h
  case h_3 => exact nomatch h
  all_goals cases h; rfl

theorem wellFormed_of_widthOf {i : Instr} (h : widthOf i = none) : i.wellFormed = true := by
  cases i
  case pack | packu | unpack => exact nomatch h
  all_goals rfl

/-- The word `w` is the command word of what the decoder made of it. -/
def IsHeadOf (w : Word) : Head → Prop
  | .whole i => i.wellFormed = true ∧ encode i = [w]
  | .setOf rd => w = commandWord 0x02 rd.index 0

theorem isHeadOf_whole {w : Word} {i : Instr} (hw : widthOf i = none) (h : encode i = [w]) : IsHeadOf w (.whole i) :=
  ⟨wellFormed_of_widthOf hw, h⟩

/-- One case for each arm of the decoder: the fields it looked at are those of the instruction it found. -/
theorem isHeadOf_of_decodeFields {opc a b c : Nat} {h : Head} (ha : a < 256) (hd : decodeFields opc a b c = some h) :
    c = 0 ∧ IsHeadOf (commandWord opc a b) h := by
  unfold decodeFields at hd
  rw [Option.ite_none_left_eq_some] at hd
  obtain ⟨hc, hd⟩ := hd
  refine ⟨not_not.1 hc, ?_⟩
  split at hd
  case h_1 | h_2 | h_17 | h_18 =>
    obtain ⟨⟨rfl, rfl⟩, heq⟩ := Option.ite_none_right_eq_some.1 hd
    cases heq
    exact isHeadOf_whole rfl rfl
  case h_3 =>
    obtain ⟨rfl, hd⟩ := Option.ite_none_right_eq_some.1 hd
    obtain ⟨rd, hrd, rfl⟩ := Option.map_eq_some_iff.1 hd
    rw [← index_of_ofIndex hrd]
    exact rfl
  case h_4 =>
    obtain ⟨rd, hrd, hd⟩ := Option.bind_eq_some_iff.1 hd
    obtain ⟨rs, hrs, rfl⟩ := Option.map_eq_some_iff.1 hd
    rw [← index_of_ofIndex hrd, ← index_of_ofIndex hrs]
    exact isHeadOf_whole rfl rfl
  case h_5 | h_6 | h_7 =>
    obtain ⟨rfl, heq⟩ := Option.ite_none_right_eq_some.1 hd
    cases heq
    exact ⟨decide_eq_true (Nat.le_of_lt_succ ha), rfl⟩
  case h_8 | h_9 | h_10 | h_11 =>
    obtain ⟨rfl, hd⟩ := Option.ite_none_right_eq_some.1 hd
    obtain ⟨k, hk, rfl⟩ := Option.map_eq_some_iff.1 hd
    rw [← id_of_ofId hk]
    exact isHeadOf_whole (by simp) (by simp only [encode_hcOf, encode_hdOf, encode_cOf, encode_dOf])
  case h_12 =>
    obtain ⟨rfl, hd⟩ := Option.ite_none_right_eq_some.1 hd
    obtain ⟨i, hi, rfl⟩ := Option.map_eq_some_iff.1 hd
    exact isHeadOf_whole (widthOf_of_estOfId hi) (encode_of_estOfId hi)
  case h_13 | h_14 =>
    obtain ⟨k1, hk1, hd⟩ := Option.bind_eq_some_iff.1 hd
    obtain ⟨k2, hk2, rfl⟩ := Option.map_eq_some_iff.1 hd
    rw [← id_of_ofId hk1, ← id_of_ofId hk2]
    exact isHeadOf_whole rfl rfl
  case h_15 | h_16 =>
    obtain ⟨k1, hk1, hd⟩ := Option.bind_eq_some_iff.1 hd
    obtain ⟨k2, hk2, rfl⟩ := Option.map_eq_some_iff.1 hd
    rw [← id_of_ofId hk1, ← secondId_of_secondOfId hk2]
    exact isHeadOf_whole rfl rfl
  case h_19 => exact nomatch hd

theorem isHeadOf_of_decodeHead {w : Word} {h : Head} (hd : decodeHead w = some h) : IsHeadOf w h := by
  rw [decodeHead_eq_decodeFields] at hd
  obtain ⟨hc, hhead⟩ := isHeadOf_of_decodeFields (Nat.mod_lt _ (by decide)) hd
  rwa [← eq_commandWord hc] at hhead

/-- Settles O2: the command word is `isHeadOf_of_decodeHead`, the immediate of a `SET` is the word it is. -/
theorem decodedWordsAreItsEncoding : Obligations.DecodedWordsAreItsEncoding := by
  intro ws i rest h
  cases ws with
  | nil => exact nomatch h
  | cons w ws =>
    rw [decode] at h
    split at h
    next => exact nomatch h
    next i' hd =>
      cases h
      obtain ⟨hwf, henc⟩ := isHeadOf_of_decodeHead hd
      exact ⟨hwf, by rw [henc, List.singleton_append]⟩
    next rd hd =>
      have hw : w = commandWord 0x02 rd.index 0 := isHeadOf_of_decodeHead hd
      cases ws with
      | nil => exact nomatch h
      | cons imm ws =>
        cases h
        exact ⟨rfl, by rw [hw]; rfl⟩

/-- Settles O4: each list is what the encoder writes for the instruction. -/
theorem writtenWordsDecode : Obligations.WrittenWordsDecode := by
  have hencode (i : Instr) (hi : i.wellFormed = true) : decode (encode i) = .ok (i, []) := by
    simpa using decodeReadsBackEncode i [] hi
  exact ⟨hencode .nop rfl, hencode .halt rfl, hencode (.set .zp 5) rfl, hencode (.mov .se .dp) rfl, hencode (.pack 5) rfl, hencode (.unpack 40) rfl,
    hencode .bpHc rfl, hencode .fpf256Hd rfl, hencode .npfd9C rfl, hencode .opfd16D rfl, hencode .s9Hc rfl, hencode .s16Est rfl, hencode .vbHd rfl,
    hencode (.compC .bp .vb) rfl, hencode (.topD .vb none) rfl, hencode .dzDec rfl⟩

end Sys2Proof.Proofs
end

