-- ==== Sys2Proof/Proofs/LegalStates.lean ====
section
/-! PROOF. The legal states of the engine (00_scope.md R3, 20_memory.md R40, 60_exceptions.md R312): the state after reset is one, and every step and every host move keeps
them. A write keeps the memory legal when it ends inside `M`, and `CAUSE` and `FINFO` are either as they were or a fault's. -/

namespace Sys2Proof.Proofs

open Sys2Proof.Machine

/-- Settles O55: nothing is listed, and `CAUSE` is 0. -/
theorem resetIsLegal : Obligations.ResetIsLegal := by
  have hreset (n : Nat) (hpos : 1 ≤ n) (hle : n ≤ 2 ^ 31) : (State.resetOf n).Legal :=
    { memwords_pos := hpos, memwords_le := hle, mem_wf := wf_resetOf n, mem_inside := nofun, cause := Nat.zero_le _ }
  exact ⟨hreset _ (by decide) le_rfl, hreset⟩

/-- The memory is in its canonical form and inside `M`. -/
def MemLegal (s : State) : Prop := Memory.wf s.mem ∧ ∀ c ∈ s.mem, c.1 < 4 * s.memwords

/-- A state with the memory size and the memory of a legal one, and a legal `CAUSE`, is legal. -/
theorem legal_of_kept {s t : State} (h : s.Legal) (hwords : t.memwords = s.memwords) (hmem : MemLegal t) (hcause : t.causeLegal) : t.Legal where
  memwords_pos := hwords ▸ h.memwords_pos
  memwords_le := hwords ▸ h.memwords_le
  mem_wf := hmem.1
  mem_inside := hmem.2
  cause := hcause

theorem memLegal_of_eq {s t : State} (h : s.Legal) (hwords : t.memwords = s.memwords) (hmem : t.mem = s.mem) : MemLegal t := by
  rw [MemLegal, hmem, hwords]
  exact ⟨h.mem_wf, h.mem_inside⟩

/-- A write that ends inside `M` keeps the memory legal. -/
theorem memLegal_of_write {s t : State} {a : Nat} {ws : List Word} (h : s.Legal) (hwords : t.memwords = s.memwords)
    (hmem : t.mem = writeWords s.mem a ws) (hend : a + ws.length ≤ s.memwords) : MemLegal t := by
  rw [MemLegal, hmem, hwords]
  refine ⟨wf_writeWords _ _ _ h.mem_wf, fun c hc => ?_⟩
  obtain hc | ⟨-, hc⟩ := writeWords_keys _ _ _ c hc
  · exact h.mem_inside c hc
  · omega

theorem causeLegal_of_eq {s t : State} (h : s.causeLegal) (hstatus : t.status = s.status) (hcause : t.cause = s.cause) (hfinfo : t.finfo = s.finfo) :
    t.causeLegal := by
  rwa [State.causeLegal, hstatus, hcause, hfinfo]

theorem causeLegal_takeFault (s : State) (t : Trap) : (s.takeFault t).causeLegal := t.cause.code_range

theorem capacity_le {s : State} (h : s.viewFault = none) : s.dp.toNat + s.capacity ≤ s.memwords := by
  obtain ⟨-, ⟨hle, hend⟩, -⟩ := s.viewFault_eq_none.1 h
  rw [State.capacity]
  omega

theorem memLegal_voidDestination {s : State} (h : s.Legal) (hv : s.viewFault = none) : MemLegal s.voidDestination :=
  memLegal_of_write h rfl rfl (by rw [State.freeWords_length]; exact capacity_le hv)

/-- One case for each way a command ends. A halting command and one that goes on find `CAUSE` and `FINFO` at 0, as the engine is running. -/
theorem legal_of_effect {s t : State} (h : s.Legal) (hs : s.status = .running) (he : Effect s t) : t.Legal := by
  have hcause := h.cause
  cases he with
  | commit e hv hroom =>
    have hend := capacity_le hv
    exact legal_of_kept h rfl (memLegal_of_write h rfl rfl (by omega)) (causeLegal_of_eq hcause rfl rfl rfl)
  | voidFault trap hv => exact legal_of_kept h rfl (memLegal_voidDestination h hv) (causeLegal_takeFault _ trap)
  | plainFault trap => exact legal_of_kept h rfl (memLegal_of_eq h rfl rfl) (causeLegal_takeFault _ trap)
  | estimate r w => exact legal_of_kept h rfl (memLegal_of_eq h rfl rfl) (causeLegal_of_eq hcause rfl rfl rfl)
  | register r v len hlen =>
    exact legal_of_kept h (by simp) (memLegal_of_eq h (by simp) (by simp)) (causeLegal_of_eq hcause (by simp) (by simp) (by simp))
  | advance => exact legal_of_kept h rfl (memLegal_of_eq h rfl rfl) (causeLegal_of_eq hcause rfl rfl rfl)
  | halt =>
    rw [State.causeLegal, hs] at hcause
    exact legal_of_kept h rfl (memLegal_of_eq h rfl rfl) hcause

/-- Settles O54: a stopped engine keeps its state, a running one has the effect of one command. -/
theorem stepKeepsLegal : Obligations.StepKeepsLegal := by
  intro s t h hstep
  obtain ⟨-, rfl⟩ | ⟨hs, he⟩ := step_cases hstep
  · exact h
  · exact legal_of_effect h hs he

/-! ## The host's moves -/

/-- In every status a legal `CAUSE` is at most 11, as `IDLE` asks. -/
theorem cause_le_of_causeLegal {s : State} (h : s.causeLegal) : s.cause.toNat ≤ 11 := by
  rw [State.causeLegal] at h
  cases hs : s.status <;> rw [hs] at h
  case idle => exact h
  case faulted => exact h.2
  all_goals rw [h.1]; decide

theorem causeLegal_of_idle {s : State} (hs : s.status = .idle) (h : s.cause.toNat ≤ 11) : s.causeLegal := by
  rwa [State.causeLegal, hs]

theorem legal_clear {s : State} (h : s.Legal) : s.clear.Legal := by
  obtain heq | heq := s.clear_eq <;> rw [heq]
  · exact h
  · exact legal_of_kept h rfl (memLegal_of_eq h rfl rfl) (causeLegal_of_idle rfl (show s.cause.toNat ≤ 11 from cause_le_of_causeLegal h.cause))

theorem legal_resetPowered {s : State} (h : s.Legal) {t : State} (hwords : t.memwords = s.memwords) (hmem : MemLegal t) : t.resetPowered.Legal :=
  legal_of_kept h hwords hmem (Nat.zero_le _)

theorem cutShort_eq (s : State) : s.cutShort = s ∨ s.cutShort = s.voidIfViews := by
  unfold State.cutShort
  split
  · split
    · exact .inr rfl
    · exact .inl rfl
  · exact .inl rfl

theorem cutShort_eq_or_void (s : State) : s.cutShort = s ∨ s.viewFault = none ∧ s.cutShort = s.voidDestination := by
  obtain h | h := cutShort_eq s
  · exact .inl h
  · rw [h]
    exact s.voidIfViews_eq

/-- A write the host may make while the engine is stopped. -/
theorem eq_of_hostWrite_eq_next {s t t' : State} (h : s.hostWrite t' = .next t) : t = t' := by
  unfold State.hostWrite at h
  split at h
  · exact nomatch h
  · cases h; rfl

/-- Settles O60, move by move. -/
theorem hostMovesKeepLegal : Obligations.HostMovesKeepLegal := by
  intro s t m h hmove
  cases m with
  | start a =>
    simp only [hostMove, State.start] at hmove
    split at hmove
    case h_1 => cases hmove; exact legal_of_kept h rfl (memLegal_of_eq h rfl rfl) ⟨rfl, rfl⟩
    case h_4 => exact nomatch hmove
    all_goals cases hmove; exact h
  | clear => cases hmove; exact legal_clear h
  | reset => cases hmove; exact legal_resetPowered h rfl (memLegal_of_eq h rfl rfl)
  | resetDuring =>
    cases hmove
    obtain heq | ⟨hv, heq⟩ := cutShort_eq_or_void s <;> rw [heq]
    · exact legal_resetPowered h rfl (memLegal_of_eq h rfl rfl)
    · exact legal_resetPowered h rfl (memLegal_voidDestination h hv)
  | powerOn => cases hmove; exact legal_of_kept h rfl ⟨wf_resetOf s.memwords, nofun⟩ (Nat.zero_le _)
  | writeWord a w =>
    simp only [hostMove] at hmove
    split at hmove
    next ha =>
      obtain rfl := eq_of_hostWrite_eq_next hmove
      exact legal_of_kept h rfl (memLegal_of_write h rfl rfl ha) (causeLegal_of_eq h.cause rfl rfl rfl)
    next => exact nomatch hmove
  | writeReg r v =>
    obtain rfl := eq_of_hostWrite_eq_next hmove
    exact legal_of_kept h (by simp) (memLegal_of_eq h (by simp) (by simp)) (causeLegal_of_eq h.cause (by simp) (by simp) (by simp))
  | writeCp v =>
    obtain rfl := eq_of_hostWrite_eq_next hmove
    exact legal_of_kept h rfl (memLegal_of_eq h rfl rfl) (causeLegal_of_eq h.cause rfl rfl rfl)
  | writeStatus v =>
    simp only [hostMove] at hmove
    split at hmove <;> cases hmove
    · exact legal_clear h
    · exact h
  | writeCause v => rwa [eq_of_hostWrite_eq_next hmove]
  | writeFinfo v => rwa [eq_of_hostWrite_eq_next hmove]

end Sys2Proof.Proofs
end

