-- ==== Sys2Proof/Proofs/Sequencer.lean ====
section
/-! PROOF. The step and the four sequencer commands (40_sequencer.md R90 to R94). A step fetches one or two words, of which a decoded instruction's own are the first ones. -/

namespace Sys2Proof.Proofs

open Sys2Proof.Machine

/-! ## The step -/

/-- Settles O7: `step` looks at `STATUS` first. -/
theorem stoppedEngineKeepsState : Obligations.StoppedEngineKeepsState := by
  intro s hs
  unfold step
  split
  next h => exact absurd h hs
  all_goals rfl

theorem length_encode (i : Instr) : (encode i).length = 1 ∨ (encode i).length = 2 := by
  unfold encode
  split
  · exact .inr rfl
  · exact .inl rfl

/-- The fetch window begins with the one or two words at `CP`, when they are words of `M`. -/
theorem exists_fetchWindow_eq_append {s : State} {n : Nat} (hn : n = 1 ∨ n = 2) (hend : s.cp.toNat + n ≤ s.memwords) :
    ∃ rest, s.fetchWindow = s.memRead s.cp.toNat n ++ rest := by
  rw [State.memRead_eq_map, State.fetchWindow, if_pos (by omega)]
  obtain rfl | rfl := hn
  · exact ⟨_, rfl⟩
  · rw [if_pos (by omega)]
    exact ⟨[], rfl⟩

/-- Settles O5: the words decoded are the instruction's (`decodedWordsAreItsEncoding`), so it is decoded from the whole window too. -/
theorem stepRunsDecodedInstruction : Obligations.StepRunsDecodedInstruction := by
  intro s i hs hend hd
  obtain ⟨hwf, hwords⟩ := decodedWordsAreItsEncoding _ _ _ hd
  obtain ⟨rest, hwindow⟩ := exists_fetchWindow_eq_append (length_encode i) hend
  have hfetch : decode s.fetchWindow = .ok (i, rest) := by
    rw [hwindow, hwords, List.append_nil]
    exact decodeReadsBackEncode i rest hwf
  exact step_of_decode_ok hs hfetch

/-! ## The commands -/

/-- Settles O8: `CP` advances and nothing else is written. -/
theorem nopOnlyAdvances : Obligations.NopOnlyAdvances := fun s =>
  ⟨s.advance 1, rfl, rfl, fun r _ => s.reg_advance 1 r, ⟨rfl, rfl, rfl, rfl⟩, fun _ => rfl⟩

theorem reg_status (s : State) (v : Status) (r : Reg) : { s with status := v }.reg r = s.reg r := by cases r <;> rfl

/-- Settles O9: `STATUS` is written and nothing else. -/
theorem haltEndsTheRun : Obligations.HaltEndsTheRun := fun s =>
  ⟨{ s with status := .halted }, rfl, rfl, rfl, fun r _ => reg_status s _ r, rfl, rfl, rfl, fun _ => rfl⟩

theorem memKept_setReg (s : State) (r : Reg) (v : Word) : MemKept s (s.setReg r v) := by
  intro i
  rw [State.byteAt, State.setReg_mem, State.setReg_epoch]
  rfl

theorem controlKept_setReg (s : State) (r : Reg) (v : Word) : ControlKept s (s.setReg r v) :=
  ⟨s.setReg_status r v, s.setReg_cause r v, s.setReg_finfo r v, s.setReg_memwords r v⟩

theorem regsKeptBut_setReg (s : State) (r : Reg) (v : Word) : RegsKeptBut [r] s (s.setReg r v) :=
  fun _ hq => s.reg_setReg_ne v (List.ne_of_not_mem_cons hq)

/-- What `SET` and `MOV` leave: one register written, `CP` moved, all else kept. -/
theorem setReg_advance_frame (s : State) (r : Reg) (v : Word) (len : Nat) :
    ((s.setReg r v).advance len).reg r = v ∧ ((s.setReg r v).advance len).cp = s.cp + BitVec.ofNat 32 len ∧
      RegsKeptBut [r] s ((s.setReg r v).advance len) ∧ ControlKept s ((s.setReg r v).advance len) ∧ MemKept s ((s.setReg r v).advance len) := by
  refine ⟨by simp, by simp, fun q hq => ?_, controlKept_setReg s r v, memKept_setReg s r v⟩
  rw [State.reg_advance]
  exact regsKeptBut_setReg s r v q hq

/-- Settles O10: the frame of a register write, and `stepRunsDecodedInstruction` at the two words of the `SET`. -/
theorem setWritesItsRegister : Obligations.SetWritesItsRegister := by
  refine ⟨fun s rd imm => ⟨_, rfl, setReg_advance_frame s rd imm 2⟩, fun s rd hs hend hset => ?_⟩
  refine stepRunsDecodedInstruction s _ hs hend ?_
  have hwords : s.memRead s.cp.toNat 2 = encode (.set rd (s.wordAt (s.cp.toNat + 1))) := by
    rw [State.memRead_eq_map, encode, Instr.head, ← hset]
    rfl
  exact hwords ▸ decodeReadsBackEncode _ [] rfl

/-- Settles O11: `MOV` writes the one register with what it reads before the write. -/
theorem movCopiesARegister : Obligations.MovCopiesARegister := fun s rd rs => ⟨_, rfl, setReg_advance_frame s rd (s.reg rs) 1⟩

end Sys2Proof.Proofs
end

