-- ==== Sys2Proof/Proofs/CommandEnds.lean ====
section
/-! PROOF. How a command ends, said once with the command's name (`exec_ends`, which adds to `exec_cases` which command has which end), and what follows for `CP`, the
configuration registers, the memory, and the length of a run (40_sequencer.md R95, R97, 20_memory.md R52). -/

namespace Sys2Proof.Proofs

open Sys2Proof.Machine

/-! ## The ends of a command -/

/-- The ends of the command `i` in the state `s`. -/
inductive Ends (s : State) : Instr → State → Prop
  | nop : Ends s .nop (s.advance 1)
  | halt : Ends s .halt { s with status := .halted }
  | set (rd : Reg) (imm : Word) : Ends s (.set rd imm) ((s.setReg rd imm).advance 2)
  | mov (rd rs : Reg) : Ends s (.mov rd rs) ((s.setReg rd (s.reg rs)).advance 1)
  | estimate {i : Instr} (r w : Word) (hi : i ∈ [Instr.s9Est, .s16Est]) : Ends s i { s with rc := r, wc := w, cp := s.cp + 1 }
  | plainFault (i : Instr) (t : Trap) : Ends s i (s.takeFault t)
  | voidFault (i : Instr) (t : Trap) (views : s.viewFault = none) : Ends s i (s.voidDestination.takeFault t)
  | commit {i : Instr} {e : Evaluated} (he : Evaluates s i (.ok e)) (views : s.viewFault = none) (room : e.out.length ≤ s.capacity) :
      Ends s i (s.commit e)

theorem ends_of_evaluates {s t : State} {i : Instr} {v : Except Trap Evaluated} (hv : Evaluates s i v) (h : exec i s = .next t) : Ends s i t := by
  obtain ⟨f, hf, heval⟩ := exec_of_evaluates hv
  rw [hf] at h
  cases hviews : s.viewFault with
  | some c => rw [dataCommand_viewFault hviews] at h; cases h; exact .plainFault i _
  | none =>
    cases v with
    | error t => rw [dataCommand_error hviews heval] at h; cases h; exact .voidFault i t hviews
    | ok e =>
      obtain hc | hc := Nat.lt_or_ge s.capacity e.out.length
      · rw [dataCommand_overflow hviews heval hc] at h; cases h; exact .voidFault i _ hviews
      · rw [dataCommand_commit hviews heval hc] at h; cases h; exact .commit hv hviews hc

theorem ends_of_estimate {T : Layouts} {s t : State} {i : Instr} (hi : i ∈ [Instr.s9Est, .s16Est]) (h : estimateCommand T s = .next t) :
    Ends s i t := by
  unfold estimateCommand at h
  split at h
  next => cases h; exact .plainFault i _
  next =>
    split at h
    next => cases h; exact .plainFault i _
    next => cases h; exact .estimate _ _ hi

theorem exec_ends {s t : State} {i : Instr} (h : exec i s = .next t) : Ends s i t := by
  cases hdest : hasDestination i with
  | true =>
    obtain ⟨b, hb, hi⟩ | ⟨v, hv⟩ := wide_or_exists_evaluates hdest s
    · rw [exec_of_wide hb hi] at h
      cases h
      obtain heq | ⟨hviews, heq⟩ := s.voidIfViews_eq <;> rw [heq]
      · exact .plainFault i _
      · exact .voidFault i _ hviews
    · exact ends_of_evaluates hv h
  | false =>
    cases i
    case nop => cases h; exact .nop
    case halt => cases h; exact .halt
    case set rd imm => cases h; exact .set rd imm
    case mov rd rs => cases h; exact .mov rd rs
    case s9Est => exact ends_of_estimate (by decide) h
    case s16Est => exact ends_of_estimate (by decide) h
    all_goals exact nomatch hdest

/-! ## CP -/

theorem length_encode_of_evaluates {s : State} {i : Instr} {v : Except Trap Evaluated} (h : Evaluates s i v) : (encode i).length = 1 := by
  cases h with
  | headlessCompress _ k hk => rw [eq_hcOf_of_mem hk, encode_hcOf]; rfl
  | headlessDecompress _ k hk => rw [eq_hdOf_of_mem hk, encode_hdOf]; rfl
  | headedCompress _ k hk => rw [eq_cOf_of_mem hk, encode_cOf]; rfl
  | headedDecompress _ k hk => rw [eq_dOf_of_mem hk, encode_dOf]; rfl
  | _ => rfl

/-- Settles O50, end by end. -/
theorem commandPointerOnlyAdvances : Obligations.CommandPointerOnlyAdvances := by
  intro s t i h
  cases exec_ends h with
  | nop => exact .inl ⟨rfl, rfl⟩
  | halt => exact .inr ⟨rfl, .inl ⟨rfl, rfl⟩⟩
  | set rd imm => exact .inl ⟨by simp [encode], by simp⟩
  | mov rd rs => exact .inl ⟨by simp [encode], by simp⟩
  | estimate r w hi =>
    have hlen : (encode i).length = 1 := (by decide : ∀ i ∈ [Instr.s9Est, .s16Est], (encode i).length = 1) i hi
    exact .inl ⟨by rw [hlen]; rfl, rfl⟩
  | plainFault => exact .inr ⟨rfl, .inr rfl⟩
  | voidFault => exact .inr ⟨rfl, .inr rfl⟩
  | commit he => exact .inl ⟨by rw [length_encode_of_evaluates he]; rfl, rfl⟩

/-! ## The configuration registers -/

theorem zp_of_codecEvaluated {x : CodecResult} {e : Evaluated} (h : codecEvaluated x = .ok e) : e.zp = none := by
  cases x with
  | error t => exact nomatch h
  | ok p => cases h; rfl

/-- Only the filter commands give a `ZP`. -/
theorem zp_of_evaluates {s : State} {i : Instr} {v : Except Trap Evaluated} (h : Evaluates s i v) (henc : i ≠ .dzEnc) (hdec : i ≠ .dzDec)
    {e : Evaluated} (he : v = .ok e) : e.zp = none := by
  cases h with
  | pack => unfold packEval at he; split at he <;> cases he; rfl
  | packu =>
    unfold packuEval at he
    split at he
    next => exact nomatch he
    next => split at he <;> cases he <;> rfl
  | unpack => unfold unpackEval at he; split at he <;> cases he; rfl
  | dzEnc => exact absurd rfl henc
  | dzDec => exact absurd rfl hdec
  | _ => exact zp_of_codecEvaluated he

/-- The registers that no data command but a filter command writes. -/
theorem reg_commit {q : Reg} (s : State) (e : Evaluated) (hq : q ∉ [Reg.sp, .dp, .rc, .wc, .zp]) : (s.commit e).reg q = s.reg q :=
  (committed_commit s e).regs q hq

theorem reg_estimate {q : Reg} (s : State) (r w c : Word) (hq : q ∉ [Reg.rc, .wc]) : { s with rc := r, wc := w, cp := c }.reg q = s.reg q := by
  cases q <;> simp [State.reg] at hq ⊢

/-- A register other than the five a commit writes is written by `SET` and `MOV` alone. -/
theorem reg_of_ends {s t : State} {i : Instr} {q : Reg} (h : Ends s i t) (hset : ∀ imm, i ≠ .set q imm) (hmov : ∀ rs, i ≠ .mov q rs)
    (hest : q ∉ [Reg.rc, .wc]) (hcommit : ∀ e, Evaluates s i (.ok e) → (s.commit e).reg q = s.reg q) : t.reg q = s.reg q := by
  cases h with
  | nop => exact s.reg_advance 1 q
  | halt => exact reg_status s _ q
  | set rd imm =>
    have hne : q ≠ rd := fun heq => hset imm (by rw [heq])
    rw [State.reg_advance, s.reg_setReg_ne _ hne]
  | mov rd rs =>
    have hne : q ≠ rd := fun heq => hmov rs (by rw [heq])
    rw [State.reg_advance, s.reg_setReg_ne _ hne]
  | estimate r w => exact reg_estimate s r w _ hest
  | plainFault => exact s.reg_takeFault _ q
  | voidFault => rw [State.reg_takeFault, State.reg_voidDestination]
  | commit he => exact hcommit _ he

/-- Settles O51: each command's effect names the registers it writes, and only `SET`, `MOV` and the filter name these. -/
theorem onlySetAndMovWriteConfiguration : Obligations.OnlySetAndMovWriteConfiguration := by
  intro s t i q h hset hmov
  refine ⟨fun hq => ?_, ?_⟩
  · have hout : q ∉ [Reg.rc, .wc] ∧ q ∉ [Reg.sp, .dp, .rc, .wc, .zp] :=
      (by decide : ∀ q ∈ [Reg.se, .de, .n, .page, .ovh], q ∉ [Reg.rc, .wc] ∧ q ∉ [Reg.sp, .dp, .rc, .wc, .zp]) q hq
    exact reg_of_ends (exec_ends h) hset hmov hout.1 fun e _ => reg_commit s e hout.2
  · rintro rfl henc hdec
    refine reg_of_ends (exec_ends h) hset hmov (by decide) fun e he => ?_
    show e.zp.getD s.zp = s.zp
    rw [zp_of_evaluates he henc hdec rfl]
    rfl

/-! ## The memory -/

theorem memKeptOutside_of_memKept {s t : State} (h : MemKept s t) (lo hi : Nat) : MemKeptOutside lo hi s t := fun i _ => h i

theorem memKeptOutside_mono {lo hi hi' : Nat} {s t : State} (h : MemKeptOutside lo hi s t) (hle : hi ≤ hi') : MemKeptOutside lo hi' s t :=
  fun i hi' => h i (by omega)

/-- A command writes inside the destination view, and only when the views are valid and disjoint. -/
theorem mem_of_effect {s t : State} (h : Effect s t) :
    MemKeptOutside s.dp.toNat s.de.toNat s t ∧ (¬ ViewsOk s → MemKept s t) := by
  have hkept {t : State} (hmem : MemKept s t) : MemKeptOutside s.dp.toNat s.de.toNat s t ∧ (¬ ViewsOk s → MemKept s t) :=
    ⟨memKeptOutside_of_memKept hmem _ _, fun _ => hmem⟩
  cases h with
  | commit e hv hroom =>
    have hend : s.dp.toNat + e.out.length ≤ s.de.toNat := by
      obtain ⟨-, ⟨hle, -⟩, -⟩ := s.viewFault_eq_none.1 hv
      rw [State.capacity] at hroom
      omega
    exact ⟨memKeptOutside_mono (committed_commit s e).frame hend, fun hnot => absurd ((viewsOk_iff s).2 hv) hnot⟩
  | voidFault t hv => exact ⟨(faulted_voidDestination hv _ _).frame, fun hnot => absurd ((viewsOk_iff s).2 hv) hnot⟩
  | plainFault t => exact hkept (memKept_takeFault s t)
  | register r v len => exact hkept (memKept_setReg s r v)
  | _ => exact hkept fun _ => rfl

/-- Settles O52: a stopped engine keeps its state, a running one has the effect of one command. -/
theorem stepsWriteOnlyTheDestinationView : Obligations.StepsWriteOnlyTheDestinationView := by
  intro s t h
  obtain ⟨-, rfl⟩ | ⟨-, he⟩ := step_cases h
  · exact ⟨fun _ _ => rfl, fun _ _ => rfl⟩
  · exact mem_of_effect he

/-- A command that faulted took a fault and did nothing else. -/
theorem faulted_of_effect {s t : State} (h : Effect s t) (hs : s.status = .running) (ht : t.status = .faulted) : ∃ c info, Faulted s t c info := by
  cases h with
  | voidFault trap hv => exact ⟨_, _, faulted_voidDestination hv trap.cause trap.info⟩
  | plainFault trap => exact ⟨_, _, faulted_takeFault s trap.cause trap.info⟩
  | halt => exact nomatch ht
  | register r v len => exact nomatch (hs.symm.trans (s.setReg_status r v).symm).trans ht
  | _ => exact nomatch hs.symm.trans ht

/-- Settles O47: a fault's frame, and the views decide what it voids. -/
theorem faultEntryKeepsTheMachine : Obligations.FaultEntryKeepsTheMachine := by
  intro s t hs h ht
  obtain ⟨hmem, hkept⟩ := stepsWriteOnlyTheDestinationView s t h
  obtain ⟨hnot, -⟩ | ⟨-, he⟩ := step_cases h
  · exact absurd hs hnot
  · obtain ⟨c, info, hf⟩ := faulted_of_effect he hs ht
    exact ⟨hf.regs, hf.cp, hf.memwords, hmem, hkept, ⟨c, hf.cause⟩, stoppedEngineKeepsState t (by rw [ht]; exact nofun)⟩

/-! ## The length of a run -/

theorem memwords_of_effect {s t : State} (h : Effect s t) : t.memwords = s.memwords := by
  cases h with
  | register r v len => simp
  | _ => rfl

/-- A running engine stops in this step, or `CP`, which was inside `M`, rises. -/
theorem step_stops_or_advances {s : State} (hs : s.status = .running) (hwords : s.memwords ≤ 2 ^ 31) :
    ∃ t, step s = .next t ∧ t.memwords = s.memwords ∧
      (t.status = .halted ∨ t.status = .faulted ∨ t.status = .running ∧ s.cp.toNat < s.memwords ∧ s.cp.toNat < t.cp.toNat) := by
  cases hd : decode s.fetchWindow with
  | error r => exact ⟨_, step_of_fetch_error hs hd, rfl, .inr (.inl rfl)⟩
  | ok p =>
    obtain ⟨t, ht, heffect⟩ := exec_effect p.1 s
    refine ⟨t, (step_of_decode_ok hs hd).trans ht, memwords_of_effect heffect, ?_⟩
    obtain ⟨hcp, hstatus⟩ | ⟨-, ⟨-, hstop⟩ | hstop⟩ := commandPointerOnlyAdvances s t p.1 ht
    · have hlt := lt_memwords_of_decode hd
      refine .inr (.inr ⟨hstatus.trans hs, hlt, ?_⟩)
      rw [hcp, BitVec.toNat_add, BitVec.toNat_ofNat]
      obtain hlen | hlen := length_encode p.1 <;> omega
    · exact .inl hstop
    · exact .inr (.inl hstop)

theorem run_succ_of_step {s t : State} (h : step s = .next t) (k : Nat) : core.run (k + 1) s = core.run k t := by
  have hstep : core.step s = .next t := h
  simp only [Host.Core.run, hstep]

/-- Induction on the words of `M` above `CP`. -/
theorem run_stops {d : Nat} {s : State} (hs : s.status = .running) (hwords : s.memwords ≤ 2 ^ 31) (hd : s.memwords - s.cp.toNat ≤ d) :
    ∃ (k : Nat) (t : State), k ≤ d + 1 ∧ core.run k s = .next t ∧ (t.status = .halted ∨ t.status = .faulted) := by
  induction d generalizing s with
  | zero =>
    obtain ⟨t, hstep, -, hstop | hstop | ⟨-, hlt, -⟩⟩ := step_stops_or_advances hs hwords
    · exact ⟨1, t, le_rfl, run_succ_of_step hstep 0, .inl hstop⟩
    · exact ⟨1, t, le_rfl, run_succ_of_step hstep 0, .inr hstop⟩
    · omega
  | succ d ih =>
    obtain ⟨t, hstep, hkept, hstop | hstop | ⟨hrun, hlt, hcp⟩⟩ := step_stops_or_advances hs hwords
    · exact ⟨1, t, by omega, run_succ_of_step hstep 0, .inl hstop⟩
    · exact ⟨1, t, by omega, run_succ_of_step hstep 0, .inr hstop⟩
    · obtain ⟨k, t', hk, hrun', hstop⟩ := ih hrun (hkept ▸ hwords) (by omega)
      exact ⟨k + 1, t', by omega, (run_succ_of_step hstep k).trans hrun', hstop⟩

/-- Settles O49: there are at most `MEMWORDS` words above `CP`. -/
theorem everyRunEnds : Obligations.EveryRunEnds := fun _ h hs => run_stops hs h.memwords_le (Nat.sub_le _ _)

end Sys2Proof.Proofs
end

