-- ==== Sys2Proof/Proofs/SourceViewOnly.lean ====
section
/-! PROOF. A data command's outcome depends on the registers and the source words alone (20_memory.md R46): in two engines that agree on them its function has one value, and
each end of the shared frame keeps the agreement. -/

namespace Sys2Proof.Proofs

open Sys2Proof.Machine

/-- Two engines that agree on every register. -/
structure SameRegisters (s s' : State) : Prop where
  regs : ∀ r, s.reg r = s'.reg r
  cp : s.cp = s'.cp
  status : s.status = s'.status
  cause : s.cause = s'.cause
  finfo : s.finfo = s'.finfo

/-- They agree besides on what else a data command looks at: the size of the memory, the draw counter, and the source words. -/
structure SameInputs (s s' : State) : Prop extends SameRegisters s s' where
  memwords : s.memwords = s'.memwords
  draws : s.draws = s'.draws
  source : s.source = s'.source

section
variable {s s' : State}

theorem SameInputs.viewFault_eq (h : SameInputs s s') : s.viewFault = s'.viewFault := by
  have hsp : s.sp = s'.sp := h.regs .sp
  have hse : s.se = s'.se := h.regs .se
  have hdp : s.dp = s'.dp := h.regs .dp
  have hde : s.de = s'.de := h.regs .de
  simp only [State.viewFault, State.sourceValid, State.destValid, State.overlapping, hsp, hse, hdp, hde, h.memwords]

theorem SameInputs.capacity_eq (h : SameInputs s s') : s.capacity = s'.capacity := by
  have hdp : s.dp = s'.dp := h.regs .dp
  have hde : s.de = s'.de := h.regs .de
  rw [State.capacity, State.capacity, hdp, hde]

/-- The function of a data command has one value in both. -/
theorem SameInputs.evaluates (h : SameInputs s s') {i : Instr} {v : Except Trap Evaluated} (hv : Evaluates s i v) : Evaluates s' i v := by
  have hpage : s.page = s'.page := h.regs .page
  have hovh : s.ovh = s'.ovh := h.regs .ovh
  have hn : s.n = s'.n := h.regs .n
  have hzp : s.zp = s'.zp := h.regs .zp
  have hfree (b : Nat) : s.freeWords b = s'.freeWords b := by rw [State.freeWords, State.freeWords, h.draws]
  cases hv with
  | pack b hb => rw [h.source]; exact .pack b hb
  | packu b hb => rw [h.source, hfree]; exact .packu b hb
  | unpack b hb => rw [h.source]; exact .unpack b hb
  | headlessCompress _ k hk => rw [h.source, hpage, hovh]; exact .headlessCompress i k hk
  | headlessDecompress _ k hk => rw [h.source, hpage, hn]; exact .headlessDecompress i k hk
  | headedCompress _ k hk => rw [h.source, hpage, hovh]; exact .headedCompress i k hk
  | headedDecompress _ k hk => rw [h.source, hpage]; exact .headedDecompress i k hk
  | compC k1 k2 => rw [h.source, hpage, hovh]; exact .compC k1 k2
  | compD k1 k2 => rw [h.source, hpage, hn]; exact .compD k1 k2
  | topC k1 k2 => rw [h.source, hpage, hovh]; exact .topC k1 k2
  | topD k1 k2 => rw [h.source, hpage]; exact .topD k1 k2
  | dzEnc => rw [h.source, hzp]; exact .dzEnc
  | dzDec => rw [h.source, hzp]; exact .dzDec

/-! ## The ends of the shared frame -/

theorem SameRegisters.takeFault (h : SameRegisters s s') (t : Trap) : SameRegisters (s.takeFault t) (s'.takeFault t) where
  regs r := by rw [State.reg_takeFault, State.reg_takeFault, h.regs]
  cp := h.cp
  status := rfl
  cause := rfl
  finfo := rfl

theorem SameRegisters.voidDestination (h : SameRegisters s s') : SameRegisters s.voidDestination s'.voidDestination where
  regs r := by rw [State.reg_voidDestination, State.reg_voidDestination, h.regs]
  cp := h.cp
  status := h.status
  cause := h.cause
  finfo := h.finfo

theorem SameRegisters.commit (h : SameRegisters s s') (e : Evaluated) : SameRegisters (s.commit e) (s'.commit e) where
  regs r := by
    have hsp : s.sp = s'.sp := h.regs .sp
    have hdp : s.dp = s'.dp := h.regs .dp
    have hzp : s.zp = s'.zp := h.regs .zp
    cases r
    case sp | dp | zp => simp [State.reg, hsp, hdp, hzp]
    case rc | wc => rfl
    case se => exact h.regs .se
    case de => exact h.regs .de
    case n => exact h.regs .n
    case page => exact h.regs .page
    case ovh => exact h.regs .ovh
  cp := by rw [State.commit_cp, State.commit_cp, h.cp]
  status := h.status
  cause := h.cause
  finfo := h.finfo

/-- From `s`, the engines that ended in `t` and `t'` wrote the same words. -/
def SameWritten (s t t' : State) : Prop := ∀ a, s.dp.toNat ≤ a → a < t.dp.toNat → t.wordAt a = t'.wordAt a

theorem sameWritten_of_dp {t : State} (t' : State) (h : t.dp = s.dp) : SameWritten s t t' := by
  intro a hlo hhi
  rw [h] at hhi
  omega

/-- The words written are the output, whatever memory they are written into. -/
theorem sameWritten_commit (h : SameRegisters s s') {e : Evaluated} (hv : s.viewFault = none) (hroom : e.out.length ≤ s.capacity) :
    SameWritten s (s.commit e) (s'.commit e) := by
  intro a hlo hhi
  have hdp : s.dp = s'.dp := h.regs .dp
  obtain ⟨-, ⟨hle, -⟩, -⟩ := s.viewFault_eq_none.1 hv
  have hde := s.de.isLt
  rw [State.capacity] at hroom
  rw [State.commit_dp, BitVec.toNat_ofNat, Nat.mod_eq_of_lt (by omega)] at hhi
  obtain ⟨j, rfl⟩ := Nat.exists_eq_add_of_le hlo
  have hj : j < e.out.length := by omega
  have hread (m : List Host.Cell) (epoch : Nat) : readWord epoch (writeWords m s.dp.toNat e.out) (s.dp.toNat + j) = e.out[j] :=
    readWord_writeWords_inside _ _ _ _ j hj
  rw [State.wordAt, State.wordAt, State.commit_mem, State.commit_mem, ← hdp, hread, hread]

theorem sameOutcome_of_evaluates (h : SameInputs s s') {t t' : State} {i : Instr} {v : Except Trap Evaluated} (hv : Evaluates s i v)
    (ht : exec i s = .next t) (ht' : exec i s' = .next t') : SameRegisters t t' ∧ SameWritten s t t' := by
  obtain ⟨f, hf, heval⟩ := exec_of_evaluates hv
  obtain ⟨f', hf', heval'⟩ := exec_of_evaluates (h.evaluates hv)
  rw [hf] at ht
  rw [hf'] at ht'
  cases hviews : s.viewFault with
  | some c =>
    rw [dataCommand_viewFault hviews] at ht
    rw [dataCommand_viewFault (h.viewFault_eq ▸ hviews)] at ht'
    cases ht; cases ht'
    exact ⟨h.takeFault _, sameWritten_of_dp _ rfl⟩
  | none =>
    have hviews' := h.viewFault_eq ▸ hviews
    cases v with
    | error trap =>
      rw [dataCommand_error hviews heval] at ht
      rw [dataCommand_error hviews' heval'] at ht'
      cases ht; cases ht'
      exact ⟨h.voidDestination.takeFault _, sameWritten_of_dp _ rfl⟩
    | ok e =>
      obtain hc | hc := Nat.lt_or_ge s.capacity e.out.length
      · rw [dataCommand_overflow hviews heval hc] at ht
        rw [dataCommand_overflow hviews' heval' (h.capacity_eq ▸ hc)] at ht'
        cases ht; cases ht'
        exact ⟨h.voidDestination.takeFault _, sameWritten_of_dp _ rfl⟩
      · rw [dataCommand_commit hviews heval hc] at ht
        rw [dataCommand_commit hviews' heval' (h.capacity_eq ▸ hc)] at ht'
        cases ht; cases ht'
        exact ⟨h.commit e, sameWritten_commit h.toSameRegisters hviews hc⟩

theorem sameOutcome_of_wide (h : SameInputs s s') {t t' : State} {i : Instr} {b : Nat} (hb : 32 < b)
    (hi : i ∈ [Instr.pack b, .packu b, .unpack b]) (ht : exec i s = .next t) (ht' : exec i s' = .next t') :
    SameRegisters t t' ∧ SameWritten s t t' := by
  rw [exec_of_wide hb hi] at ht ht'
  cases ht; cases ht'
  unfold State.voidIfViews
  rw [← h.viewFault_eq]
  cases s.viewFault with
  | some c => exact ⟨h.takeFault _, sameWritten_of_dp _ rfl⟩
  | none => exact ⟨h.voidDestination.takeFault _, sameWritten_of_dp _ rfl⟩

theorem sameOutcome_of_estimate (h : SameInputs s s') {t t' : State} {T : Layouts} (ht : estimateCommand T s = .next t)
    (ht' : estimateCommand T s' = .next t') : SameRegisters t t' ∧ SameWritten s t t' := by
  have hsp : s.sp = s'.sp := h.regs .sp
  have hse : s.se = s'.se := h.regs .se
  unfold estimateCommand at ht ht'
  simp only [← h.source, State.sourceValid, ← hsp, ← hse, ← h.memwords] at ht ht'
  split at ht
  next hbad =>
    rw [if_pos hbad] at ht'
    cases ht; cases ht'
    exact ⟨h.takeFault _, sameWritten_of_dp _ rfl⟩
  next hok =>
    rw [if_neg hok] at ht'
    cases hest : selectorEstimate T s.source with
    | error trap =>
      simp only [hest] at ht ht'
      cases ht; cases ht'
      exact ⟨h.takeFault _, sameWritten_of_dp _ rfl⟩
    | ok w =>
      simp only [hest] at ht ht'
      cases ht; cases ht'
      refine ⟨⟨fun r => ?_, by rw [h.cp], h.status, h.cause, h.finfo⟩, sameWritten_of_dp _ rfl⟩
      have hr := h.regs r
      cases r
      case rc | wc | sp | se => rfl
      all_goals exact hr

theorem sameOutcome (h : SameInputs s s') {t t' : State} {i : Instr} (hdata : hasDestination i = true ∨ i ∈ [Instr.s9Est, .s16Est])
    (ht : exec i s = .next t) (ht' : exec i s' = .next t') : SameRegisters t t' ∧ SameWritten s t t' := by
  obtain hdest | hest := hdata
  · obtain ⟨b, hb, hi⟩ | ⟨v, hv⟩ := wide_or_exists_evaluates hdest s
    · exact sameOutcome_of_wide h hb hi ht ht'
    · exact sameOutcome_of_evaluates h hv ht ht'
  · simp only [List.mem_cons, List.not_mem_nil, or_false] at hest
    obtain rfl | rfl := hest
    · exact sameOutcome_of_estimate h ht ht'
    · exact sameOutcome_of_estimate h ht ht'

end

/-- The data commands are all but the four of the sequencer. -/
theorem hasDestination_or_estimate {i : Instr} (hseq : i ∉ [Instr.nop, .halt]) (hset : ∀ rd imm, i ≠ .set rd imm) (hmov : ∀ rd rs, i ≠ .mov rd rs) :
    hasDestination i = true ∨ i ∈ [Instr.s9Est, .s16Est] := by
  cases i
  case nop | halt => exact absurd (by decide) hseq
  case set rd imm => exact absurd rfl (hset rd imm)
  case mov rd rs => exact absurd rfl (hmov rd rs)
  case s9Est | s16Est => exact .inr (by decide)
  all_goals exact .inl rfl

/-- Settles O53: the pure function sees the source words alone, and the frame of a data command the registers. -/
theorem dataCommandsSeeOnlyTheSourceView : Obligations.DataCommandsSeeOnlyTheSourceView := by
  intro s s' t t' i hseq hset hmov hregs hcp hstatus hcause hfinfo hwords hdraws hsource ht ht'
  have h : SameInputs s s' := ⟨⟨hregs, hcp, hstatus, hcause, hfinfo⟩, hwords, hdraws, hsource⟩
  obtain ⟨hsame, hwritten⟩ := sameOutcome h (hasDestination_or_estimate hseq hset hmov) ht ht'
  exact ⟨hsame.regs, hsame.cp, hsame.status, hsame.cause, hsame.finfo, hwritten⟩

end Sys2Proof.Proofs
end

