-- ==== Sys2Proof/Proofs/HostMoves.lean ====
section
/-! PROOF. The host's moves (10_state.md R22 to R28, 40_sequencer.md R96, 20_memory.md R51, 70_reset_and_hazards.md R340): what each writes, and what it leaves. -/

namespace Sys2Proof.Proofs

open Sys2Proof.Machine

/-! ## START and CLEAR -/

theorem clear_of_stopped {s : State} (h : s.status = .halted ∨ s.status = .faulted) : s.clear = { s with status := .idle } := by
  unfold State.clear
  obtain h | h := h <;> rw [h]

theorem clear_of_idle_or_running {s : State} (h : s.status = .idle ∨ s.status = .running) : s.clear = s := by
  unfold State.clear
  obtain h | h := h <;> rw [h]

/-- Settles O57, move by move. -/
theorem startAndClear : Obligations.StartAndClear := by
  intro s
  refine ⟨fun hs a => ?_, fun hs a => ?_, fun hs a => ?_, fun hs => ?_, fun hs v => ?_, fun v hv => if_neg hv⟩
  · simp only [hostMove, State.start, hs]
  · obtain hs | hs := hs <;> simp only [hostMove, State.start, hs]
  · simp only [hostMove, State.start, hs]
  · have hclear := congrArg Host.Outcome.next (clear_of_stopped hs) (β := Result)
    exact ⟨hclear, hclear⟩
  · simp only [hostMove, clear_of_idle_or_running hs, ite_self]

/-! ## RESET -/

/-- Settles O56: nothing is listed after reset, so every byte is a free value. -/
theorem resetValues : Obligations.ResetValues := ⟨by decide, rfl, rfl, rfl, rfl, rfl, rfl, fun _ => rfl⟩

/-- The registers a state has after reset (R28). -/
def RegistersReset (t : State) : Prop :=
  (∀ r, t.reg r = State.reset.reg r) ∧ t.cp = 0 ∧ t.status = .idle ∧ t.cause = 0 ∧ t.finfo = 0

theorem registersReset_resetPowered (s : State) : RegistersReset s.resetPowered := ⟨fun r => by cases r <;> rfl, rfl, rfl, rfl, rfl⟩

theorem registersReset_resetPowerOn (s : State) : RegistersReset s.resetPowerOn := ⟨fun r => by cases r <;> rfl, rfl, rfl, rfl, rfl⟩

theorem memwords_cutShort (s : State) : s.cutShort.memwords = s.memwords := by
  obtain h | ⟨-, h⟩ := cutShort_eq_or_void s <;> rw [h]
  rfl

/-- A reset that cuts a command short leaves what a fault of that command leaves (R52). -/
theorem mem_cutShort (s : State) : MemKeptOutside s.dp.toNat s.de.toNat s s.cutShort ∧ (¬ ViewsOk s → MemKept s s.cutShort) := by
  obtain h | ⟨hv, h⟩ := cutShort_eq_or_void s <;> rw [h]
  · exact ⟨fun _ _ => rfl, fun _ _ => rfl⟩
  · exact ⟨(faulted_voidDestination hv .badView 0).frame, fun hnot => absurd ((viewsOk_iff s).2 hv) hnot⟩

theorem cutShort_of_not_running {s : State} (h : s.status ≠ .running) : s.cutShort = s := by
  unfold State.cutShort
  split
  next hs _ => exact absurd hs h
  next => rfl

theorem cutShort_of_decode_error {s : State} {e : Reject} (h : decode s.fetchWindow = .error e) : s.cutShort = s := by
  unfold State.cutShort
  split
  next hd => exact nomatch h.symm.trans hd
  next => rfl

theorem cutShort_of_no_destination {s : State} {i : Instr} {rest : List Word} (h : decode s.fetchWindow = .ok (i, rest))
    (hi : hasDestination i = false) : s.cutShort = s := by
  unfold State.cutShort
  split
  next hd =>
    cases h.symm.trans hd
    rw [hi]
    rfl
  next => rfl

theorem memKept_resetPowered_of_eq {s t : State} (h : t = s) : MemKept s t.resetPowered := fun _ => by rw [h]; rfl

/-- Settles O58: a reset writes the registers and keeps the memory, here of the state whose command was cut short. -/
theorem resetMoves : Obligations.ResetMoves := by
  intro s
  obtain ⟨hregs, hcp, hstatus, hcause, hfinfo⟩ := registersReset_resetPowered s
  obtain ⟨hregs', hcp', hstatus', hcause', hfinfo'⟩ := registersReset_resetPowered s.cutShort
  obtain ⟨hregs'', hcp'', hstatus'', hcause'', hfinfo''⟩ := registersReset_resetPowerOn s
  obtain ⟨hout, hviews⟩ := mem_cutShort s
  refine ⟨⟨_, rfl, hregs, hcp, hstatus, hcause, hfinfo, rfl, fun _ => rfl⟩,
    ⟨_, rfl, hregs', hcp', hstatus', hcause', hfinfo', memwords_cutShort s, hout, hviews, fun hs => ?_, fun e hd => ?_, fun i rest hd hi => ?_⟩,
    ⟨_, rfl, hregs'', hcp'', hstatus'', hcause'', hfinfo'', rfl, fun _ => rfl⟩⟩
  · exact memKept_resetPowered_of_eq (cutShort_of_not_running hs)
  · exact memKept_resetPowered_of_eq (cutShort_of_decode_error hd)
  · exact memKept_resetPowered_of_eq (cutShort_of_no_destination hd hi)

/-! ## Accesses -/

theorem hostWrite_of_stopped {s : State} (h : s.status ≠ .running) (t : State) : s.hostWrite t = .next t := if_neg h

theorem hostWrite_of_running {s : State} (h : s.status = .running) (t : State) : s.hostWrite t = .refused .hostWhileRunning := if_pos h

/-- A host write of a register is a write of that register alone. -/
theorem writeReg_frame (s : State) (r : Reg) (v : Word) : (s.setReg r v).reg r = v ∧ RegsKeptBut [r] s (s.setReg r v) ∧
    (s.setReg r v).cp = s.cp ∧ ControlKept s (s.setReg r v) ∧ MemKept s (s.setReg r v) :=
  ⟨s.reg_setReg_same r v, regsKeptBut_setReg s r v, s.setReg_cp r v, controlKept_setReg s r v, memKept_setReg s r v⟩

theorem writeCp_frame (s : State) (v : Word) : RegsKeptBut [] s { s with cp := v } ∧ ControlKept s { s with cp := v } ∧ MemKept s { s with cp := v } :=
  ⟨fun r _ => by cases r <;> rfl, ⟨rfl, rfl, rfl, rfl⟩, fun _ => rfl⟩

theorem writeWord_frame (s : State) (a : Nat) (w : Word) : (s.memWrite a [w]).wordAt a = w ∧ MemKeptOutside a (a + 1) s (s.memWrite a [w]) ∧
    RegsKeptBut [] s (s.memWrite a [w]) ∧ (s.memWrite a [w]).cp = s.cp ∧ ControlKept s (s.memWrite a [w]) :=
  ⟨readWord_writeWords_inside s.epoch s.mem a [w] 0 Nat.one_pos, memKeptOutside_of_mem_eq rfl rfl rfl, fun r _ => s.reg_memWrite a [w] r, rfl,
    ⟨rfl, rfl, rfl, rfl⟩⟩

/-- Settles O59: accesses of a stopped engine, of a running one, and the status. -/
theorem hostAccessOnlyWhileStopped : Obligations.HostAccessOnlyWhileStopped := by
  refine ⟨fun s a w v r c hs => ?_, fun s a w v r c hs => ?_, fun s => by cases h : s.status <;> rw [State.hostReadStatus, h] <;> rfl⟩
  · have hwrite := hostWrite_of_stopped hs
    exact ⟨⟨_, hwrite _, writeReg_frame s r v⟩, ⟨_, hwrite _, rfl, writeCp_frame s v⟩,
      fun ha => ⟨_, (if_pos ha).trans (hwrite _), writeWord_frame s a w⟩, hwrite _, hwrite _, if_neg hs, if_neg hs, if_neg hs, if_neg hs,
      fun ha => if_neg (not_or.2 ⟨hs, Nat.not_le.2 ha⟩)⟩
  · have hwrite := hostWrite_of_running hs
    exact ⟨hwrite _, hwrite _, fun ha => (if_pos ha).trans (hwrite _), hwrite _, hwrite _, if_pos hs, if_pos hs, if_pos hs, if_pos hs,
      if_pos (.inl hs)⟩

end Sys2Proof.Proofs
end

