-- ==== Sys2Proof/Proofs/Lanes.lean ====
section
/-! PROOF. The lane functions (41_bitprimitives.md R111, R112, R116). Both are fields of one bitstream: `pack` cuts the stream of `b`-bit lanes into words, `unpack` cuts the
stream of words into `b`-bit lanes, and each stream is as long as what it is cut into. -/

namespace Sys2Proof.Proofs

open Sys2Proof.Machine

/-! ## The bitstream -/

/-- The bitstream as the sum the rules write. -/
theorem ofLanes_eq_sum (w : Nat) (V : List Word) :
    ofLanes w V = ((List.range V.length).map fun i => (V.getD i 0).toNat % 2 ^ w * 2 ^ (i * w)).sum := by
  induction V with
  | nil => rfl
  | cons v V ih =>
    simp only [ofLanes, ih, List.length_cons, List.range_succ_eq_map, List.map_cons, List.map_map, List.sum_cons, ← List.sum_map_mul_left]
    congr 3
    · simp
    · funext i
      simp only [Function.comp_apply, List.getD_cons_succ, Nat.succ_mul, pow_add]
      ring

theorem getElem?_toLanes {k i : Nat} (w S : Nat) (hi : i < k) : (toLanes w k S)[i]? = some (BitVec.ofNat 32 (S / 2 ^ (w * i) % 2 ^ w)) := by
  rw [List.getElem?_eq_getElem (by simpa using hi), toLanes_getElem]

theorem truncate_eq_self_of_lt {b : Nat} {v : Word} (h : v.toNat < 2 ^ b) : truncate b v = v := by
  simp [truncate, Nat.mod_eq_of_lt h]

theorem truncate_wordSize (v : Word) : truncate 32 v = v := truncate_eq_self_of_lt v.isLt

/-- The fields of a bitstream of words are the words. -/
theorem toLanes_wordSize_ofLanes (W : List Word) : toLanes 32 W.length (ofLanes 32 W) = W :=
  (toLanes_ofLanes 32 W).trans (List.map_id'' truncate_wordSize W)

/-- A lane is where its offset says. -/
theorem ofLanes_field {w i : Nat} {V : List Word} (hw : w ≤ 32) (hi : i < V.length) :
    ofLanes w V / 2 ^ (w * i) % 2 ^ w = (V.getD i 0).toNat % 2 ^ w := by
  have hfield := getElem?_toLanes w (ofLanes w V) hi
  rw [toLanes_ofLanes, List.getElem?_map, List.getElem?_eq_getElem hi, Option.map_some, Option.some_inj] at hfield
  have hsmall (x : Nat) : x % 2 ^ w % 2 ^ 32 = x % 2 ^ w :=
    Nat.mod_eq_of_lt ((Nat.mod_lt _ (Nat.two_pow_pos w)).trans_le (Nat.pow_le_pow_right (by decide) hw))
  have hnat := congrArg BitVec.toNat hfield
  rw [BitVec.toNat_ofNat, BitVec.toNat_ofNat, hsmall, hsmall] at hnat
  rw [← hnat, List.getD_eq_getElem?_getD, List.getElem?_eq_getElem hi, Option.getD_some]

/-- Bit `t` of lane `i` is bit `w * i + t` of the stream. -/
theorem testBit_ofLanes {w i t : Nat} {V : List Word} (hw : w ≤ 32) (hi : i < V.length) (ht : t < w) :
    (ofLanes w V).testBit (w * i + t) = (V.getD i 0).getLsbD t := by
  have hbit := congrArg (Nat.testBit · t) (ofLanes_field hw hi)
  simpa only [Nat.testBit_mod_two_pow, Nat.testBit_div_two_pow, ht, decide_true, Bool.true_and, BitVec.testBit_toNat, Nat.add_comm t] using hbit

/-! ## R111 -/

/-- Bit `n` of the stream is bit `n mod 32` of word `n div 32`. -/
theorem getLsbD_getD_toLanes {k n : Nat} (S : Nat) (hn : n < 32 * k) : ((toLanes 32 k S).getD (n / 32) 0).getLsbD (n % 32) = S.testBit n := by
  have hword := getElem?_toLanes 32 S (Nat.div_lt_of_lt_mul hn)
  rw [List.getD_eq_getElem?_getD, hword, Option.getD_some, BitVec.getLsbD_ofNat, Nat.testBit_mod_two_pow, Nat.testBit_div_two_pow,
    Nat.mod_add_div]
  simp [Nat.mod_lt]

theorem pack_wordSize {V : List Word} (hV : V.length = 32) : pack 32 V = V := by
  have h := toLanes_wordSize_ofLanes V
  rwa [hV] at h

/-- Settles O14: the packed words are digits in base `2^32` of the lanes' sum. -/
theorem packedStreamOfLanes : Obligations.PackedStreamOfLanes := by
  intro b V hb hV
  refine ⟨pack_length b V, fun j hj => ?_, fun i t hi ht => ?_, rfl, pack_wordSize hV⟩
  · have hsum := ofLanes_eq_sum b V
    rw [hV] at hsum
    rw [pack, getElem?_toLanes 32 _ hj, hsum]
  · have hpos : i * b + t < 32 * b := by
      calc i * b + t < (i + 1) * b := by rw [Nat.succ_mul]; omega
        _ ≤ 32 * b := Nat.mul_le_mul_right b hi
    rw [pack, getLsbD_getD_toLanes _ hpos, Nat.mul_comm i b]
    exact testBit_ofLanes hb (hV ▸ hi) ht

/-! ## R112 -/

theorem mem_toLanes_lt {w k S : Nat} {v : Word} (hv : v ∈ toLanes w k S) : v.toNat < 2 ^ w := by
  obtain ⟨i, hi, rfl⟩ := List.mem_iff_getElem.1 hv
  rw [toLanes_getElem, BitVec.toNat_ofNat]
  exact (Nat.mod_le _ _).trans_lt (Nat.mod_lt _ (Nat.two_pow_pos w))

/-- Settles O15: the lanes are digits in base `2^b` of the words' sum. -/
theorem unpackedLanesOfStream : Obligations.UnpackedLanesOfStream := by
  refine ⟨fun b W _ hW => ⟨unpack_length b W, fun i hi => ?_, fun v => mem_toLanes_lt⟩, by decide, fun W hW => ?_⟩
  · have hsum : ofLanes 32 W = ((List.range b).map fun j => (W.getD j 0).toNat * 2 ^ (32 * j)).sum := by
      simp only [ofLanes_eq_sum, hW, Nat.mul_comm _ 32, Nat.mod_eq_of_lt (BitVec.isLt _)]
    rw [unpack, getElem?_toLanes b _ hi, hsum, Nat.mul_comm i b]
  · have h := toLanes_wordSize_ofLanes W
    rwa [hW] at h

/-! ## R116 -/

theorem unpack_pack {b : Nat} {V : List Word} (hV : V.length = 32) : unpack b (pack b V) = V.map (truncate b) := by
  have hlt := ofLanes_lt b V
  rw [hV, Nat.mul_comm] at hlt
  rw [unpack, pack, ofLanes_toLanes _ _ _ le_rfl, Nat.mod_eq_of_lt hlt, ← hV]
  exact toLanes_ofLanes b V

theorem unpack_pack_of_fits {b : Nat} {V : List Word} (hV : V.length = 32) (hfits : ∀ v ∈ V, v.toNat < 2 ^ b) : unpack b (pack b V) = V := by
  rw [unpack_pack hV]
  exact (List.map_congr_left fun v hv => truncate_eq_self_of_lt (hfits v hv)).trans (List.map_id' V)

theorem pack_unpack {b : Nat} {W : List Word} (hb : b ≤ 32) (hW : W.length = b) : pack b (unpack b W) = W := by
  have hlt := ofLanes_lt 32 W
  rw [hW, Nat.mul_comm] at hlt
  rw [pack, unpack, ofLanes_toLanes _ _ _ hb, Nat.mod_eq_of_lt hlt]
  subst hW
  exact toLanes_wordSize_ofLanes W

/-- Settles O16: digits of a sum of digits are the digits. -/
theorem packUnpackInverse : Obligations.PackUnpackInverse :=
  ⟨fun _ _ _ => unpack_pack, fun _ _ _ => unpack_pack_of_fits, fun _ _ => pack_unpack⟩

end Sys2Proof.Proofs
end

