-- ==== Sys2Proof/Proofs/CommandCommits.lean ====
section
/-! PROOF. When the data commands commit, and the faults of their views (20_memory.md R46, 60_exceptions.md R304 to R306, R310). Each command is the shared frame over its
function, so each proof is the function's value and one end of the frame. -/

namespace Sys2Proof.Proofs

open Sys2Proof.Machine

/-! ## The lane commands (R113 to R115) -/

theorem packEval_of_short (b : Nat) {src : List Word} (h : src.length < 32) : packEval b src = .error underrun := if_pos h

theorem packEval_of_long (b : Nat) {src : List Word} (h : 32 ≤ src.length) : packEval b src = .ok { read := 32, out := pack b (src.take 32) } :=
  if_neg (Nat.not_lt.2 h)

theorem packuEval_of_short (free : List Word) (b : Nat) {src : List Word} (h : src.length < 32) : packuEval free b src = .error underrun := if_pos h

theorem packuEval_of_long (free : List Word) (b : Nat) {src : List Word} (h : 32 ≤ src.length) :
    packuEval free b src = if allFit b (src.take 32) then .ok { read := 32, out := pack b (src.take 32) }
      else .ok { read := 32, out := free, drawn := b } :=
  if_neg (Nat.not_lt.2 h)

theorem unpackEval_of_short {b : Nat} {src : List Word} (h : src.length < b) : unpackEval b src = .error underrun := if_pos h

theorem unpackEval_of_long {b : Nat} {src : List Word} (h : b ≤ src.length) :
    unpackEval b src = .ok { read := b, out := unpack b (src.take b) } := if_neg (Nat.not_lt.2 h)

theorem allFit_iff (b : Nat) (V : List Word) : allFit b V = true ↔ ∀ v ∈ V, v.toNat < 2 ^ b := by simp [allFit]

/-- A data command whose function gives a value that fits and no `ZP`. -/
theorem commits_of_evaluates {s : State} {i : Instr} {v : Except Trap Evaluated} (hv : ViewsOk s) (heval : Evaluates s i v) {e : Evaluated}
    (he : v = .ok e) (hzp : e.zp = none) (hroom : e.out.length ≤ s.capacity) : ∃ t, exec i s = .next t ∧ Committed s t e.read e.out s.zp := by
  subst he
  obtain ⟨t, ht, hc⟩ := exec_of_evaluates_ok hv heval hroom
  rw [hzp] at hc
  exact ⟨t, ht, hc⟩

theorem underruns_of_evaluates {s : State} {i : Instr} {v : Except Trap Evaluated} (hv : ViewsOk s) (heval : Evaluates s i v)
    (he : v = .error underrun) : ∃ t, exec i s = .next t ∧ Faulted s t .sourceUnderrun 0 ∧ t.cause = 6 := by
  subst he
  obtain ⟨t, ht, hf⟩ := exec_of_evaluates_error hv heval
  exact ⟨t, ht, hf, hf.cause⟩

/-- Settles O12: each lane command is its pure function in the frame of a data command. -/
theorem laneCommandsCommit : Obligations.LaneCommandsCommit := by
  refine ⟨fun s b hv hb hsrc hroom => ⟨?_, fun hfits => ?_, ?_⟩, fun s b hv hb hsrc hroom => ?_, fun s b i hv hb hshort => ?_⟩
  · exact commits_of_evaluates hv (.pack b hb) (packEval_of_long b hsrc) rfl (by simpa using hroom)
  · have hall : allFit b (s.source.take 32) = true := (allFit_iff b _).2 hfits
    exact commits_of_evaluates hv (.packu b hb) ((packuEval_of_long _ b hsrc).trans (if_pos hall)) rfl (by simpa using hroom)
  · by_cases hall : allFit b (s.source.take 32) = true
    · obtain ⟨t, ht, hc⟩ := commits_of_evaluates hv (.packu b hb) ((packuEval_of_long _ b hsrc).trans (if_pos hall)) rfl (by simpa using hroom)
      exact ⟨t, _, ht, pack_length b _, hc⟩
    · obtain ⟨t, ht, hc⟩ := commits_of_evaluates hv (.packu b hb) ((packuEval_of_long _ b hsrc).trans (if_neg hall)) rfl (by simpa using hroom)
      exact ⟨t, _, ht, s.freeWords_length b, hc⟩
  · exact commits_of_evaluates hv (.unpack b hb) (unpackEval_of_long hsrc) rfl (by simpa using hroom)
  · obtain ⟨hi, hlen⟩ | ⟨rfl, hlen⟩ := hshort
    · simp only [List.mem_cons, List.not_mem_nil, or_false] at hi
      obtain rfl | rfl := hi
      · exact underruns_of_evaluates hv (.pack b hb) (packEval_of_short b hlen)
      · exact underruns_of_evaluates hv (.packu b hb) (packuEval_of_short _ b hlen)
    · exact underruns_of_evaluates hv (.unpack b hb) (unpackEval_of_short hlen)

/-! ## The codec commands and the compositions (R132 to R135, R282 to R287) -/

/-- A data command over a codec function that gives `(r, out)`. -/
theorem commits_of_codecEvaluated {s : State} {i : Instr} {x : CodecResult} {r : Nat} {out : List Word} (hv : ViewsOk s)
    (heval : Evaluates s i (codecEvaluated x)) (hx : x = .ok (r, out)) (hroom : out.length ≤ s.capacity) :
    ∃ t, exec i s = .next t ∧ Committed s t r out s.zp := by
  subst hx
  exact exec_of_evaluates_ok hv heval hroom

theorem faults_of_codecEvaluated {s : State} {i : Instr} {x : CodecResult} {t : Trap} (hv : ViewsOk s)
    (heval : Evaluates s i (codecEvaluated x)) (hx : x = .error t) : ∃ t', exec i s = .next t' ∧ Faulted s t' t.cause t.info := by
  subst hx
  exact exec_of_evaluates_error hv heval

/-- Settles O17: a codec command is its codec's function in the frame of a data command. -/
theorem compressCommandsCommit : Obligations.CompressCommandsCommit :=
  ⟨fun _ i k _ _ hi hv hx hroom => commits_of_codecEvaluated hv (.headlessCompress i k hi) hx hroom,
    fun _ i k _ _ hi hv hx hroom => commits_of_codecEvaluated hv (.headedCompress i k hi) hx hroom⟩

/-- Settles O18: as the compress commands, with the count of `N` or of the stream. -/
theorem decompressCommandsCommit : Obligations.DecompressCommandsCommit :=
  ⟨fun _ i k _ _ hi hv hx hroom => commits_of_codecEvaluated hv (.headlessDecompress i k hi) hx hroom,
    fun _ i k _ _ hi hv hx hroom => commits_of_codecEvaluated hv (.headedDecompress i k hi) hx hroom⟩

/-- Settles O40: a composition command is its function in the frame of a data command. -/
theorem compositionCommandsCommit : Obligations.CompositionCommandsCommit := fun _ k1 k2 k _ _ hv hroom =>
  ⟨fun hx => commits_of_codecEvaluated hv (.compC k1 k2) hx hroom, fun hx => commits_of_codecEvaluated hv (.compD k1 k2) hx hroom,
    fun hx => commits_of_codecEvaluated hv (.topC k1 k) hx hroom, fun hx => commits_of_codecEvaluated hv (.topD k1 k) hx hroom⟩

/-! ## An illegal PAGE (R170, R310) -/

/-- A `PAGE` that FastPFOR refuses. -/
def BadPage (page : Word) : Prop := page.toNat = 0 ∨ page.toNat % 256 ≠ 0

theorem pageFault_of_badPage {page : Word} (h : BadPage page) : pageFault page = some ⟨.badConfig, page⟩ := if_pos h

theorem pageFault_of_legal {page : Word} (h0 : page.toNat ≠ 0) (h : page.toNat % 256 = 0) : pageFault page = none :=
  if_neg (not_or.2 ⟨h0, not_not.2 h⟩)

theorem fpfCompress_of_badPage (bs : Nat) {page : Word} (h : BadPage page) (ovh : Word) (A : List Word) :
    fpfCompress bs page ovh A = .error ⟨.badConfig, page⟩ := by
  rw [fpfCompress, pageFault_of_badPage h]

theorem fpfDecompress_of_badPage (bs : Nat) {page : Word} (h : BadPage page) (W : List Word) (n : Nat) :
    fpfDecompress bs page W n = .error ⟨.badConfig, page⟩ := by
  rw [fpfDecompress, pageFault_of_badPage h]

theorem headlessCompress_of_badPage {k : Codec} (hk : k ∈ [Codec.fpf128, .fpf256]) {page : Word} (h : BadPage page) (ovh : Word) (A : List Word) :
    headlessCompress k page ovh A = .error ⟨.badConfig, page⟩ := by
  simp only [List.mem_cons, List.not_mem_nil, or_false] at hk
  obtain rfl | rfl := hk
  · exact fpfCompress_of_badPage 128 h ovh A
  · exact fpfCompress_of_badPage 256 h ovh A

theorem headlessDecompress_of_badPage {k : Codec} (hk : k ∈ [Codec.fpf128, .fpf256]) {page : Word} (h : BadPage page) (W : List Word) (n : Nat) :
    headlessDecompress k page W n = .error ⟨.badConfig, page⟩ := by
  simp only [List.mem_cons, List.not_mem_nil, or_false] at hk
  obtain rfl | rfl := hk
  · exact fpfDecompress_of_badPage 128 h W n
  · exact fpfDecompress_of_badPage 256 h W n

theorem floorTo_eq_zero_iff {g : Nat} (hg : 0 < g) (n : Nat) : floorTo g n = 0 ↔ n < g := by
  have hdvd : g ∣ floorTo g n := Nat.dvd_sub_mod n
  have hmod := Nat.mod_lt n hg
  rw [floorTo] at *
  constructor
  · omega
  · intro h
    rw [Nat.mod_eq_of_lt h, Nat.sub_self]

/-- Less than a granule is no stream at all (R134). -/
theorem headedCompress_of_short {k : Codec} (page ovh : Word) {A : List Word} (h : floorTo (granule k) A.length = 0) :
    headedCompress k page ovh A = .ok (0, []) := if_pos h

/-- The headed form is the count and the headless stream of that many words (R134). -/
theorem headedCompress_of_long {k : Codec} (page ovh : Word) {A : List Word} (h : floorTo (granule k) A.length ≠ 0) :
    headedCompress k page ovh A = (headlessCompress k page ovh (A.take (floorTo (granule k) A.length))).map
      (Prod.map id (BitVec.ofNat 32 (floorTo (granule k) A.length) :: ·)) := by
  rw [headedCompress, if_neg h]
  cases headlessCompress k page ovh (A.take (floorTo (granule k) A.length)) <;> rfl

/-- After the count, the headed form is the headless one (R135). -/
theorem headedDecompress_cons (k : Codec) (page L : Word) (W : List Word) :
    headedDecompress k page (L :: W) = (headlessDecompress k page W L.toNat).map (Prod.map (1 + ·) id) := by
  rw [headedDecompress]
  cases headlessDecompress k page W L.toNat <;> rfl

theorem headedCompress_of_badPage {k : Codec} (hk : k ∈ [Codec.fpf128, .fpf256]) {page : Word} (h : BadPage page) (ovh : Word) {A : List Word}
    (hA : floorTo (granule k) A.length ≠ 0) : headedCompress k page ovh A = .error ⟨.badConfig, page⟩ := by
  rw [headedCompress_of_long page ovh hA, headlessCompress_of_badPage hk h]
  rfl

theorem headedDecompress_of_badPage {k : Codec} (hk : k ∈ [Codec.fpf128, .fpf256]) {page : Word} (h : BadPage page) {W : List Word} (hW : W ≠ []) :
    headedDecompress k page W = .error ⟨.badConfig, page⟩ := by
  obtain ⟨L, W, rfl⟩ := List.exists_cons_of_ne_nil hW
  rw [headedDecompress_cons, headlessDecompress_of_badPage hk h]
  rfl

/-- The headed compress command of a FastPFOR codec, at its granule. -/
theorem headedCompressCommand_of_badPage {s : State} (hv : ViewsOk s) (hpage : BadPage s.page) {i : Instr} {k : Codec}
    (hi : (i, k) ∈ headedCompressCommands) (hk : k ∈ [Codec.fpf128, .fpf256]) :
    (granule k ≤ s.source.length → ∃ t, exec i s = .next t ∧ Faulted s t .badConfig s.page) ∧
      (s.source.length < granule k → ∃ t, exec i s = .next t ∧ Committed s t 0 [] s.zp) := by
  have hzero := floorTo_eq_zero_iff ((by decide : ∀ k ∈ [Codec.fpf128, .fpf256], 0 < granule k) k hk) s.source.length
  refine ⟨fun hlen => ?_, fun hlen => ?_⟩
  · have hlong : floorTo (granule k) s.source.length ≠ 0 := fun h => absurd (hzero.1 h) (Nat.not_lt.2 hlen)
    exact faults_of_codecEvaluated hv (.headedCompress i k hi) (headedCompress_of_badPage hk hpage s.ovh hlong)
  · exact commits_of_codecEvaluated hv (.headedCompress i k hi) (headedCompress_of_short _ _ (hzero.2 hlen)) (Nat.zero_le _)

/-- The headed decompress command of a FastPFOR codec. -/
theorem headedDecompressCommand_of_badPage {s : State} (hv : ViewsOk s) (hpage : BadPage s.page) {i : Instr} {k : Codec}
    (hi : (i, k) ∈ headedDecompressCommands) (hk : k ∈ [Codec.fpf128, .fpf256]) :
    (s.source ≠ [] → ∃ t, exec i s = .next t ∧ Faulted s t .badConfig s.page) ∧
      (s.source = [] → ∃ t, exec i s = .next t ∧ Committed s t 0 [] s.zp) := by
  refine ⟨fun hne => faults_of_codecEvaluated hv (.headedDecompress i k hi) (headedDecompress_of_badPage hk hpage hne), fun hnil => ?_⟩
  exact commits_of_codecEvaluated hv (.headedDecompress i k hi) (by rw [hnil, headedDecompress]) (Nat.zero_le _)

/-- Settles O30: the page is checked before the source is read, in the headed forms once there is something to do. -/
theorem badPageFaults : Obligations.BadPageFaults := by
  intro s hv hpage
  have hcompress {i : Instr} {k : Codec} (hi : (i, k) ∈ headlessCompressCommands) (hk : k ∈ [Codec.fpf128, .fpf256]) :=
    faults_of_codecEvaluated hv (.headlessCompress i k hi) (headlessCompress_of_badPage hk hpage s.ovh s.source)
  have hdecompress {i : Instr} {k : Codec} (hi : (i, k) ∈ headlessDecompressCommands) (hk : k ∈ [Codec.fpf128, .fpf256]) :=
    faults_of_codecEvaluated hv (.headlessDecompress i k hi) (headlessDecompress_of_badPage hk hpage s.source s.n.toNat)
  simp only [List.forall_mem_cons, List.not_mem_nil, false_imp_iff, implies_true, and_true]
  exact ⟨⟨hcompress (k := .fpf128) (by decide) (by decide), hdecompress (k := .fpf128) (by decide) (by decide),
      hcompress (k := .fpf256) (by decide) (by decide), hdecompress (k := .fpf256) (by decide) (by decide)⟩,
    ⟨headedCompressCommand_of_badPage (k := .fpf128) hv hpage (by decide) (by decide),
      headedCompressCommand_of_badPage (k := .fpf256) hv hpage (by decide) (by decide)⟩,
    headedDecompressCommand_of_badPage (k := .fpf128) hv hpage (by decide) (by decide),
    headedDecompressCommand_of_badPage (k := .fpf256) hv hpage (by decide) (by decide)⟩

/-! ## The estimates (R231, R236) -/

section
variable {T : Layouts} {s : State}

theorem estimateCommand_badView (h : ¬ s.sourceValid) : estimateCommand T s = .next (s.takeFault ⟨.badView, 0⟩) := if_pos h

theorem estimateCommand_error {t : Trap} (h : s.sourceValid) (he : selectorEstimate T s.source = .error t) :
    estimateCommand T s = .next (s.takeFault t) := by
  rw [estimateCommand, if_neg (not_not.2 h), he]

theorem estimateCommand_ok {w : Nat} (h : s.sourceValid) (he : selectorEstimate T s.source = .ok w) :
    estimateCommand T s = .next { s with rc := BitVec.ofNat 32 (s.se.toNat - s.sp.toNat), wc := BitVec.ofNat 32 w, cp := s.cp + 1 } := by
  rw [estimateCommand, if_neg (not_not.2 h), he]

end

theorem exists_exec_eq_estimateCommand {i : Instr} (hi : i ∈ [Instr.s9Est, .s16Est]) : ∃ T, ∀ s, exec i s = estimateCommand T s := by
  simp only [List.mem_cons, List.not_mem_nil, or_false] at hi
  obtain rfl | rfl := hi
  · exact ⟨simple9, fun _ => rfl⟩
  · exact ⟨simple16, fun _ => rfl⟩

theorem exec_estimate {i : Instr} {T : Layouts} (hi : (i, T) ∈ [(Instr.s9Est, simple9), (.s16Est, simple16)]) (s : State) :
    exec i s = estimateCommand T s := by
  simp only [List.mem_cons, Prod.mk.injEq, List.not_mem_nil, or_false] at hi
  obtain ⟨rfl, rfl⟩ | ⟨rfl, rfl⟩ := hi
  · rfl
  · rfl

/-- Settles O34: the three answers of an estimate. -/
theorem estimatesWriteCountsOnly : Obligations.EstimatesWriteCountsOnly := by
  rintro s ⟨i, T⟩ hp
  rw [exec_estimate hp]
  refine ⟨fun hbad => ?_, fun w hok hest => ?_, fun e hok hest => ?_⟩
  · exact ⟨_, estimateCommand_badView hbad, faulted_takeFault s _ _, memKept_takeFault s _⟩
  · refine ⟨_, estimateCommand_ok hok hest, ?_, rfl, rfl, fun q hq => reg_estimate s _ _ _ hq, ⟨rfl, rfl, rfl, rfl⟩, fun _ => rfl⟩
    rw [State.source, State.memRead_length]
  · exact ⟨_, estimateCommand_error hok hest, faulted_takeFault s _ _, memKept_takeFault s _⟩

/-! ## The views (R304, R305) -/

theorem viewFault_of_invalid {s : State} (h : ¬ (s.sourceValid ∧ s.destValid)) : s.viewFault = some .badView := by
  unfold State.viewFault
  by_cases hsource : s.sourceValid
  · have hdest : ¬ s.destValid := fun hdest => h ⟨hsource, hdest⟩
    rw [if_neg (not_not.2 hsource), if_pos hdest]
  · rw [if_pos hsource]

theorem viewFault_of_overlapping {s : State} (hsource : s.sourceValid) (hdest : s.destValid) (h : s.overlapping) : s.viewFault = some .overlap := by
  rw [State.viewFault, if_neg (not_not.2 hsource), if_neg (not_not.2 hdest), if_pos h]

/-- A command with a destination view, and no width above 32, faults on its views first. -/
theorem exec_of_viewFault {s : State} {i : Instr} {c : Cause} (hdest : hasDestination i = true)
    (hwidth : ∀ b, i ∈ [Instr.pack b, .packu b, .unpack b] → b ≤ 32) (h : s.viewFault = some c) : exec i s = .next (s.takeFault ⟨c, 0⟩) := by
  obtain ⟨b, hb, hi⟩ | ⟨v, hv⟩ := wide_or_exists_evaluates hdest s
  · exact absurd (hwidth b hi) (Nat.not_le.2 hb)
  · obtain ⟨f, hf, -⟩ := exec_of_evaluates hv
    rw [hf, dataCommand_viewFault h]

/-- An estimate neither reads nor writes the destination registers. -/
theorem estimateCommand_destination {T : Layouts} {s t : State} (p e : Word) (h : estimateCommand T s = .next t) :
    estimateCommand T { s with dp := p, de := e } = .next { t with dp := p, de := e } := by
  by_cases hvalid : s.sourceValid
  · cases hest : selectorEstimate T s.source with
    | error trap =>
      cases (estimateCommand_error hvalid hest).symm.trans h
      exact estimateCommand_error (s := { s with dp := p, de := e }) hvalid hest
    | ok w =>
      cases (estimateCommand_ok hvalid hest).symm.trans h
      exact estimateCommand_ok (s := { s with dp := p, de := e }) hvalid hest
  · cases (estimateCommand_badView hvalid).symm.trans h
    exact estimateCommand_badView (s := { s with dp := p, de := e }) hvalid

/-- Settles O46: the views are checked before the pure function is asked. -/
theorem viewFaultsChangeNothing : Obligations.ViewFaultsChangeNothing := by
  refine ⟨fun s i hdest hwidth => ⟨fun hbad => ?_, fun hsource hd hover => ?_⟩, fun s i hi hbad => ?_, fun s t i p e hi h => ?_⟩
  · exact ⟨_, exec_of_viewFault hdest hwidth (viewFault_of_invalid hbad), faulted_takeFault s _ _, rfl, memKept_takeFault s _⟩
  · exact ⟨_, exec_of_viewFault hdest hwidth (viewFault_of_overlapping hsource hd hover), faulted_takeFault s _ _, rfl, memKept_takeFault s _⟩
  · obtain ⟨T, hT⟩ := exists_exec_eq_estimateCommand hi
    exact ⟨_, (hT s).trans (estimateCommand_badView hbad), faulted_takeFault s _ _, rfl, memKept_takeFault s _⟩
  · obtain ⟨T, hT⟩ := exists_exec_eq_estimateCommand hi
    rw [hT] at h ⊢
    exact estimateCommand_destination p e h

end Sys2Proof.Proofs
end

