-- ==== Sys2Proof/Proofs/Filter.lean ====
section
/-! PROOF. The DeltaZigzag filter (45_deltazigzag.md R252 to R254): both loops run through the sequence with the previous value, and `unzigzag` undoes `zigzag` at each word. -/

namespace Sys2Proof.Proofs

open Sys2Proof.Machine

/-! ## The two loops -/

@[simp] theorem dzEncode_length (p : Word) (A : List Word) : (dzEncode p A).1.length = A.length := by
  induction A generalizing p with
  | nil => rfl
  | cons x A ih => simp [dzEncode, ih]

@[simp] theorem dzDecode_length (p : Word) (E : List Word) : (dzDecode p E).1.length = E.length := by
  induction E generalizing p with
  | nil => rfl
  | cons z E ih => simp [dzDecode, ih]

/-- The encoder's last previous value is the last word. -/
theorem dzEncode_last (p : Word) (A : List Word) : (dzEncode p A).2 = A.getLast?.getD p := by
  induction A generalizing p with
  | nil => rfl
  | cons x A ih => rw [dzEncode, ih, List.getLast?_cons, Option.getD_some]

/-- The decoder's is the last word it wrote. -/
theorem dzDecode_last (p : Word) (E : List Word) : (dzDecode p E).2 = (dzDecode p E).1.getLast?.getD p := by
  induction E generalizing p with
  | nil => rfl
  | cons z E ih => rw [dzDecode, ih, List.getLast?_cons, Option.getD_some]

/-- Decoding what was encoded, from the same previous value. -/
theorem dzDecode_dzEncode (p : Word) (A : List Word) : dzDecode p (dzEncode p A).1 = (A, A.getLast?.getD p) := by
  induction A generalizing p with
  | nil => rfl
  | cons x A ih =>
    have hx : p + unzigzag (zigzag (x - p)) = x := by rw [unzigzag_zigzag, BitVec.add_comm, BitVec.sub_add_cancel]
    rw [dzEncode, dzDecode, hx, ih, List.getLast?_cons, Option.getD_some]

theorem dzEncode_dzDecode (p : Word) (E : List Word) : (dzEncode p (dzDecode p E).1).1 = E := by
  induction E generalizing p with
  | nil => rfl
  | cons z E ih =>
    rw [dzDecode, dzEncode, BitVec.add_comm, BitVec.add_sub_cancel, zigzag_unzigzag]
    exact congrArg (z :: ·) (ih _)

/-- Settles O37: zigzag and its inverse, along the chain of previous words. -/
theorem filterRoundTrip : Obligations.FilterRoundTrip :=
  ⟨fun p A => ⟨dzDecode_dzEncode p A, dzEncode_last p A⟩, dzEncode_dzDecode⟩

/-! ## Word by word -/

/-- The word before position `i`: the previous value `p` at the start. -/
def wordBefore (p : Word) (A : List Word) (i : Nat) : Word := if i = 0 then p else A.getD (i - 1) 0

theorem wordBefore_cons_succ (p x : Word) (A : List Word) (i : Nat) : wordBefore p (x :: A) (i + 1) = wordBefore x A i := by
  cases i <;> rfl

theorem dzEncode_getElem? {p x : Word} {A : List Word} {i : Nat} (h : A[i]? = some x) :
    (dzEncode p A).1[i]? = some (zigzag (x - wordBefore p A i)) := by
  induction A generalizing p i with
  | nil => exact nomatch h
  | cons y A ih =>
    cases i with
    | zero => cases h; rfl
    | succ i => rw [wordBefore_cons_succ]; exact ih h

theorem dzDecode_getElem? {p z : Word} {E : List Word} {i : Nat} (h : E[i]? = some z) :
    (dzDecode p E).1[i]? = some (wordBefore p (dzDecode p E).1 i + unzigzag z) := by
  induction E generalizing p i with
  | nil => exact nomatch h
  | cons y E ih =>
    cases i with
    | zero => cases h; rfl
    | succ i => rw [dzDecode, wordBefore_cons_succ]; exact ih h

/-- Settles O36: a filter command is the filter in the frame of a data command. -/
theorem filterCommandsCommit : Obligations.FilterCommandsCommit := by
  intro s hv hroom
  obtain ⟨t, ht, hc⟩ := exec_of_evaluates_ok hv .dzEnc (by simpa using hroom)
  obtain ⟨t', ht', hc'⟩ := exec_of_evaluates_ok hv .dzDec (by simpa using hroom)
  rw [Option.getD_some, dzEncode_last] at hc
  rw [Option.getD_some, dzDecode_last] at hc'
  exact ⟨⟨t, _, ht, hc, dzEncode_length _ _, fun i x => dzEncode_getElem?⟩, ⟨t', _, ht', hc', dzDecode_length _ _, fun i z => dzDecode_getElem?⟩⟩

end Sys2Proof.Proofs
end

