-- ==== Sys2Proof/Proofs/BlockLists.lean ====
section
/-! PROOF. The blocks of a list of words, and the stream of BinaryPacking over them (42_blockcodec.md R137 to R139): four blocks under a group header while there are four,
then each block under its own. -/

namespace Sys2Proof.Proofs

open Sys2Proof.Machine

/-! ## Blocks -/

@[simp] theorem chunks_length (size k : Nat) (A : List Word) : (chunks size k A).length = k := by
  induction k generalizing A with
  | zero => rfl
  | succ k ih => rw [chunks, List.length_cons, ih]

theorem length_of_mem_chunks {size k : Nat} {A V : List Word} (hlen : size * k ≤ A.length) (h : V ∈ chunks size k A) : V.length = size := by
  induction k generalizing A with
  | zero => exact nomatch h
  | succ k ih =>
    rw [Nat.mul_succ] at hlen
    obtain rfl | h := List.mem_cons.1 h
    · rw [List.length_take]; omega
    · exact ih (by rw [List.length_drop]; omega) h

/-- The blocks in order are the words they were cut from. -/
theorem flatten_chunks (size k : Nat) (A : List Word) : (chunks size k A).flatten = A.take (size * k) := by
  induction k generalizing A with
  | zero => rfl
  | succ k ih => rw [chunks, List.flatten_cons, ih, Nat.mul_succ, Nat.add_comm (size * k), List.take_add]

theorem chunks_add (size j k : Nat) (A : List Word) : chunks size (j + k) A = chunks size j A ++ chunks size k (A.drop (size * j)) := by
  induction j generalizing A with
  | zero => simp [chunks]
  | succ j ih =>
    rw [Nat.add_right_comm, chunks, chunks, ih, List.drop_drop, List.cons_append, Nat.mul_succ, Nat.add_comm size]

theorem chunks_take {size k n : Nat} (A : List Word) (h : size * k ≤ n) : chunks size k (A.take n) = chunks size k A := by
  induction k generalizing A n with
  | zero => rfl
  | succ k ih =>
    rw [Nat.mul_succ] at h
    rw [chunks, chunks, List.take_take, Nat.min_eq_left (by omega), List.drop_take, ih _ (by omega)]

theorem chunks_eq_map (size k : Nat) (A : List Word) : chunks size k A = (List.range k).map fun j => (A.drop (size * j)).take size := by
  induction k generalizing A with
  | zero => rfl
  | succ k ih =>
    rw [chunks, ih, List.range_succ_eq_map, List.map_cons, List.map_map]
    congr 1
    refine List.map_congr_left fun j _ => ?_
    rw [List.drop_drop, Function.comp_apply, Nat.mul_succ, Nat.add_comm size]

/-- The slices of the statements are the blocks of the model. -/
theorem slices_eq_chunks (size : Nat) (A : List Word) : slices size A = chunks size (A.length / size) A := (chunks_eq_map _ _ _).symm

theorem floorTo_eq_mul_div (g n : Nat) : floorTo g n = g * (n / g) := by
  rw [floorTo]
  have := Nat.mod_add_div n g
  omega

/-! ## The stream of BinaryPacking -/

/-- A group header, by its bytes (R137). -/
theorem groupHeader_byte (w : Nat → Nat) (hw : ∀ j, w j ≤ 32) {j : Nat} (hj : j < 4) :
    (groupHeader (w 0) (w 1) (w 2) (w 3)).toNat / 2 ^ (8 * j) % 2 ^ 8 = w j := by
  have h0 := hw 0
  have h1 := hw 1
  have h2 := hw 2
  have h3 := hw 3
  rw [groupHeader, BitVec.toNat_ofNat]
  interval_cases j <;> omega

/-- A block under its own header (R138). -/
theorem bpBlocks_cons_of_short (B : List Word) {rest : List (List Word)} (h : rest.length < 3) :
    bpBlocks (B :: rest) = BitVec.ofNat 32 (width B) :: (pack (width B) B ++ bpBlocks rest) := by
  rcases rest with _ | ⟨B1, _ | ⟨B2, _ | ⟨B3, rest⟩⟩⟩
  · rfl
  · rfl
  · rfl
  · exact absurd h (by simp)

theorem length_bpBlocks (Bs : List (List Word)) : (bpBlocks Bs).length = Bs.length / 4 + Bs.length % 4 + (Bs.map width).sum := by
  induction Bs using bpBlocks.induct with
  | case1 B0 B1 B2 B3 rest ih =>
    rw [bpBlocks]
    simp only [List.length_cons, List.length_append, pack_length, ih, List.map_cons, List.sum_cons]
    omega
  | case2 B rest hshort ih =>
    have hlt : rest.length < 3 := by
      rcases rest with _ | ⟨B1, _ | ⟨B2, _ | ⟨B3, rest⟩⟩⟩
      · decide
      · exact (by decide : 1 < 3)
      · exact (by decide : 2 < 3)
      · exact (hshort B1 B2 B3 rest rfl).elim
    rw [bpBlocks_cons_of_short B hlt]
    simp only [List.length_cons, List.length_append, pack_length, ih, List.map_cons, List.sum_cons]
    omega
  | case3 => rfl

/-- Settles O25: the length by the stream's recursion, the headers by its first equation or its second. -/
theorem binaryPackingLength : Obligations.BinaryPackingLength := by
  intro A r out h
  cases h
  refine ⟨by rw [length_bpBlocks, chunks_length], fun hlong => ?_, fun hlong hshort => ?_, fun hshort => ?_⟩
  · have hsplit : chunks 32 (A.length / 32) A = chunks 32 4 A ++ chunks 32 ((A.drop 128).length / 32) (A.drop 128) := by
      rw [← chunks_add, List.length_drop]
      congr 1
      omega
    refine ⟨groupHeader _ _ _ _, _, _, rfl,
      fun j hj => groupHeader_byte (fun j => width ((A.drop (32 * j)).take 32)) (fun _ => width_le_wordSize _) hj, ?_⟩
    rw [hsplit]
    simp only [chunks, List.cons_append, List.nil_append, bpBlocks, List.drop_drop, List.drop_zero, Nat.mul_zero]
  · have hsplit : chunks 32 (A.length / 32) A = A.take 32 :: chunks 32 ((A.drop 32).length / 32) (A.drop 32) := by
      rw [← chunks, List.length_drop]
      congr 1
      omega
    refine ⟨BitVec.ofNat 32 (width (A.take 32)), _, _, rfl, ?_, ?_⟩
    · have hw := width_le_wordSize (A.take 32)
      exact (BitVec.toNat_ofNat _ _).trans (Nat.mod_eq_of_lt (by omega))
    · rw [hsplit, bpBlocks_cons_of_short _ (by rw [chunks_length, List.length_drop]; omega)]
      rfl
  · rw [Nat.div_eq_of_lt hshort]
    rfl

end Sys2Proof.Proofs
end
-- ==== Sys2Proof/Proofs/WidthSearch.lean ====
section
/-! PROOF. The two searches for a block's width (43_for_patched.md R162 to R165). The greedy descent from `k` returns `k`, or what the descent from `k - 1` returns; the
exhaustive search keeps a width that beats every candidate seen so far. -/

namespace Sys2Proof.Proofs

open Sys2Proof.Machine

/-! ## The cost and the candidates -/

section
variable {bs ovh gap m : Nat} {ws : List Nat}

theorem cost_maxWidth : cost bs ovh m ws m = m * bs := by simp [cost]

theorem cost_of_lt {b : Nat} (h : b < m) :
    cost bs ovh m ws b = exceptionCount ws b * ovh + exceptionCount ws b * (m - b) + b * bs - (if m - b = 1 then exceptionCount ws b else 0) := by
  simp [cost, Nat.not_le.2 h]

theorem eligible_iff {b : Nat} : eligible bs gap m ws b = true ↔ exceptionCount ws b < bs ∧ m - b ≤ gap := by simp [eligible]

/-! ## The greedy descent -/

/-- The descent takes the step from `b + 1` to `b`. -/
def Descends (bs ovh gap m : Nat) (ws : List Nat) (b : Nat) : Prop :=
  eligible bs gap m ws b = true ∧ cost bs ovh m ws b < cost bs ovh m ws (b + 1)

/-- The descent from width `k`, whose cost is known. -/
def descendFrom (bs ovh gap m : Nat) (ws : List Nat) (k : Nat) : Nat := descend bs ovh gap m ws k (cost bs ovh m ws k) k

theorem greedyWidth_eq_descendFrom : greedyWidth bs ovh gap ws = descendFrom bs ovh gap (maxWidth ws) ws (maxWidth ws) := by
  rw [greedyWidth, descendFrom, cost_maxWidth]

theorem descendFrom_succ_of_descends {k : Nat} (h : Descends bs ovh gap m ws k) :
    descendFrom bs ovh gap m ws (k + 1) = descendFrom bs ovh gap m ws k := by
  obtain ⟨helig, hcost⟩ := h
  rw [descendFrom, descend, helig, decide_eq_true hcost]
  rfl

theorem descendFrom_succ_of_stops {k : Nat} (h : ¬ Descends bs ovh gap m ws k) : descendFrom bs ovh gap m ws (k + 1) = k + 1 := by
  rw [descendFrom, descend, if_neg]
  simpa [Descends] using h

/-- Every step down to the width found is taken, and the next one is not. -/
theorem descendFrom_spec (k : Nat) :
    descendFrom bs ovh gap m ws k ≤ k ∧ (∀ b, descendFrom bs ovh gap m ws k ≤ b → b < k → Descends bs ovh gap m ws b) ∧
      ∀ b, b + 1 = descendFrom bs ovh gap m ws k → ¬ Descends bs ovh gap m ws b := by
  induction k with
  | zero => exact ⟨Nat.le_refl 0, fun b _ hb => absurd hb b.not_lt_zero, fun b hb => absurd hb b.succ_ne_zero⟩
  | succ k ih =>
    by_cases h : Descends bs ovh gap m ws k
    · rw [descendFrom_succ_of_descends h]
      obtain ⟨hle, hdown, hstop⟩ := ih
      refine ⟨by omega, fun b hlo hhi => ?_, hstop⟩
      obtain rfl | hlt := Nat.eq_or_lt_of_le (Nat.le_of_lt_succ hhi)
      · exact h
      · exact hdown b hlo hlt
    · rw [descendFrom_succ_of_stops h]
      refine ⟨le_rfl, fun b hlo hhi => by omega, fun b hb => ?_⟩
      obtain rfl : b = k := Nat.succ.inj hb
      exact h

end

/-- Settles O27: the descent's loop, from `maxB` down. -/
theorem greedyDescentStopsWhereTheCostDoes : Obligations.GreedyDescentStopsWhereTheCostDoes := by
  intro bs ovh gap V
  simp only [greedyWidth_eq_descendFrom]
  obtain ⟨hle, hdown, hstop⟩ := descendFrom_spec (bs := bs) (ovh := ovh) (gap := gap) (m := maxWidth (widths V)) (ws := widths V) (maxWidth (widths V))
  refine ⟨hle, hdown, fun b hb => ?_, cost_maxWidth, exceptionCount_maxWidth _, fun b hb hne => ?_, fun b hb heq => ?_, fun b _ => eligible_iff⟩
  · rw [← hb]
    exact hstop b hb
  · rw [cost_of_lt hb, if_neg hne, Nat.sub_zero]
  · rw [cost_of_lt hb, if_pos heq, heq]
    omega

/-! ## The exhaustive search -/

/-- The widths a search may choose: the largest, or an eligible one below it. -/
def IsCandidate (bs gap : Nat) (V : List Word) (b : Nat) : Prop :=
  b = maxWidth (widths V) ∨ b < maxWidth (widths V) ∧ eligible bs gap (maxWidth (widths V)) (widths V) b = true

/-- The width `best`, of cost `c`, beats every candidate from `k` on, the larger of equals first. -/
structure Beats (T : Layouts) (bs gap : Nat) (V : List Word) (k best c : Nat) : Prop where
  le : k ≤ best
  candidate : IsCandidate bs gap V best
  cost : OptCost T bs (maxWidth (widths V)) V best c
  beats : ∀ b, k ≤ b → IsCandidate bs gap V b → ∃ d, OptCost T bs (maxWidth (widths V)) V b d ∧ c ≤ d ∧ (best < b → c < d)

section
variable {T : Layouts} {bs gap : Nat} {V : List Word} {k best c : Nat}

/-- A candidate that beats the best so far. -/
theorem Beats.replace (h : Beats T bs gap V (k + 1) best c) (hk : IsCandidate bs gap V k) {d : Nat}
    (hcost : OptCost T bs (maxWidth (widths V)) V k d) (hlt : d < c) : Beats T bs gap V k k d where
  le := le_rfl
  candidate := hk
  cost := hcost
  beats b hb hcand := by
    obtain rfl | hb := Nat.eq_or_lt_of_le hb
    · exact ⟨d, hcost, le_rfl, fun h => absurd h (Nat.lt_irrefl _)⟩
    · obtain ⟨d', hd', hle, -⟩ := h.beats b hb hcand
      exact ⟨d', hd', by omega, fun _ => by omega⟩

/-- A width that is no candidate, or one that does not beat the best so far. -/
theorem Beats.keep (h : Beats T bs gap V (k + 1) best c)
    (hk : IsCandidate bs gap V k → ∃ d, OptCost T bs (maxWidth (widths V)) V k d ∧ c ≤ d) : Beats T bs gap V k best c where
  le := Nat.le_of_succ_le h.le
  candidate := h.candidate
  cost := h.cost
  beats b hb hcand := by
    obtain rfl | hb := Nat.eq_or_lt_of_le hb
    · obtain ⟨d, hd, hle⟩ := hk hcand
      exact ⟨d, hd, hle, fun hlt => absurd h.le (Nat.not_le.2 (Nat.lt_succ_of_lt hlt))⟩
    · exact h.beats b hb hcand

theorem searchAll_beats
    (hest : ∀ b, maxWidth (widths V) ≤ b + gap → ∃ est, selectorEstimate T (exceptionWords b V) = .ok est)
    (hk : k ≤ maxWidth (widths V)) (h : Beats T bs gap V k best c) :
    ∃ best' c', searchAll T bs gap (maxWidth (widths V)) V best c k = .ok best' ∧ Beats T bs gap V 0 best' c' := by
  induction k generalizing best c with
  | zero => exact ⟨best, c, rfl, h⟩
  | succ b ih =>
    rw [searchAll]
    split
    next helig =>
      obtain ⟨est, hok⟩ := hest b (le_add_gap_of_eligible helig)
      have hcost : OptCost T bs (maxWidth (widths V)) V b (b * bs + 32 * est) := .inr ⟨hk, est, hok, rfl⟩
      rw [hok]
      simp only [Bind.bind, Except.bind]
      split
      next hlt => exact ih (Nat.le_of_succ_le hk) (h.replace (.inr ⟨hk, helig⟩) hcost hlt)
      next hge => exact ih (Nat.le_of_succ_le hk) (h.keep fun _ => ⟨_, hcost, Nat.not_lt.1 hge⟩)
    next hnot =>
      refine ih (Nat.le_of_succ_le hk) (h.keep fun hcand => ?_)
      obtain heq | ⟨-, helig⟩ := hcand
      · omega
      · exact absurd helig hnot

end

/-- The search begins at the largest width, which is the one candidate from there on. -/
theorem beats_maxWidth (T : Layouts) (bs gap : Nat) (V : List Word) :
    Beats T bs gap V (maxWidth (widths V)) (maxWidth (widths V)) (maxWidth (widths V) * bs) where
  le := le_rfl
  candidate := .inl rfl
  cost := .inl ⟨rfl, rfl⟩
  beats b hb hcand := by
    obtain rfl | ⟨hlt, -⟩ := hcand
    · exact ⟨_, .inl ⟨rfl, rfl⟩, le_rfl, fun h => absurd h (Nat.lt_irrefl _)⟩
    · omega

theorem exhaustiveWidth_beats {T : Layouts} (hT : IsSelectorTable T) (bs : Nat) {V : List Word} (hlen : V.length ≤ 2 ^ 28) :
    ∃ best c, exhaustiveWidth T bs 28 V = .ok best ∧ Beats T bs 28 V 0 best c :=
  searchAll_beats (fun _ hb => exists_ok_of_faultsSatisfy_valueFault (selectorEstimate_faults hT _) (exceptionWords_lt hlen hb)) le_rfl
    (beats_maxWidth T bs 28 V)

/-- Settles O28: the search's loop keeps that its best so far beats every candidate seen. -/
theorem exhaustiveSearchIsMinimal : Obligations.ExhaustiveSearchIsMinimal := by
  intro T V hT hV
  obtain ⟨best, c, hok, hbeats⟩ := exhaustiveWidth_beats (isSelectorTable_of_mem hT) 128 (V := V) (by rw [hV]; decide)
  exact ⟨best, hok, hbeats.candidate, c, hbeats.cost, fun b => hbeats.beats b b.zero_le⟩

end Sys2Proof.Proofs
end

