-- ==== Sys2Proof/Proofs/PlainRoundTrips.lean ====
section
/-! PROOF. The round trips of BinaryPacking, S9, S16 and VariableByte (42_blockcodec.md R131). Each is stated with words `X` after the stream, which the decoder leaves: so a
stream can stand in front of another one. -/

namespace Sys2Proof.Proofs

open Sys2Proof.Machine

/-- The decoder takes the stream `out` of the integers `A` and nothing after it. -/
def Decodes (dec : Decompress) (A out : List Word) : Prop := ∀ X, dec (out ++ X) A.length = .ok (out.length, A)

@[simp] theorem ok_bind {ε α β : Type} (a : α) (f : α → Except ε β) : (Except.ok a >>= f) = f a := by simp only [Bind.bind, Except.bind]

@[simp] theorem getWord_cons (w : Word) (s : List Word) : getWord (w :: s) = .ok (w, s) := rfl

/-! ## Packed words -/

@[simp] theorem takeWords_pack (b : Nat) (V s : List Word) : takeWords b (pack b V ++ s) = .ok (pack b V, s) := by
  have h := takeWords_append (pack b V) s
  rwa [pack_length] at h

/-- Packed sub-blocks come back truncated to the width. -/
theorem unpackBlocks_flatMap_pack (b : Nat) {Bs : List (List Word)} (hlen : ∀ B ∈ Bs, B.length = 32) (X : List Word) :
    unpackBlocks b Bs.length (Bs.flatMap (pack b) ++ X) = .ok (Bs.flatten.map (truncate b), X) := by
  induction Bs with
  | nil => rfl
  | cons B Bs ih =>
    obtain ⟨hB, hBs⟩ := List.forall_mem_cons.1 hlen
    simp only [List.length_cons, List.flatMap_cons, List.append_assoc, unpackBlocks, takeWords_pack, ok_bind, ih hBs, unpack_pack hB,
      List.flatten_cons, List.map_append]
    rfl

/-! ## BinaryPacking -/

theorem unpack_pack_width {B : List Word} (hB : B.length = 32) : unpack (width B) (pack (width B) B) = B :=
  unpack_pack_of_fits hB fun v hv => (toNat_lt_two_pow_bitlen v).trans_le (Nat.pow_le_pow_right (by decide) (bitlen_le_width hv))

/-- A group header, by the fields the decoder reads (R140). -/
theorem groupHeader_fields {w0 w1 w2 w3 : Nat} (h0 : w0 ≤ 32) (h1 : w1 ≤ 32) (h2 : w2 ≤ 32) (h3 : w3 ≤ 32) :
    (groupHeader w0 w1 w2 w3).toNat % 2 ^ 8 = w0 ∧ (groupHeader w0 w1 w2 w3).toNat / 2 ^ 8 % 2 ^ 8 = w1 ∧
      (groupHeader w0 w1 w2 w3).toNat / 2 ^ 16 % 2 ^ 8 = w2 ∧ (groupHeader w0 w1 w2 w3).toNat / 2 ^ 24 = w3 := by
  rw [groupHeader, BitVec.toNat_ofNat]
  omega

theorem bpGroups_bpBlocks (k : Nat) {Bs : List (List Word)} (hlen : ∀ B ∈ Bs, B.length = 32) (hk : 4 * k ≤ Bs.length) (X : List Word) :
    bpGroups k (bpBlocks Bs ++ X) = .ok ((Bs.take (4 * k)).flatten, bpBlocks (Bs.drop (4 * k)) ++ X) := by
  induction k generalizing Bs with
  | zero => rfl
  | succ k ih =>
    rcases Bs with _ | ⟨B0, _ | ⟨B1, _ | ⟨B2, _ | ⟨B3, Bs⟩⟩⟩⟩
    case cons.cons.cons.cons =>
      simp only [List.forall_mem_cons] at hlen
      obtain ⟨h0, h1, h2, h3, hBs⟩ := hlen
      have hw (B : List Word) := Nat.not_lt.2 (width_le_wordSize B)
      obtain ⟨hb0, hb1, hb2, hb3⟩ := groupHeader_fields (width_le_wordSize B0) (width_le_wordSize B1) (width_le_wordSize B2) (width_le_wordSize B3)
      have hrest := ih hBs (by simp only [List.length_cons] at hk; omega)
      rw [bpBlocks, List.cons_append, bpGroups, getWord_cons]
      simp only [ok_bind, hb0, hb1, hb2, hb3, hw, or_self, if_false, List.append_assoc, takeWords_pack, hrest, unpack_pack_width h0,
        unpack_pack_width h1, unpack_pack_width h2, unpack_pack_width h3]
      simp [Nat.mul_succ, Pure.pure, Except.pure]
    all_goals simp only [List.length_cons, List.length_nil] at hk; omega

theorem bpSingles_bpBlocks {Bs : List (List Word)} (hlen : ∀ B ∈ Bs, B.length = 32) (hshort : Bs.length < 4) (X : List Word) :
    bpSingles Bs.length (bpBlocks Bs ++ X) = .ok (Bs.flatten, X) := by
  induction Bs with
  | nil => rfl
  | cons B Bs ih =>
    obtain ⟨hB, hBs⟩ := List.forall_mem_cons.1 hlen
    rw [List.length_cons] at hshort
    have hw := width_le_wordSize B
    have hhead : (BitVec.ofNat 32 (width B)).toNat = width B := (BitVec.toNat_ofNat _ _).trans (Nat.mod_eq_of_lt (by omega))
    rw [bpBlocks_cons_of_short B (by omega), List.cons_append, List.length_cons, bpSingles, getWord_cons]
    simp only [ok_bind, hhead, Nat.not_lt.2 hw, if_false, List.append_assoc, takeWords_pack, ih hBs (by omega), unpack_pack_width hB]
    rfl

/-- The groups, then the single blocks (R139, R140). -/
theorem decodes_bpDecompress {A : List Word} (hA : A.length % 32 = 0) : Decodes bpDecompress A (bpBlocks (chunks 32 (A.length / 32) A)) := by
  intro X
  have hcount : 32 * (A.length / 32) = A.length := by omega
  have hlen : ∀ B ∈ chunks 32 (A.length / 32) A, B.length = 32 := fun B => length_of_mem_chunks hcount.le
  have hflat : (chunks 32 (A.length / 32) A).flatten = A := by rw [flatten_chunks, hcount, List.take_length]
  generalize hBs : chunks 32 (A.length / 32) A = Bs at hlen hflat
  have hnb : A.length / 32 = Bs.length := by rw [← hBs, chunks_length]
  have hgroups := bpGroups_bpBlocks (Bs.length / 4) hlen (by omega) X
  have hsingles := bpSingles_bpBlocks (Bs := Bs.drop (4 * (Bs.length / 4))) (fun B hB => hlen B (List.mem_of_mem_drop hB))
    (by rw [List.length_drop]; omega) X
  have hleft : (Bs.drop (4 * (Bs.length / 4))).length = Bs.length % 4 := by rw [List.length_drop]; omega
  rw [hleft] at hsingles
  simp only [bpDecompress, hnb, hgroups, ok_bind, hsingles]
  rw [← List.flatten_append, List.take_append_drop, hflat, List.length_append, Nat.add_sub_cancel]
  rfl

/-! ## The selector codecs -/

/-- The slots of a payload give back the values, whatever stands above the payload. -/
theorem slotValues_payload {l : List Nat} {A : List Word} (h : FitsSlots l A) (q : Nat) :
    slotValues l (payload l A + 2 ^ l.sum * q) A.length = A.take l.length := by
  induction l generalizing A with
  | nil => rfl
  | cons w l ih =>
    cases A with
    | nil => rfl
    | cons v A =>
      obtain ⟨hv, hA⟩ := (fitsSlots_cons_cons w l v A).1 h
      have hsplit : payload (w :: l) (v :: A) + 2 ^ (w :: l).sum * q = v.toNat + 2 ^ w * (payload l A + 2 ^ l.sum * q) := by
        rw [payload, List.sum_cons, pow_add]
        ring
      rw [hsplit, List.length_cons, slotValues, Nat.add_mul_mod_self_left, Nat.mod_eq_of_lt hv, Nat.add_mul_div_left _ _ (Nat.two_pow_pos w),
        Nat.div_eq_of_lt hv, Nat.zero_add, ih hA, BitVec.ofNat_toNat, BitVec.setWidth_eq]
      rfl

theorem slotValues_selectorWord {T : Layouts} (hT : IsSelectorTable T) {A : List Word} {s : Nat} {l : List Nat} (h : firstFit T 0 A = some (s, l)) :
    slotValues l (selectorWord s l A).toNat A.length = A.take l.length := by
  obtain ⟨hw, -⟩ := toNat_selectorWord hT h
  obtain ⟨d, hd⟩ := Nat.exists_eq_add_of_le (hT.sum_le l (layout_mem_of_firstFit h))
  have habove : s * 2 ^ 28 = 2 ^ l.sum * (2 ^ d * s) := by
    rw [hd, pow_add]
    ring
  rw [hw, Nat.add_comm, habove]
  exact slotValues_payload (fitsSlots_of_firstFit h) _

/-- A decoder's round is the compress's. -/
theorem selectorDecompress_selectorWords {T : Layouts} (hT : IsSelectorTable T) {n : Nat} {A out : List Word} (hn : A.length ≤ n)
    (h : selectorWords T n A = .ok out) : Decodes (selectorDecompress T) A out := by
  intro X
  induction n generalizing A out with
  | zero =>
    obtain rfl := List.length_eq_zero_iff.1 (Nat.le_zero.1 hn)
    rw [selectorWords_nil] at h
    cases h
    rw [List.length_nil, selectorDecompress]
  | succ n ih =>
    cases A with
    | nil =>
      rw [selectorWords_nil] at h
      cases h
      rw [List.length_nil, selectorDecompress]
    | cons v A =>
      rw [List.length_cons] at hn
      cases hf : firstFit T 0 (v :: A) with
      | none => rw [selectorWords_cons_of_none hf] at h; exact nomatch h
      | some p =>
        obtain ⟨s, l⟩ := p
        have hle := length_drop_le_of_firstFit hT hf
        rw [selectorWords_cons_of_some hf] at h
        cases hrest : selectorWords T n ((v :: A).drop l.length) with
        | error t => rw [hrest] at h; exact nomatch h
        | ok out' =>
          rw [hrest] at h
          cases h
          have hsel : T[(selectorWord s l (v :: A)).toNat / 2 ^ 28]? = some l := by
            rw [selectorWord_div hT hf]
            exact ((firstFit_eq_some_iff T _ s l).1 hf).1
          have hdec := ih (by omega) hrest
          rw [List.length_drop] at hdec
          have hslots := slotValues_selectorWord hT hf
          rw [List.length_cons] at hdec hslots
          rw [List.length_cons, List.cons_append, selectorDecompress]
          simp only [hsel, hdec, ok_bind, hslots, List.take_append_drop]
          rfl

theorem decodes_selectorDecompress {T : Layouts} (hT : IsSelectorTable T) {A out : List Word} {r : Nat} (h : selectorCompress T A = .ok (r, out)) :
    Decodes (selectorDecompress T) A out :=
  selectorDecompress_selectorWords hT le_rfl ((selectorCompress_eq_ok_iff T A r out).1 h).2

/-! ## VariableByte -/

/-- The groups of a value are read back after `k` bytes worth `acc`. -/
theorem vbValue_of_isVbytes {v : Nat} {Y : List Byte} (h : IsVbytes v Y) {k : Nat} (hk : k + Y.length ≤ 5) (acc : Nat) (Z : List Byte) :
    vbValue k acc (Y ++ Z) = .ok (BitVec.ofNat 32 (acc + v * 2 ^ (7 * k)), Z) := by
  induction h generalizing k acc with
  | @last v hv =>
    have hk5 : ¬ 5 ≤ k := by simp only [List.length_singleton] at hk; omega
    have hlow : v % 128 = v := Nat.mod_eq_of_lt hv
    have hbit : v / 128 = 0 := Nat.div_eq_of_lt hv
    rw [List.singleton_append, vbValue, if_neg hk5]
    simp only [toNat_lastByte hv, hlow, hbit, if_true]
  | @more v Y hv rest ih =>
    rw [List.length_cons] at hk
    have hpos := List.length_pos_of_ne_nil (ne_nil_of_isVbytes rest)
    have hk5 : ¬ 5 ≤ k := by omega
    have hlow : (v % 128 + 128) % 128 = v % 128 := by omega
    have hbit : ¬ (v % 128 + 128) / 128 = 0 := by omega
    have hsum : acc + v % 128 * 2 ^ (7 * k) + v / 128 * 2 ^ (7 * (k + 1)) = acc + v * 2 ^ (7 * k) := by
      have hv' := Nat.mod_add_div v 128
      rw [Nat.mul_succ, pow_add]
      calc acc + v % 128 * 2 ^ (7 * k) + v / 128 * (2 ^ (7 * k) * 2 ^ 7) = acc + (v % 128 + 128 * (v / 128)) * 2 ^ (7 * k) := by ring
        _ = acc + v * 2 ^ (7 * k) := by rw [hv']
    rw [List.cons_append, vbValue, if_neg hk5]
    simp only [toNat_continuationByte, hlow, hbit, if_false]
    rw [ih (by omega), hsum]

theorem length_vbytes_le (v : Word) : (vbytes v).length ≤ 5 := by
  have h := bitlen_le_wordSize v
  rw [length_vbytes]
  omega

theorem vbValue_vbytes (v : Word) (Z : List Byte) : vbValue 0 0 (vbytes v ++ Z) = .ok (v, Z) := by
  have h := length_vbytes_le v
  rw [vbValue_of_isVbytes (isVbytes_vbytes v) (by omega)]
  simp

theorem vbValues_flatMap_vbytes (A : List Word) (Z : List Byte) : vbValues A.length (A.flatMap vbytes ++ Z) = .ok (A, Z) := by
  induction A with
  | nil => rfl
  | cons v A ih =>
    rw [List.length_cons, List.flatMap_cons, List.append_assoc, vbValues, vbValue_vbytes]
    simp only [ok_bind, ih]
    rfl

@[simp] theorem bytesOfWords_cons (w : Word) (W : List Word) :
    bytesOfWords (w :: W) = [wordByte w 0, wordByte w 1, wordByte w 2, wordByte w 3] ++ bytesOfWords W := rfl

theorem bytesOfWords_joinBytes_cons (f : Nat → Byte) (W : List Word) :
    bytesOfWords (joinBytes (f 0) (f 1) (f 2) (f 3) :: W) = [f 0, f 1, f 2, f 3] ++ bytesOfWords W := by
  rw [bytesOfWords_cons, wordByte_joinBytes f (by decide), wordByte_joinBytes f (by decide), wordByte_joinBytes f (by decide),
    wordByte_joinBytes f (by decide)]

/-- The bytes of the words of a byte list are the bytes, and what fills the last word. -/
theorem exists_bytesOfWords_wordsOfBytes (Y : List Byte) : ∃ Z, bytesOfWords (wordsOfBytes Y) = Y ++ Z := by
  induction Y using wordsOfBytes.induct with
  | case1 => exact ⟨[], rfl⟩
  | case2 b0 => exact ⟨[0, 0, 0], bytesOfWords_joinBytes_cons ([b0].getD · 0) []⟩
  | case3 b0 b1 => exact ⟨[0, 0], bytesOfWords_joinBytes_cons ([b0, b1].getD · 0) []⟩
  | case4 b0 b1 b2 => exact ⟨[0], bytesOfWords_joinBytes_cons ([b0, b1, b2].getD · 0) []⟩
  | case5 b0 b1 b2 b3 Y ih =>
    obtain ⟨Z, hZ⟩ := ih
    refine ⟨Z, (bytesOfWords_joinBytes_cons ([b0, b1, b2, b3].getD · 0) _).trans ?_⟩
    rw [hZ]
    rfl

/-- The bytes of a stream that begins with the words of a byte list begin with the bytes. -/
theorem exists_bytesOfWords_append (Y : List Byte) (X : List Word) : ∃ Z, bytesOfWords (wordsOfBytes Y ++ X) = Y ++ Z := by
  obtain ⟨Z, hZ⟩ := exists_bytesOfWords_wordsOfBytes Y
  exact ⟨Z ++ bytesOfWords X, by rw [bytesOfWords_append, hZ, List.append_assoc]⟩

/-- Every word a byte was taken from is consumed, so the fill bytes are too (R268). -/
theorem decodes_vbDecompress (A : List Word) : Decodes vbDecompress A (wordsOfBytes (A.flatMap vbytes)) := by
  intro X
  obtain ⟨Z, hZ⟩ := exists_bytesOfWords_append (A.flatMap vbytes) X
  simp only [vbDecompress, hZ, vbValues_flatMap_vbytes, ok_bind, length_wordsOfBytes, List.length_append, Nat.add_sub_cancel]
  rfl

/-! ## The four forms -/

/-- The headless decoder of `k'` takes the headless stream of `k` and gives the words that went into it (R131). -/
def RoundTrips (k k' : Codec) : Prop :=
  ∀ (page ovh : Word) (A : List Word) (r : Nat) (out : List Word), A.length ≤ 2 ^ 31 → headlessCompress k page ovh A = .ok (r, out) →
    Decodes (headlessDecompress k' page) (A.take r) out

section
variable {k k' : Codec} {page ovh : Word} {A : List Word} {r : Nat} {out : List Word}

theorem RoundTrips.headless (hk : RoundTrips k k') (hA : A.length ≤ 2 ^ 31) (h : headlessCompress k page ovh A = .ok (r, out)) (X : List Word) :
    headlessDecompress k' page (out ++ X) r = .ok (out.length, A.take r) := by
  have hdec := hk page ovh A r out hA h X
  rwa [List.length_take, Nat.min_eq_left (headlessCompress_read_le h)] at hdec

/-- A headed stream that is not empty is a count and the headless stream of that many words. -/
theorem headedCompress_cases (h : headedCompress k page ovh A = .ok (r, out)) :
    r = 0 ∧ out = [] ∧ floorTo (granule k) A.length = 0 ∨
      ∃ out', out = BitVec.ofNat 32 r :: out' ∧ r ≠ 0 ∧ headlessCompress k page ovh (A.take r) = .ok (r, out') := by
  have hr := headedCompress_read h
  by_cases h0 : floorTo (granule k) A.length = 0
  · rw [headedCompress_of_short page ovh h0] at h
    cases h
    exact .inl ⟨rfl, rfl, h0⟩
  · rw [headedCompress_of_long page ovh h0, ← hr] at h
    cases hstream : headlessCompress k page ovh (A.take r) with
    | error t => rw [hstream] at h; exact nomatch h
    | ok p =>
      rw [hstream] at h
      cases h
      exact .inr ⟨_, rfl, hr ▸ h0, rfl⟩

theorem RoundTrips.headed (hk : RoundTrips k k') (hA : A.length ≤ 2 ^ 31) (h : headedCompress k page ovh A = .ok (r, out)) (hout : out ≠ [])
    (X : List Word) : headedDecompress k' page (out ++ X) = .ok (out.length, A.take r) := by
  obtain ⟨-, hnil, -⟩ | ⟨out', rfl, -, hstream⟩ := headedCompress_cases h
  · exact absurd hnil hout
  · have hr := headedCompress_read_le h
    have hcount : (BitVec.ofNat 32 r).toNat = r := (BitVec.toNat_ofNat _ _).trans (Nat.mod_eq_of_lt (by omega))
    rw [List.cons_append, headedDecompress_cons, hcount, hk.headless (by rw [List.length_take]; omega) hstream, List.take_take, Nat.min_self,
      List.length_cons, Nat.add_comm]
    rfl

/-- The two clauses that the round-trip statements ask of a codec. -/
theorem RoundTrips.forms (hk : RoundTrips k k') (page ovh : Word) (r : Nat) (out : List Word) (hA : A.length ≤ 2 ^ 31) :
    (headlessCompress k page ovh A = .ok (r, out) → headlessDecompress k' page out r = .ok (out.length, A.take r)) ∧
      (headedCompress k page ovh A = .ok (r, out) → headedDecompress k' page out = .ok (out.length, A.take r)) := by
  refine ⟨fun h => ?_, fun h => ?_⟩
  · have hdec := hk.headless hA h []
    rwa [List.append_nil] at hdec
  · by_cases hout : out = []
    · obtain ⟨rfl, rfl, -⟩ | ⟨out', hcons, -⟩ := headedCompress_cases h
      · rfl
      · exact absurd (hcons.symm.trans hout) (List.cons_ne_nil _ _)
    · have hdec := hk.headed hA h hout []
      rwa [List.append_nil] at hdec

end

theorem roundTrips_bp : RoundTrips .bp .bp := by
  intro page ovh A r out _ h
  cases h
  have hlen : (A.take (floorTo 32 A.length)).length = floorTo 32 A.length := by rw [List.length_take, Nat.min_eq_left (floorTo_le _ _)]
  have hdec := decodes_bpDecompress (A := A.take (floorTo 32 A.length)) (by rw [hlen, floorTo_eq_mul_div, Nat.mul_mod_right])
  rwa [hlen, floorTo_eq_mul_div, Nat.mul_div_cancel_left _ (by decide), chunks_take A le_rfl, ← floorTo_eq_mul_div] at hdec

theorem decodes_of_selectorCompress {T : Layouts} (hT : IsSelectorTable T) {A out : List Word} {r : Nat} (h : selectorCompress T A = .ok (r, out)) :
    Decodes (selectorDecompress T) (A.take r) out := by
  obtain ⟨rfl, -⟩ := (selectorCompress_eq_ok_iff T A r out).1 h
  rw [List.take_length]
  exact decodes_selectorDecompress hT h

theorem roundTrips_s9 : RoundTrips .s9 .s9 := fun _ _ _ _ _ _ => decodes_of_selectorCompress isSelectorTable_simple9

theorem roundTrips_s16 : RoundTrips .s16 .s16 := fun _ _ _ _ _ _ => decodes_of_selectorCompress isSelectorTable_simple16

theorem roundTrips_vb : RoundTrips .vb .vb := by
  intro page ovh A r out _ h
  cases h
  rw [List.take_length]
  exact decodes_vbDecompress A

/-- Settles O21: each codec's stream decodes, whatever follows it, and the forms follow from that. -/
theorem plainCodecRoundTrip : Obligations.PlainCodecRoundTrip := by
  intro k page ovh A r out hk hA
  simp only [List.mem_cons, List.not_mem_nil, or_false] at hk
  obtain rfl | rfl | rfl | rfl := hk
  · exact roundTrips_bp.forms page ovh r out hA
  · exact roundTrips_s9.forms page ovh r out hA
  · exact roundTrips_s16.forms page ovh r out hA
  · exact roundTrips_vb.forms page ovh r out hA

end Sys2Proof.Proofs
end

