-- ==== Sys2Proof/Proofs/BlockExceptions.lean ====
section
/-! PROOF. A block at a chosen width (43_for_patched.md R163, R167 to R169): its exceptions as the layout tables list them, its packed words, and that patching the exceptions
back restores it. Both patched codecs rest on this. -/

namespace Sys2Proof.Proofs

open Sys2Proof.Machine

/-! ## A chosen width -/

/-- The greedy descent stops at the largest width, or at one the descent stepped to. -/
theorem isCandidate_greedyWidth (bs ovh gap : Nat) (V : List Word) : IsCandidate bs gap V (greedyWidth bs ovh gap (widths V)) := by
  rw [greedyWidth_eq_descendFrom]
  obtain ⟨hle, hdown, -⟩ := descendFrom_spec (bs := bs) (ovh := ovh) (gap := gap) (m := maxWidth (widths V)) (ws := widths V) (maxWidth (widths V))
  obtain heq | hlt := Nat.eq_or_lt_of_le hle
  · exact .inl heq
  · exact .inr ⟨hlt, (hdown _ le_rfl hlt).1⟩

theorem maxWidth_widths_le (V : List Word) : maxWidth (widths V) ≤ 32 := (maxWidth_le_iff _ _).2 fun _ => widths_le_wordSize

section
variable {bs gap : Nat} {V : List Word} {b : Nat}

theorem IsCandidate.le (h : IsCandidate bs gap V b) : b ≤ maxWidth (widths V) := by
  obtain rfl | ⟨hlt, -⟩ := h
  · exact le_rfl
  · exact hlt.le

theorem IsCandidate.le_wordSize (h : IsCandidate bs gap V b) : b ≤ 32 := h.le.trans (maxWidth_widths_le V)

theorem IsCandidate.sub_le_gap (h : IsCandidate bs gap V b) : maxWidth (widths V) - b ≤ gap := by
  obtain rfl | ⟨-, helig⟩ := h
  · rw [Nat.sub_self]; exact gap.zero_le
  · exact (eligible_iff.1 helig).2

/-- A block has fewer exceptions than words. -/
theorem IsCandidate.exceptionCount_lt (h : IsCandidate bs gap V b) (hbs : 0 < bs) : exceptionCount (widths V) b < bs := by
  obtain rfl | ⟨-, helig⟩ := h
  · rwa [exceptionCount_maxWidth]
  · exact (eligible_iff.1 helig).1

theorem IsCandidate.lt_of_exceptions (h : IsCandidate bs gap V b) (he : exceptionCount (widths V) b ≠ 0) : b < maxWidth (widths V) := by
  obtain rfl | ⟨hlt, -⟩ := h
  · exact absurd (exceptionCount_maxWidth _) he
  · exact hlt

/-! ## The exceptions -/

theorem exceptionsFrom_eq_map (b i : Nat) (V : List Word) :
    exceptionsFrom b i V = ((List.range V.length).filter fun j => decide (V.getD j 0 >>> b ≠ 0)).map fun j => (i + j, V.getD j 0 >>> b) := by
  induction V generalizing i with
  | nil => rfl
  | cons v V ih =>
    have htail : (((List.range V.length).map Nat.succ).filter fun j => decide ((v :: V).getD j 0 >>> b ≠ 0)).map
        (fun j => (i + j, (v :: V).getD j 0 >>> b)) = exceptionsFrom b (i + 1) V := by
      rw [ih, List.filter_map, List.map_map]
      refine List.map_congr_left fun j _ => ?_
      simp only [Function.comp_apply, List.getD_cons_succ]
      rw [Nat.add_right_comm, Nat.add_assoc]
    rw [exceptionsFrom, List.length_cons, List.range_succ_eq_map]
    by_cases hv : v >>> b = 0
    · rw [if_pos hv, List.filter_cons_of_neg (by simp [hv]), htail]
    · rw [if_neg hv, List.filter_cons_of_pos (by simpa using hv), List.map_cons, htail]
      rfl

/-- The exceptions of a block are the layout tables' positions and high bits. -/
theorem exceptions_eq_map (b : Nat) (V : List Word) : exceptions b V = (positionsAt b V).map fun j => (j, V.getD j 0 >>> b) := by
  rw [exceptions, exceptionsFrom_eq_map]
  simp only [Nat.zero_add]
  rfl

theorem map_fst_exceptions (b : Nat) (V : List Word) : (exceptions b V).map Prod.fst = positionsAt b V := by
  rw [exceptions_eq_map, List.map_map]
  exact List.map_id _

theorem map_snd_exceptions (b : Nat) (V : List Word) : (exceptions b V).map Prod.snd = highBitsAt b V := by
  rw [exceptions_eq_map, List.map_map]
  rfl

@[simp] theorem length_exceptions (b : Nat) (V : List Word) : (exceptions b V).length = (positionsAt b V).length := by
  rw [exceptions_eq_map, List.length_map]

theorem length_exceptionsFrom (b i : Nat) (V : List Word) : (exceptionsFrom b i V).length = exceptionCount (widths V) b := by
  rw [exceptionCount_widths_eq_length_filter]
  induction V generalizing i with
  | nil => rfl
  | cons v V ih =>
    rw [exceptionsFrom]
    by_cases hv : v >>> b = 0
    · rw [if_pos hv, List.filter_cons_of_neg (by simp [hv]), ih]
    · rw [if_neg hv, List.filter_cons_of_pos (by simpa using hv), List.length_cons, List.length_cons, ih]

theorem length_positionsAt (b : Nat) (V : List Word) : (positionsAt b V).length = exceptionCount (widths V) b := by
  rw [← length_exceptions]
  exact length_exceptionsFrom b 0 V

theorem exceptions_position_lt {e : Nat × Word} (h : e ∈ exceptions b V) : e.1 < V.length := by
  have hpos := (mem_exceptionsFrom h).1
  rwa [Nat.zero_add] at hpos

/-- Patching the exceptions into the truncated block, in order of position. -/
def patchAll (b : Nat) (U : List Word) (exc : List (Nat × Word)) : List Word := exc.foldl (fun U e => patch b U e.1 e.2) U

theorem patchAll_exceptions (b : Nat) (V : List Word) : patchAll b (V.map (truncate b)) (exceptions b V) = V :=
  foldl_patch_exceptionsFrom b [] V

/-! ## The packed block -/

theorem packedBlock_eq_packBlock (b : Nat) (V : List Word) : packedBlock b V = packBlock b V := by
  rw [packedBlock, slices_eq_chunks, packBlock]

theorem unpackBlocks_packBlock (b : Nat) {k : Nat} {V : List Word} (hV : V.length = 32 * k) (X : List Word) :
    unpackBlocks b k (packBlock b V ++ X) = .ok (V.map (truncate b), X) := by
  have hk : V.length / 32 = k := by omega
  have h := unpackBlocks_flatMap_pack b (fun B => length_of_mem_chunks (size := 32) (k := k) (A := V) (by omega)) X
  rw [chunks_length, flatten_chunks, ← hV, List.take_length] at h
  rw [packBlock, hk, h]

theorem length_flatMap_pack (b : Nat) (Bs : List (List Word)) : (Bs.flatMap (pack b)).length = Bs.length * b := by
  induction Bs with
  | nil => simp
  | cons B Bs ih => rw [List.flatMap_cons, List.length_append, pack_length, ih, List.length_cons, Nat.succ_mul, Nat.add_comm]

theorem length_packBlock (b : Nat) (V : List Word) : (packBlock b V).length = V.length / 32 * b := by
  rw [packBlock, length_flatMap_pack, chunks_length]

end

end Sys2Proof.Proofs
end

