-- ==== Sys2Proof/Proofs/PatchedRoundTrips.lean ====
section
/-! PROOF. NewPFD and OptPFD (43_for_patched.md R185 to R187): what a block stream is, at the width its search selects, and that the decoder takes it and restores the
block. -/

namespace Sys2Proof.Proofs

open Sys2Proof.Machine

/-! ## The block stream -/

theorem isCandidate_pfdWidth {search : Search} {T : Layouts} (hT : IsSelectorTable T) {ovh b : Nat} {V : List Word} (hV : V.length ≤ 2 ^ 28)
    (h : pfdWidth search T ovh V = .ok b) : IsCandidate 128 28 V b := by
  cases search with
  | greedy => cases h; exact isCandidate_greedyWidth 128 ovh 28 V
  | exhaustive =>
    obtain ⟨best, c, hok, hbeats⟩ := exhaustiveWidth_beats hT 128 hV
    cases hok.symm.trans h
    exact hbeats.candidate

/-- A header word, by the fields the decoder reads (R187). -/
theorem pfdHeader_fields {b e m : Nat} (hb : b ≤ 32) (he : e < 128) (hm : m ≤ 32) :
    (pfdHeader b e m).toNat % 2 ^ 8 = b ∧ (pfdHeader b e m).toNat / 2 ^ 8 % 2 ^ 8 = e ∧
      (pfdHeader b e m).toNat / 2 ^ 16 % 2 ^ 8 = (if e = 0 then 0 else m) ∧ (pfdHeader b e m).toNat / 2 ^ 24 = 0 := by
  rw [pfdHeader, BitVec.toNat_ofNat]
  split <;> omega

theorem length_exceptionWords (b : Nat) (V : List Word) : (exceptionWords b V).length = 2 * exceptionCount (widths V) b := by
  rw [exceptionWords, List.length_append, List.length_map, List.length_map, length_exceptions, length_positionsAt]
  omega

/-- What a block stream is made of (R185). -/
structure IsPfdBlock (T : Layouts) (b : Nat) (V x out : List Word) : Prop where
  candidate : IsCandidate 128 28 V b
  eq : out = pfdHeader b (exceptionCount (widths V) b) (maxWidth (widths V)) :: (x ++ packBlock b V)
  none : exceptionCount (widths V) b = 0 → x = []
  some : exceptionCount (widths V) b ≠ 0 → selectorCompress T (exceptionWords b V) = .ok (2 * exceptionCount (widths V) b, x)

theorem exists_isPfdBlock {search : Search} {T : Layouts} (hT : IsSelectorTable T) {ovh : Nat} {V out : List Word} (hV : V.length ≤ 2 ^ 28)
    (h : pfdBlock search T ovh V = .ok out) : ∃ b x, pfdWidth search T ovh V = .ok b ∧ IsPfdBlock T b V x out := by
  obtain ⟨b, hwidth, h⟩ := (exceptBind_eq_ok_iff _ _ _).1 h
  have hcand := isCandidate_pfdWidth hT hV hwidth
  by_cases he : exceptionCount (widths V) b = 0
  · rw [if_pos he] at h
    cases h
    exact ⟨b, [], hwidth, hcand, rfl, fun _ => rfl, fun hne => absurd he hne⟩
  · rw [if_neg he] at h
    obtain ⟨⟨r, x⟩, hx, h⟩ := (exceptBind_eq_ok_iff _ _ _).1 h
    cases h
    obtain ⟨rfl, -⟩ := (selectorCompress_eq_ok_iff _ _ _ _).1 hx
    rw [length_exceptionWords] at hx
    exact ⟨b, x, hwidth, hcand, rfl, fun h0 => absurd h0 he, fun _ => hx⟩

theorem IsPfdBlock.layout {T : Layouts} {b : Nat} {V x out : List Word} (h : IsPfdBlock T b V x out) : PfdBlockLayout T b V out := by
  obtain ⟨hcand, rfl, hnone, hsome⟩ := h
  obtain ⟨h0, h1, h2, h3⟩ := pfdHeader_fields hcand.le_wordSize (hcand.exceptionCount_lt (by decide)) (maxWidth_widths_le V)
  have hempty : positionsAt b V = [] ↔ exceptionCount (widths V) b = 0 := by rw [← length_positionsAt, List.length_eq_zero_iff]
  refine ⟨_, x, by rw [packedBlock_eq_packBlock], h0, h1.trans (length_positionsAt b V).symm, h3, fun hP => ?_, fun hP => ?_⟩
  · have he := hempty.1 hP
    exact ⟨h2.trans (if_pos he), hnone he⟩
  · have he : exceptionCount (widths V) b ≠ 0 := mt hempty.2 hP
    refine ⟨h2.trans (if_neg he), ?_⟩
    have hwords : exceptionWords b V = (positionsAt b V).map (BitVec.ofNat 32) ++ highBitsAt b V := by
      rw [exceptionWords, map_snd_exceptions, ← map_fst_exceptions, List.map_map]
      rfl
    rw [← hwords, length_positionsAt]
    exact hsome he

/-! ## Decoding a block -/

/-- An exception as the secondary codec carries it: the position as a word. -/
def exceptionPair (e : Nat × Word) : Word × Word := (BitVec.ofNat 32 e.1, e.2)

/-- Positions first, then high bits (R167). -/
theorem zip_exceptionWords (b : Nat) (V : List Word) :
    ((exceptionWords b V).take (exceptionCount (widths V) b)).zip ((exceptionWords b V).drop (exceptionCount (widths V) b)) =
      (exceptions b V).map exceptionPair := by
  have hlen : exceptionCount (widths V) b = ((exceptions b V).map fun e => BitVec.ofNat 32 e.1).length := by
    rw [List.length_map, length_exceptions, length_positionsAt]
  rw [hlen, exceptionWords, List.take_left', List.drop_left', List.zip_map']
  · rfl
  · rfl
  · rfl

theorem IsPfdBlock.exceptions_read {T : Layouts} (hT : IsSelectorTable T) {b : Nat} {V x out : List Word} (h : IsPfdBlock T b V x out)
    (X : List Word) : pfdExceptions T (exceptionCount (widths V) b) (x ++ X) = .ok ((exceptions b V).map exceptionPair, X) := by
  rw [pfdExceptions]
  by_cases he : exceptionCount (widths V) b = 0
  · have hnil : exceptions b V = [] := by rw [← List.length_eq_zero_iff, length_exceptions, length_positionsAt, he]
    rw [if_pos he, h.none he, hnil]
    rfl
  · have hdec := decodes_selectorDecompress hT (h.some he) X
    rw [length_exceptionWords] at hdec
    rw [if_neg he, hdec, ok_bind]
    simp only [zip_exceptionWords, List.drop_left]
    rfl

theorem pfdPatch_map_exceptionPair (b : Nat) {exc : List (Nat × Word)} (hexc : ∀ e ∈ exc, e.1 < 128) (U : List Word) :
    pfdPatch b (exc.map exceptionPair) U = .ok (patchAll b U exc) := by
  induction exc generalizing U with
  | nil => rfl
  | cons e exc ih =>
    obtain ⟨he, hrest⟩ := List.forall_mem_cons.1 hexc
    have hpos : (BitVec.ofNat 32 e.1).toNat = e.1 := (BitVec.toNat_ofNat _ _).trans (Nat.mod_eq_of_lt (by omega))
    rw [List.map_cons, exceptionPair, pfdPatch, hpos, if_neg (Nat.not_le.2 he), ih hrest]
    rfl

/-- One block, and then the rest of the blocks. -/
theorem IsPfdBlock.read {T : Layouts} (hT : IsSelectorTable T) {b : Nat} {V x out : List Word} (hV : V.length = 128) (h : IsPfdBlock T b V x out)
    (k : Nat) (X : List Word) : pfdReadBlocks T (k + 1) (out ++ X) = (pfdReadBlocks T k X).map (Prod.map (V ++ ·) id) := by
  have hcand := h.candidate
  have hb := hcand.le_wordSize
  have hm := maxWidth_widths_le V
  have hgap := hcand.sub_le_gap
  have he := hcand.exceptionCount_lt (by decide)
  obtain ⟨h0, h1, h2, h3⟩ := pfdHeader_fields hb he hm
  have hok : pfdHeaderOk 0 b (exceptionCount (widths V) b) (if exceptionCount (widths V) b = 0 then 0 else maxWidth (widths V)) = true := by
    by_cases he0 : exceptionCount (widths V) b = 0
    · simp [pfdHeaderOk, he0, hb]
    · simp [pfdHeaderOk, he0, hb, hcand.lt_of_exceptions he0, hm, hgap, he]
  have hpos : ∀ e ∈ exceptions b V, e.1 < 128 := fun e he => hV ▸ exceptions_position_lt he
  rw [h.eq, List.cons_append, pfdReadBlocks, getWord_cons]
  simp only [ok_bind, h0, h1, h2, h3, hok, not_true_eq_false, if_false, List.append_assoc, h.exceptions_read hT,
    unpackBlocks_packBlock b (k := 4) hV, pfdPatch_map_exceptionPair b hpos, patchAll_exceptions]
  cases pfdReadBlocks T k X <;> rfl

theorem pfdReadBlocks_pfdBlocks {search : Search} {T : Layouts} (hT : IsSelectorTable T) {ovh : Nat} {Vs : List (List Word)} {out : List Word}
    (hlen : ∀ V ∈ Vs, V.length = 128) (h : pfdBlocks search T ovh Vs = .ok out) (X : List Word) :
    pfdReadBlocks T Vs.length (out ++ X) = .ok (Vs.flatten, X) := by
  induction Vs generalizing out with
  | nil => cases h; rfl
  | cons V Vs ih =>
    obtain ⟨hV, hVs⟩ := List.forall_mem_cons.1 hlen
    obtain ⟨x, hx, h⟩ := (exceptBind_eq_ok_iff _ _ _).1 h
    obtain ⟨y, hy, h⟩ := (exceptBind_eq_ok_iff _ _ _).1 h
    cases h
    obtain ⟨b, xs, -, hblock⟩ := exists_isPfdBlock hT (by rw [hV]; decide) hx
    rw [List.append_assoc, List.length_cons, hblock.read hT hV, ih hVs hy]
    rfl

/-! ## The codecs -/

theorem decodes_of_pfdCompress {search : Search} {T : Layouts} (hT : IsSelectorTable T) {ovh : Word} {A out : List Word} {r : Nat}
    (h : pfdCompress search T ovh A = .ok (r, out)) : Decodes (pfdDecompress T) (A.take r) out := by
  intro X
  obtain ⟨_, hblocks, h⟩ := (exceptBind_eq_ok_iff _ _ _).1 h
  cases h
  have hle : 128 * (A.length / 128) ≤ A.length := Nat.mul_div_le _ _
  have hdec := pfdReadBlocks_pfdBlocks hT (fun V => length_of_mem_chunks hle) hblocks X
  rw [chunks_length, flatten_chunks] at hdec
  have hcount : (A.take (128 * (A.length / 128))).length / 128 = A.length / 128 := by rw [List.length_take, Nat.min_eq_left hle]; omega
  simp only [floorTo_eq_mul_div, pfdDecompress, hcount, hdec, ok_bind, List.length_append, Nat.add_sub_cancel]
  rfl

/-- The first block of a stream, and the stream of the rest (R186). -/
theorem pfdCompress_layout {search : Search} {T : Layouts} (hT : IsSelectorTable T) {ovh : Word} {A out : List Word} {r : Nat}
    (h : pfdCompress search T ovh A = .ok (r, out)) :
    (A.length < 128 → out = []) ∧
      (128 ≤ A.length → ∃ (b : Nat) (x : List Word) (r' : Nat) (rest : List Word),
        pfdWidth search T ovh.toNat (A.take 128) = .ok b ∧ PfdBlockLayout T b (A.take 128) x ∧
        pfdCompress search T ovh (A.drop 128) = .ok (r', rest) ∧ out = x ++ rest) := by
  obtain ⟨_, hblocks, h⟩ := (exceptBind_eq_ok_iff _ _ _).1 h
  cases h
  refine ⟨fun hshort => ?_, fun hlong => ?_⟩
  · rw [Nat.div_eq_of_lt hshort] at hblocks
    cases hblocks
    rfl
  · have hsplit : A.length / 128 = (A.drop 128).length / 128 + 1 := by rw [List.length_drop]; omega
    rw [hsplit, chunks] at hblocks
    obtain ⟨x, hx, hblocks⟩ := (exceptBind_eq_ok_iff _ _ _).1 hblocks
    obtain ⟨rest, hrest, hblocks⟩ := (exceptBind_eq_ok_iff _ _ _).1 hblocks
    cases hblocks
    obtain ⟨b, xs, hwidth, hblock⟩ := exists_isPfdBlock hT ((List.length_take_le 128 A).trans (by decide)) hx
    exact ⟨b, x, _, rest, hwidth, hblock.layout, by rw [pfdCompress, hrest]; rfl, rfl⟩

theorem roundTrips_npfd9 : RoundTrips .npfd9 .npfd9 := fun _ _ _ _ _ _ => decodes_of_pfdCompress isSelectorTable_simple9

theorem roundTrips_opfd9 : RoundTrips .opfd9 .opfd9 := fun _ _ _ _ _ _ => decodes_of_pfdCompress isSelectorTable_simple9

theorem roundTrips_npfd16 : RoundTrips .npfd16 .npfd16 := fun _ _ _ _ _ _ => decodes_of_pfdCompress isSelectorTable_simple16

theorem roundTrips_opfd16 : RoundTrips .opfd16 .opfd16 := fun _ _ _ _ _ _ => decodes_of_pfdCompress isSelectorTable_simple16

/-- The two searches share their decoder, so either codec reads the other's streams (R187). -/
theorem roundTrips_patched {k k' : Codec} (h : (k, k') ∈ [(Codec.npfd9, Codec.npfd9), (.npfd9, .opfd9), (.opfd9, .npfd9), (.opfd9, .opfd9),
    (.npfd16, .npfd16), (.npfd16, .opfd16), (.opfd16, .npfd16), (.opfd16, .opfd16)]) : RoundTrips k k' := by
  simp only [List.mem_cons, Prod.mk.injEq, List.not_mem_nil, or_false] at h
  obtain ⟨rfl, rfl⟩ | ⟨rfl, rfl⟩ | ⟨rfl, rfl⟩ | ⟨rfl, rfl⟩ | ⟨rfl, rfl⟩ | ⟨rfl, rfl⟩ | ⟨rfl, rfl⟩ | ⟨rfl, rfl⟩ := h
  · exact roundTrips_npfd9
  · exact roundTrips_npfd9
  · exact roundTrips_opfd9
  · exact roundTrips_opfd9
  · exact roundTrips_npfd16
  · exact roundTrips_npfd16
  · exact roundTrips_opfd16
  · exact roundTrips_opfd16

/-- Settles O22: the round trip block by block, and the layout of the first block. -/
theorem patchedCodecRoundTrip : Obligations.PatchedCodecRoundTrip := by
  refine ⟨fun k k' page ovh A r out hk hA => (roundTrips_patched hk).forms page ovh r out hA, fun k search T page ovh A r out hk h => ?_⟩
  simp only [List.mem_cons, Prod.mk.injEq, List.not_mem_nil, or_false] at hk
  obtain ⟨rfl, rfl, rfl⟩ | ⟨rfl, rfl, rfl⟩ | ⟨rfl, rfl, rfl⟩ | ⟨rfl, rfl, rfl⟩ := hk
  · exact pfdCompress_layout isSelectorTable_simple9 h
  · exact pfdCompress_layout isSelectorTable_simple16 h
  · exact pfdCompress_layout isSelectorTable_simple9 h
  · exact pfdCompress_layout isSelectorTable_simple16 h

end Sys2Proof.Proofs
end

