-- ==== Sys2Proof/Proofs/FastPforParts.lean ====
section
/-! PROOF. The parts of a FastPFOR page (43_for_patched.md R171 to R173): what a block adds to the byte container, to the buckets and to the data words, how the buckets and
their bitmap are written, and that the decoder reads each part back. -/

namespace Sys2Proof.Proofs

open Sys2Proof.Machine

/-! ## The block sizes -/

/-- The two block sizes of FastPFOR. -/
def IsBlockSize (bs : Nat) : Prop := bs = 128 ∨ bs = 256

theorem IsBlockSize.facts {bs : Nat} (h : IsBlockSize bs) : 128 ≤ bs ∧ bs ≤ 256 ∧ 32 * (bs / 32) = bs := by
  obtain rfl | rfl := h <;> decide

/-! ## What a block adds -/

/-- The width of a block (R171). -/
def bestWidth (bs ovh : Nat) (V : List Word) : Nat := greedyWidth bs ovh 32 (widths V)

/-- The bucket of a block's exceptions (R171). -/
def bucketOf (bs ovh : Nat) (V : List Word) : Nat := maxWidth (widths V) - bestWidth bs ovh V

/-- The exceptions of a block at its width. -/
def bestExceptions (bs ovh : Nat) (V : List Word) : List (Nat × Word) := exceptions (bestWidth bs ovh V) V

section
variable (bs ovh : Nat) (V : List Word)

theorem isCandidate_bestWidth : IsCandidate bs 32 V (bestWidth bs ovh V) := isCandidate_greedyWidth bs ovh 32 V

/-- A block at its largest width has no exceptions, so the check of R171 leaves none out. -/
theorem ite_exceptions_eq : (if bestWidth bs ovh V < maxWidth (widths V) then exceptions (bestWidth bs ovh V) V else []) = bestExceptions bs ovh V := by
  split
  next => rfl
  next h =>
    have hcount : exceptionCount (widths V) (bestWidth bs ovh V) = 0 :=
      not_not.1 fun hne => h ((isCandidate_bestWidth bs ovh V).lt_of_exceptions hne)
    rw [bestExceptions, eq_comm, ← List.length_eq_zero_iff, length_exceptions, length_positionsAt, hcount]

theorem fpfBlock_data : (fpfBlock bs ovh V).data = packBlock (bestWidth bs ovh V) V := rfl

theorem fpfBlock_exc : (fpfBlock bs ovh V).exc = (bestExceptions bs ovh V).map fun e => (bucketOf bs ovh V, e.2) := by
  rw [← ite_exceptions_eq]
  rfl

theorem fpfBlock_bytes : (fpfBlock bs ovh V).bytes = (blockBytes (bestWidth bs ovh V) V).map (BitVec.ofNat 8) := by
  have hbytes : (fpfBlock bs ovh V).bytes = BitVec.ofNat 8 (bestWidth bs ovh V) :: BitVec.ofNat 8 (bestExceptions bs ovh V).length ::
      if (bestExceptions bs ovh V).length = 0 then []
      else BitVec.ofNat 8 (maxWidth (widths V)) :: (bestExceptions bs ovh V).map fun e => BitVec.ofNat 8 e.1 := by
    rw [← ite_exceptions_eq]
    rfl
  have hpos : (bestExceptions bs ovh V).map (fun e => BitVec.ofNat 8 e.1) = (positionsAt (bestWidth bs ovh V) V).map (BitVec.ofNat 8) := by
    rw [← map_fst_exceptions, List.map_map]
    rfl
  rw [hbytes, hpos, bestExceptions, length_exceptions, blockBytes, List.map_cons, List.map_cons]
  by_cases h : positionsAt (bestWidth bs ovh V) V = []
  · rw [if_pos h, if_pos (List.length_eq_zero_iff.2 h)]
    rfl
  · rw [if_neg h, if_neg (mt List.length_eq_zero_iff.1 h)]
    rfl

end

/-- Every number of the byte container goes into a byte. -/
theorem lt_of_mem_blockBytes {bs : Nat} (hbs : IsBlockSize bs) (ovh : Nat) {V : List Word} (hV : V.length = bs) {n : Nat}
    (hn : n ∈ blockBytes (bestWidth bs ovh V) V) : n < 256 := by
  obtain ⟨hlo, hhi, -⟩ := hbs.facts
  have hb := (isCandidate_bestWidth bs ovh V).le_wordSize
  have he := (isCandidate_bestWidth bs ovh V).exceptionCount_lt (by omega)
  have hm := maxWidth_widths_le V
  rw [← length_positionsAt] at he
  rw [blockBytes, List.mem_cons, List.mem_cons, List.mem_ite_nil_left, List.mem_cons] at hn
  obtain rfl | rfl | ⟨-, rfl | hpos⟩ := hn
  · omega
  · omega
  · omega
  · rw [← map_fst_exceptions, List.mem_map] at hpos
    obtain ⟨e, he', rfl⟩ := hpos
    have hlt := exceptions_position_lt he'
    omega

/-- The high bits of a block's exceptions go into its bucket's width (R171). -/
theorem lt_of_mem_fpfBlock_exc {bs ovh : Nat} {V : List Word} {e : Nat × Word} (he : e ∈ (fpfBlock bs ovh V).exc) :
    e.1 = bucketOf bs ovh V ∧ 1 ≤ e.1 ∧ e.1 ≤ 32 ∧ e.2.toNat < 2 ^ e.1 := by
  have hcand := isCandidate_bestWidth bs ovh V
  have hm := maxWidth_widths_le V
  rw [fpfBlock_exc, List.mem_map] at he
  obtain ⟨x, hx, rfl⟩ := he
  have hcount : exceptionCount (widths V) (bestWidth bs ovh V) ≠ 0 := by
    rw [← length_positionsAt, ← length_exceptions]
    exact Nat.pos_iff_ne_zero.1 (List.length_pos_of_mem hx)
  have hlt := hcand.lt_of_exceptions hcount
  obtain ⟨-, v, hv, heq⟩ := mem_exceptionsFrom hx
  have hfit : v.toNat < 2 ^ maxWidth (widths V) := (bitlen_le_iff v _).1 (le_maxWidth (List.mem_map_of_mem hv))
  refine ⟨rfl, by simp only [bucketOf]; omega, by simp only [bucketOf]; omega, ?_⟩
  rw [heq, BitVec.toNat_ushiftRight, Nat.shiftRight_eq_div_pow, bucketOf]
  refine Nat.div_lt_of_lt_mul ?_
  rwa [← pow_add, Nat.add_sub_cancel' hlt.le]

theorem length_fpfBlock_exc_lt {bs : Nat} (hbs : IsBlockSize bs) (ovh : Nat) (V : List Word) : (fpfBlock bs ovh V).exc.length < bs := by
  rw [fpfBlock_exc, List.length_map, bestExceptions, length_exceptions, length_positionsAt]
  exact (isCandidate_bestWidth bs ovh V).exceptionCount_lt (by have := hbs.facts; omega)

theorem length_fpfBlock_data {bs : Nat} (ovh : Nat) {V : List Word} (hV : V.length = bs) :
    (fpfBlock bs ovh V).data.length = bs / 32 * bestWidth bs ovh V := by
  rw [fpfBlock_data, length_packBlock, hV]

theorem length_fpfBlock_data_le {bs : Nat} (hbs : IsBlockSize bs) (ovh : Nat) {V : List Word} (hV : V.length = bs) :
    (fpfBlock bs ovh V).data.length ≤ bs := by
  obtain ⟨-, -, hdiv⟩ := hbs.facts
  have hb := (isCandidate_bestWidth bs ovh V).le_wordSize
  rw [length_fpfBlock_data ovh hV]
  calc bs / 32 * bestWidth bs ovh V ≤ bs / 32 * 32 := Nat.mul_le_mul_left _ hb
    _ = bs := by omega

theorem length_fpfBlock_bytes_le {bs : Nat} (hbs : IsBlockSize bs) (ovh : Nat) (V : List Word) :
    (fpfBlock bs ovh V).bytes.length ≤ bs + 2 := by
  have he := (isCandidate_bestWidth bs ovh V).exceptionCount_lt (by have := hbs.facts; omega : 0 < bs)
  rw [← length_positionsAt] at he
  rw [fpfBlock_bytes, List.length_map, blockBytes, List.length_cons, List.length_cons]
  split
  · simp
  · rw [List.length_cons]
    omega

/-! ## Buckets -/

theorem bucket_append (exc exc' : List (Nat × Word)) (k : Nat) : bucket (exc ++ exc') k = bucket exc k ++ bucket exc' k := by
  rw [bucket, List.filter_append, List.map_append]
  rfl

theorem bucket_flatMap {α : Type} (f : α → List (Nat × Word)) (l : List α) (k : Nat) :
    bucket (l.flatMap f) k = l.flatMap fun a => bucket (f a) k := by
  induction l with
  | nil => rfl
  | cons a l ih => rw [List.flatMap_cons, bucket_append, ih, List.flatMap_cons]

theorem length_bucket_le (exc : List (Nat × Word)) (k : Nat) : (bucket exc k).length ≤ exc.length := by
  rw [bucket, List.length_map]
  exact List.length_filter_le _ _

theorem mem_bucket {exc : List (Nat × Word)} {k : Nat} {v : Word} (h : v ∈ bucket exc k) : (k, v) ∈ exc := by
  rw [bucket, List.mem_map] at h
  obtain ⟨⟨j, w⟩, hmem, rfl⟩ := h
  obtain ⟨hexc, hj⟩ := List.mem_filter.1 hmem
  obtain rfl : j = k := by simpa using hj
  exact hexc

/-- Exceptions of one bucket. -/
theorem bucket_map_const (k j : Nat) (exc : List (Nat × Word)) :
    bucket (exc.map fun e => (k, e.2)) j = if k = j then exc.map Prod.snd else [] := by
  by_cases h : k = j
  · subst h
    simp [bucket, List.filter_map, Function.comp_def]
  · simp [bucket, List.filter_map, Function.comp_def, h]

/-- The buckets from `k` on, `n` of them (R173). -/
def bucketsFrom (exc : List (Nat × Word)) (k n : Nat) : List (List Word) := (List.range n).map fun j => bucket exc (k + j)

theorem bucketsFrom_succ (exc : List (Nat × Word)) (k n : Nat) : bucketsFrom exc k (n + 1) = bucket exc k :: bucketsFrom exc (k + 1) n := by
  rw [bucketsFrom, List.range_succ_eq_map, List.map_cons, List.map_map]
  refine congrArg _ (List.map_congr_left fun j _ => ?_)
  rw [Function.comp_apply, Nat.succ_eq_add_one, Nat.add_right_comm, Nat.add_assoc]

theorem bucketsFrom_getElem? (exc : List (Nat × Word)) {k n j : Nat} (hj : j < n) : (bucketsFrom exc k n)[j]? = some (bucket exc (k + j)) := by
  rw [bucketsFrom, List.getElem?_map, List.getElem?_range hj]
  rfl

/-- Behind a block whose exceptions are in bucket `k`, that bucket alone is shorter. -/
theorem bucketsFrom_set {exc exc' : List (Nat × Word)} {k : Nat} (hk : 1 ≤ k) (hexc : ∀ e ∈ exc, e.1 = k) :
    (bucketsFrom (exc ++ exc') 1 32).set (k - 1) (bucket exc' k) = bucketsFrom exc' 1 32 := by
  refine List.ext_getElem? fun j => ?_
  rw [List.getElem?_set]
  by_cases hj : j < 32
  · have hlen : k - 1 < (bucketsFrom (exc ++ exc') 1 32).length ↔ k - 1 < 32 := by simp [bucketsFrom]
    rw [bucketsFrom_getElem? _ hj, bucketsFrom_getElem? _ hj]
    by_cases hkj : k - 1 = j
    · rw [if_pos hkj, if_pos (hlen.2 (hkj ▸ hj)), show 1 + j = k by omega]
    · have hnone : bucket exc (1 + j) = [] := by
        rw [List.eq_nil_iff_forall_not_mem]
        intro v hv
        have hkey : 1 + j = k := hexc _ (mem_bucket hv)
        omega
      rw [if_neg hkj, bucket_append, hnone, List.nil_append]
  · have hout (exc : List (Nat × Word)) : (bucketsFrom exc 1 32)[j]? = none := by
      rw [List.getElem?_eq_none_iff]
      simpa [bucketsFrom] using Nat.not_lt.1 hj
    rw [hout, hout]
    split
    next h => rw [if_neg (by simp [bucketsFrom]; omega)]
    next => rfl

/-! ## Packing a bucket -/

/-- A list is filled with zeros to whole groups. -/
def fillGroups (vs : List Word) : List Word := vs ++ List.replicate (32 * ceil32 vs.length - vs.length) 0

theorem length_fillGroups (vs : List Word) : (fillGroups vs).length = 32 * ceil32 vs.length := by
  have hle : vs.length ≤ 32 * ceil32 vs.length := by rw [ceil32]; omega
  rw [fillGroups, List.length_append, List.length_replicate]
  omega

theorem take_fillGroups (vs : List Word) : (fillGroups vs).take vs.length = vs := List.take_left

theorem packBucket_eq (k : Nat) (vs : List Word) : packBucket k vs = (chunks 32 (ceil32 vs.length) (fillGroups vs)).flatMap (pack k) := rfl

/-- A packed bucket comes back filled to whole groups, as its values go into its width. -/
theorem unpackBlocks_packBucket {k : Nat} {vs : List Word} (hfit : ∀ v ∈ vs, v.toNat < 2 ^ k) (X : List Word) :
    unpackBlocks k (ceil32 vs.length) (packBucket k vs ++ X) = .ok (fillGroups vs, X) := by
  have hlen := length_fillGroups vs
  have h := unpackBlocks_flatMap_pack k (fun B => length_of_mem_chunks (size := 32) (k := ceil32 vs.length) (A := fillGroups vs) hlen.ge) X
  rw [chunks_length, flatten_chunks, ← hlen, List.take_length] at h
  have htrunc : (fillGroups vs).map (truncate k) = fillGroups vs := by
    refine (List.map_congr_left fun v hv => truncate_eq_self_of_lt ?_).trans (List.map_id' _)
    obtain hv | hv := List.mem_append.1 hv
    · exact hfit v hv
    · rw [List.eq_of_mem_replicate hv]
      exact Nat.two_pow_pos k
  rw [packBucket_eq, h, htrunc]

theorem getD_fillGroups (vs : List Word) (i : Nat) : (fillGroups vs).getD i 0 = vs.getD i 0 := by
  rw [fillGroups, List.getD_eq_getElem?_getD, List.getD_eq_getElem?_getD, List.getElem?_append]
  split
  next => rfl
  next h =>
    rw [List.getElem?_eq_none (Nat.not_lt.1 h), List.getElem?_replicate]
    split <;> rfl

/-- A group of a list, word by word. -/
theorem take_drop_eq_map_getD {A : List Word} {i n : Nat} (h : i + n ≤ A.length) : (A.drop i).take n = (List.range n).map fun l => A.getD (i + l) 0 := by
  refine List.ext_getElem (by rw [List.length_take, List.length_drop, List.length_map, List.length_range]; omega) fun l h1 h2 => ?_
  rw [List.length_map, List.length_range] at h2
  rw [List.getElem_take, List.getElem_drop, List.getElem_map, List.getElem_range, List.getD_eq_getElem?_getD,
    List.getElem?_eq_getElem (by omega), Option.getD_some]

/-- A bucket's words are the layout table's (R172). -/
theorem bucketStream_eq (k : Nat) (vs : List Word) : bucketStream k vs = BitVec.ofNat 32 vs.length :: packBucket k vs := by
  rw [bucketStream, packBucket_eq, chunks_eq_map, List.flatMap_map]
  refine congrArg _ (List.flatMap_congr fun g hg => congrArg _ ?_)
  have hg' : g < ceil32 vs.length := List.mem_range.1 hg
  have hlen := length_fillGroups vs
  rw [take_drop_eq_map_getD (by omega)]
  exact List.map_congr_left fun l _ => (getD_fillGroups vs _).symm

/-! ## The bitmap -/

/-- A sum of distinct powers of two, by its bits. -/
theorem sum_two_pow_bits (p : Nat → Bool) (n : Nat) :
    ((List.range n).map fun j => if p j then 0 else 2 ^ j).sum < 2 ^ n ∧
      ∀ j, j < n → (((List.range n).map fun j => if p j then 0 else 2 ^ j).sum).testBit j = !p j := by
  induction n with
  | zero => exact ⟨Nat.one_pos, fun j hj => absurd hj j.not_lt_zero⟩
  | succ n ih =>
    obtain ⟨hlt, hbits⟩ := ih
    rw [List.sum_range_succ]
    generalize ((List.range n).map fun j => if p j then 0 else 2 ^ j).sum = S at hlt hbits
    have htop : S.testBit n = false := Nat.testBit_lt_two_pow hlt
    cases hp : p n with
    | true =>
      rw [if_pos rfl, Nat.add_zero]
      refine ⟨hlt.trans (Nat.pow_lt_pow_succ (by decide)), fun j hj => ?_⟩
      obtain rfl | hj := Nat.eq_or_lt_of_le (Nat.le_of_lt_succ hj)
      · rw [htop, hp]; rfl
      · exact hbits j hj
    | false =>
      rw [if_neg Bool.false_ne_true, Nat.add_comm]
      refine ⟨by rw [pow_succ]; omega, fun j hj => ?_⟩
      obtain rfl | hj := Nat.eq_or_lt_of_le (Nat.le_of_lt_succ hj)
      · rw [Nat.testBit_two_pow_add_eq, htop, hp]
      · rw [Nat.testBit_two_pow_add_gt hj]
        exact hbits j hj

theorem bitmapOf_lt (exc : List (Nat × Word)) : bitmapOf exc < 2 ^ 32 := (sum_two_pow_bits (fun j => (bucket exc (j + 1)).isEmpty) 32).1

theorem testBit_bitmapOf (exc : List (Nat × Word)) {k : Nat} (h1 : 1 ≤ k) (h32 : k ≤ 32) :
    (bitmapOf exc).testBit (k - 1) = !(bucket exc k).isEmpty := by
  have h := (sum_two_pow_bits (fun j => (bucket exc (j + 1)).isEmpty) 32).2 (k - 1) (by omega)
  rwa [Nat.sub_add_cancel h1] at h

theorem bitmapOf_bit_eq_zero_iff (exc : List (Nat × Word)) {k : Nat} (h1 : 1 ≤ k) (h32 : k ≤ 32) :
    bitmapOf exc / 2 ^ (k - 1) % 2 = 0 ↔ bucket exc k = [] := by
  have h := testBit_bitmapOf exc h1 h32
  rw [Nat.testBit_eq_decide_div_mod_eq] at h
  have hlt := Nat.mod_lt (bitmapOf exc / 2 ^ (k - 1)) (by decide : 2 > 0)
  cases hb : bucket exc k with
  | nil =>
    have hne : bitmapOf exc / 2 ^ (k - 1) % 2 ≠ 1 := by simpa [hb] using h
    simpa using by omega
  | cons v vs =>
    have heq : bitmapOf exc / 2 ^ (k - 1) % 2 = 1 := by simpa [hb] using h
    simp [heq]

/-! ## Reading the buckets -/

/-- The words of one bucket (R172). -/
def bucketCode (k : Nat) (vs : List Word) : List Word := if vs.isEmpty then [] else BitVec.ofNat 32 vs.length :: packBucket k vs

/-- The words of the buckets from `k` on, `n` of them. -/
def bucketCodes (exc : List (Nat × Word)) (k n : Nat) : List Word := (List.range n).flatMap fun j => bucketCode (k + j) (bucket exc (k + j))

theorem bucketCodes_succ (exc : List (Nat × Word)) (k n : Nat) :
    bucketCodes exc k (n + 1) = bucketCode k (bucket exc k) ++ bucketCodes exc (k + 1) n := by
  rw [bucketCodes, List.range_succ_eq_map, List.flatMap_cons, List.flatMap_map]
  refine congrArg _ (List.flatMap_congr fun j _ => ?_)
  rw [Nat.succ_eq_add_one, Nat.add_right_comm, Nat.add_assoc]

theorem bucketWords_eq (exc : List (Nat × Word)) : bucketWords exc = bucketCodes exc 1 32 := by
  rw [bucketWords, bucketCodes]
  refine List.flatMap_congr fun j _ => ?_
  rw [Nat.add_comm 1 j]
  rfl

/-- Bucket by bucket: an absent bucket is empty, a present one is its count and its values. -/
theorem readBuckets_bucketCodes {exc : List (Nat × Word)} (hcount : exc.length < 2 ^ 32) (hfit : ∀ e ∈ exc, e.2.toNat < 2 ^ e.1) {k n : Nat}
    (hk : 1 ≤ k) (hn : k + n ≤ 33) (X : List Word) :
    readBuckets (bitmapOf exc) n k (bucketCodes exc k n ++ X) = .ok (bucketsFrom exc k n, X) := by
  induction n generalizing k with
  | zero => rfl
  | succ n ih =>
    have hrest := ih (k := k + 1) (by omega) (by omega)
    have hbit := bitmapOf_bit_eq_zero_iff exc hk (by omega)
    rw [bucketCodes_succ, bucketsFrom_succ, List.append_assoc, readBuckets]
    by_cases hnil : bucket exc k = []
    · rw [if_pos (hbit.2 hnil), hnil, bucketCode, if_pos (by rfl), List.nil_append, hrest]
      rfl
    · have hempty : ¬ (bucket exc k).isEmpty = true := by simpa using hnil
      have hlen : (BitVec.ofNat 32 (bucket exc k).length).toNat = (bucket exc k).length :=
        (BitVec.toNat_ofNat _ _).trans (Nat.mod_eq_of_lt ((length_bucket_le exc k).trans_lt hcount))
      have hne : ¬ (bucket exc k).length = 0 := mt List.length_eq_zero_iff.1 hnil
      have hvals : ∀ v ∈ bucket exc k, v.toNat < 2 ^ k := fun v hv => hfit _ (mem_bucket hv)
      rw [if_neg (mt hbit.1 hnil), bucketCode, if_neg hempty, List.cons_append, getWord_cons]
      simp only [ok_bind, hlen, if_neg hne, unpackBlocks_packBucket hvals, hrest, take_fillGroups]
      rfl

end Sys2Proof.Proofs
end

