-- ==== Sys2Proof/Proofs/FastPforPages.lean ====
section
/-! PROOF. FastPFOR's pages (43_for_patched.md R170 to R173): the decoder takes a page stream and restores the page, block by block, each block taking its values from the front
of its bucket; and a page stream is the layout table's. -/

namespace Sys2Proof.Proofs

open Sys2Proof.Machine

/-! ## Decoding a block -/

/-- The patch loop takes the values of the exceptions from the front of their bucket (R173). -/
theorem patchBlock_exceptions {bs b k : Nat} (hbs : bs ≤ 256) {exc : List (Nat × Word)} (hpos : ∀ e ∈ exc, e.1 < bs) (U : List Word)
    {ex : List (List Word)} {hs : List Word} (hex : ex[k - 1]? = some (exc.map Prod.snd ++ hs)) :
    patchBlock bs b k (exc.map fun e => BitVec.ofNat 8 e.1) U ex = .ok (patchAll b U exc, ex.set (k - 1) hs) := by
  induction exc generalizing U ex with
  | nil =>
    obtain ⟨hk, heq⟩ := List.getElem?_eq_some_iff.1 hex
    rw [List.map_nil, List.nil_append] at heq
    rw [← heq, List.set_getElem_self]
    rfl
  | cons e exc ih =>
    obtain ⟨he, hrest⟩ := List.forall_mem_cons.1 hpos
    obtain ⟨hk, -⟩ := List.getElem?_eq_some_iff.1 hex
    have hbyte : (BitVec.ofNat 8 e.1).toNat = e.1 := (BitVec.toNat_ofNat _ _).trans (Nat.mod_eq_of_lt (by omega))
    rw [List.map_cons, patchBlock, hbyte, if_neg (Nat.not_le.2 he), hex, Option.getD_some, List.map_cons, List.cons_append]
    simp only
    rw [ih hrest _ (List.getElem?_set_self hk), List.set_set]
    rfl

/-- `maxB` and the positions, when there are exceptions (R171, R173). -/
theorem readExceptions_blockBytes (bs ovh : Nat) (V : List Word) (rest : List Byte) :
    ∃ m, readExceptions (bestWidth bs ovh V) (positionsAt (bestWidth bs ovh V) V).length
        ((if positionsAt (bestWidth bs ovh V) V = [] then [] else maxWidth (widths V) :: positionsAt (bestWidth bs ovh V) V).map (BitVec.ofNat 8) ++ rest) =
        .ok (m, (bestExceptions bs ovh V).map (fun e => BitVec.ofNat 8 e.1), rest) ∧
      (bestExceptions bs ovh V ≠ [] → m - bestWidth bs ovh V = bucketOf bs ovh V) := by
  have hcand := isCandidate_bestWidth bs ovh V
  have hm := maxWidth_widths_le V
  have hb := hcand.le_wordSize
  have hpos : (bestExceptions bs ovh V).map (fun e => BitVec.ofNat 8 e.1) = (positionsAt (bestWidth bs ovh V) V).map (BitVec.ofNat 8) := by
    rw [← map_fst_exceptions, List.map_map]
    rfl
  have hnil : bestExceptions bs ovh V = [] ↔ positionsAt (bestWidth bs ovh V) V = [] := by
    rw [← List.length_eq_zero_iff, bestExceptions, length_exceptions, List.length_eq_zero_iff]
  rw [hpos]
  by_cases h : positionsAt (bestWidth bs ovh V) V = []
  · rw [if_pos h, h]
    refine ⟨bestWidth bs ovh V, readExceptions_good (mb := BitVec.ofNat 8 (bestWidth bs ovh V)) ?_ (.inl ⟨rfl, rfl, rfl, rfl⟩),
      fun hne => absurd (hnil.2 h) hne⟩
    rw [BitVec.toNat_ofNat]
    omega
  · have hcount : exceptionCount (widths V) (bestWidth bs ovh V) ≠ 0 := by
      rw [← length_positionsAt]
      exact mt List.length_eq_zero_iff.1 h
    rw [if_neg h, List.map_cons, List.cons_append]
    refine ⟨maxWidth (widths V), readExceptions_good (mb := BitVec.ofNat 8 (maxWidth (widths V))) ?_ (.inr ⟨mt List.length_eq_zero_iff.1 h, rfl, ?_,
      hcand.lt_of_exceptions hcount, hm⟩), fun _ => rfl⟩
    · rw [BitVec.toNat_ofNat]
      omega
    · rw [List.length_map]

section
variable {bs : Nat} (hbs : IsBlockSize bs) (ovh : Nat)
include hbs

/-- The values of a block's exceptions stand at the front of their bucket. -/
theorem patchBlock_bestExceptions {V : List Word} (hV : V.length = bs) (exc : List (Nat × Word)) {m : Nat}
    (hm : bestExceptions bs ovh V ≠ [] → m - bestWidth bs ovh V = bucketOf bs ovh V) :
    patchBlock bs (bestWidth bs ovh V) (m - bestWidth bs ovh V) ((bestExceptions bs ovh V).map fun e => BitVec.ofNat 8 e.1)
      (V.map (truncate (bestWidth bs ovh V))) (bucketsFrom ((fpfBlock bs ovh V).exc ++ exc) 1 32) = .ok (V, bucketsFrom exc 1 32) := by
  by_cases hnil : bestExceptions bs ovh V = []
  · have hrestore := patchAll_exceptions (bestWidth bs ovh V) V
    rw [← bestExceptions, hnil] at hrestore
    rw [fpfBlock_exc, hnil]
    exact congrArg (fun U => Except.ok (U, bucketsFrom exc 1 32)) hrestore
  · obtain ⟨e, he⟩ := List.exists_mem_of_ne_nil _ hnil
    have hmem : (bucketOf bs ovh V, e.2) ∈ (fpfBlock bs ovh V).exc := by
      rw [fpfBlock_exc]
      exact List.mem_map_of_mem (f := fun e => (bucketOf bs ovh V, e.2)) he
    obtain ⟨-, h1, h32, -⟩ := lt_of_mem_fpfBlock_exc hmem
    obtain ⟨-, hhi, -⟩ := hbs.facts
    have hbucket : (bucketsFrom ((fpfBlock bs ovh V).exc ++ exc) 1 32)[bucketOf bs ovh V - 1]? =
        some ((bestExceptions bs ovh V).map Prod.snd ++ bucket exc (bucketOf bs ovh V)) := by
      rw [bucketsFrom_getElem? _ (by omega), Nat.add_sub_cancel' h1, bucket_append, fpfBlock_exc, bucket_map_const, if_pos rfl]
    rw [hm hnil, patchBlock_exceptions (exc := bestExceptions bs ovh V) hhi (fun e he => hV ▸ exceptions_position_lt he) _ hbucket,
      bucketsFrom_set h1 fun e he => (lt_of_mem_fpfBlock_exc he).1]
    exact congrArg (fun U => Except.ok (U, bucketsFrom exc 1 32)) (patchAll_exceptions _ V)

/-- One block, and then the rest of the blocks. -/
theorem fpfBlocks_succ {V : List Word} (hV : V.length = bs) (k : Nat) (bytes : List Byte) (exc : List (Nat × Word)) (limit : Nat) (Y : List Word) :
    fpfBlocks bs (k + 1) ((fpfBlock bs ovh V).bytes ++ bytes) (bucketsFrom ((fpfBlock bs ovh V).exc ++ exc) 1 32)
      ((fpfBlock bs ovh V).data.length + limit) ((fpfBlock bs ovh V).data ++ Y) =
      (fpfBlocks bs k bytes (bucketsFrom exc 1 32) limit Y).map (V ++ ·) := by
  obtain ⟨hlo, hhi, hdiv⟩ := hbs.facts
  have hcand := isCandidate_bestWidth bs ovh V
  have hb := hcand.le_wordSize
  have he := hcand.exceptionCount_lt (by omega)
  rw [← length_positionsAt] at he
  obtain ⟨m, hread, hbucket⟩ := readExceptions_blockBytes bs ovh V bytes
  have hbyte : (BitVec.ofNat 8 (bestWidth bs ovh V)).toNat = bestWidth bs ovh V := (BitVec.toNat_ofNat _ _).trans (Nat.mod_eq_of_lt (by omega))
  have hcount : (BitVec.ofNat 8 (positionsAt (bestWidth bs ovh V) V).length).toNat = (positionsAt (bestWidth bs ovh V) V).length :=
    (BitVec.toNat_ofNat _ _).trans (Nat.mod_eq_of_lt (by omega))
  have hunpack := unpackBlocks_packBlock (bestWidth bs ovh V) (k := bs / 32) (V := V) (by omega) Y
  rw [fpfBlock_bytes, blockBytes, List.map_cons, List.map_cons, List.cons_append, List.cons_append, fpfBlocks, length_fpfBlock_data ovh hV,
    fpfBlock_data]
  simp only [nextByte, ok_bind, hbyte, hcount, Nat.not_lt.2 hb, if_false, hread, Nat.not_lt.2 (Nat.le_add_right _ limit), hunpack,
    patchBlock_bestExceptions hbs ovh hV exc hbucket, Nat.add_sub_cancel_left]
  cases fpfBlocks bs k bytes (bucketsFrom exc 1 32) limit Y <;> rfl

/-- All the blocks of a page (R173). -/
theorem fpfBlocks_blocks {Vs : List (List Word)} (hVs : ∀ V ∈ Vs, V.length = bs) (Y : List Word) :
    fpfBlocks bs Vs.length (Vs.flatMap fun V => (fpfBlock bs ovh V).bytes) (bucketsFrom (Vs.flatMap fun V => (fpfBlock bs ovh V).exc) 1 32)
      (Vs.flatMap fun V => (fpfBlock bs ovh V).data).length ((Vs.flatMap fun V => (fpfBlock bs ovh V).data) ++ Y) = .ok Vs.flatten := by
  induction Vs with
  | nil => rfl
  | cons V Vs ih =>
    obtain ⟨hV, hVs⟩ := List.forall_mem_cons.1 hVs
    simp only [List.flatMap_cons, List.length_append, List.append_assoc, List.length_cons, fpfBlocks_succ hbs ovh hV, ih hVs]
    rfl

end

/-! ## Decoding a page -/

theorem length_flatMap_le {α β : Type} {f : α → List β} {l : List α} {c : Nat} (h : ∀ a ∈ l, (f a).length ≤ c) : (l.flatMap f).length ≤ l.length * c := by
  induction l with
  | nil => exact Nat.zero_le _
  | cons a l ih =>
    obtain ⟨ha, hl⟩ := List.forall_mem_cons.1 h
    have := ih hl
    rw [List.flatMap_cons, List.length_append, List.length_cons, Nat.succ_mul]
    omega

/-- The parts of a page: the blocks' bytes, exceptions and data words, in order. -/
def pageBytes (bs ovh : Nat) (Vs : List (List Word)) : List Byte := Vs.flatMap fun V => (fpfBlock bs ovh V).bytes

def pageExc (bs ovh : Nat) (Vs : List (List Word)) : List (Nat × Word) := Vs.flatMap fun V => (fpfBlock bs ovh V).exc

def pageData (bs ovh : Nat) (Vs : List (List Word)) : List Word := Vs.flatMap fun V => (fpfBlock bs ovh V).data

/-- A page stream from its parts. -/
def pageStream (bs ovh : Nat) (Vs : List (List Word)) : List Word :=
  BitVec.ofNat 32 (1 + (pageData bs ovh Vs).length) :: (pageData bs ovh Vs ++ BitVec.ofNat 32 (pageBytes bs ovh Vs).length ::
    (wordsOfBytes (pageBytes bs ovh Vs) ++ BitVec.ofNat 32 (bitmapOf (pageExc bs ovh Vs)) :: bucketWords (pageExc bs ovh Vs)))

theorem fpfPage_eq (bs ovh : Nat) (P : List Word) : fpfPage bs ovh P = pageStream bs ovh (chunks bs (P.length / bs) P) := by
  simp only [fpfPage, List.flatMap_map, List.append_assoc, List.cons_append]
  rfl

/-- The counts of a page's parts go into their words. -/
structure CountsFit (bs ovh : Nat) (Vs : List (List Word)) : Prop where
  data : (pageData bs ovh Vs).length + 1 < 2 ^ 32
  bytes : (pageBytes bs ovh Vs).length < 2 ^ 32
  exc : (pageExc bs ovh Vs).length < 2 ^ 32

section
variable {bs : Nat} (hbs : IsBlockSize bs) (ovh : Nat)
include hbs

/-- A word of a page costs at most a data word, a byte and an exception, and a block two bytes more. -/
theorem countsFit_chunks {P : List Word} (hP : P.length ≤ 2 ^ 31) : CountsFit bs ovh (chunks bs (P.length / bs) P) := by
  obtain ⟨hlo, hhi, -⟩ := hbs.facts
  have hcover : P.length / bs * bs ≤ P.length := Nat.div_mul_le_self _ _
  have hcount : P.length / bs ≤ P.length / 128 := Nat.div_le_div_left hlo (by decide)
  have hblock : ∀ V ∈ chunks bs (P.length / bs) P, V.length = bs := fun V => length_of_mem_chunks (by rwa [Nat.mul_comm])
  have hdata := length_flatMap_le (f := fun V => (fpfBlock bs ovh V).data) fun V hV => length_fpfBlock_data_le hbs ovh (hblock V hV)
  have hbytes := length_flatMap_le (f := fun V => (fpfBlock bs ovh V).bytes) (l := chunks bs (P.length / bs) P)
    fun V _ => length_fpfBlock_bytes_le hbs ovh V
  have hexc := length_flatMap_le (f := fun V => (fpfBlock bs ovh V).exc) (l := chunks bs (P.length / bs) P)
    fun V _ => (length_fpfBlock_exc_lt hbs ovh V).le
  rw [chunks_length] at hdata hbytes hexc
  rw [Nat.mul_add] at hbytes
  exact ⟨by rw [pageData]; omega, by rw [pageBytes]; omega, by rw [pageExc]; omega⟩

/-- The decoder takes the parts of a page one after another and gives its blocks. -/
theorem fpfReadPage_pageStream {Vs : List (List Word)} (hVs : ∀ V ∈ Vs, V.length = bs) (hfits : CountsFit bs ovh Vs) {pn : Nat}
    (hpn : pn / bs = Vs.length) (X : List Word) : fpfReadPage bs pn (pageStream bs ovh Vs ++ X) = .ok (Vs.flatten, X) := by
  obtain ⟨hdata, hbytes, hexc⟩ := hfits
  have hoff : (BitVec.ofNat 32 (1 + (pageData bs ovh Vs).length)).toNat = 1 + (pageData bs ovh Vs).length :=
    (BitVec.toNat_ofNat _ _).trans (Nat.mod_eq_of_lt (by omega))
  have hcount : (BitVec.ofNat 32 (pageBytes bs ovh Vs).length).toNat = (pageBytes bs ovh Vs).length :=
    (BitVec.toNat_ofNat _ _).trans (Nat.mod_eq_of_lt hbytes)
  have hbits : (BitVec.ofNat 32 (bitmapOf (pageExc bs ovh Vs))).toNat = bitmapOf (pageExc bs ovh Vs) :=
    (BitVec.toNat_ofNat _ _).trans (Nat.mod_eq_of_lt (bitmapOf_lt _))
  have htake (H : Word) (Y : List Word) :
      takeWords (1 + (pageData bs ovh Vs).length) (H :: (pageData bs ovh Vs ++ Y)) = .ok (H :: pageData bs ovh Vs, Y) := by
    have h := takeWords_append (H :: pageData bs ovh Vs) Y
    rwa [List.length_cons, Nat.add_comm, List.cons_append] at h
  have hcontainer (Y : List Word) : takeWords (ceil4 (pageBytes bs ovh Vs).length) (wordsOfBytes (pageBytes bs ovh Vs) ++ Y) =
      .ok (wordsOfBytes (pageBytes bs ovh Vs), Y) := by
    rw [← length_wordsOfBytes]
    exact takeWords_append _ _
  have hbc : (bytesOfWords (wordsOfBytes (pageBytes bs ovh Vs))).take (pageBytes bs ovh Vs).length = pageBytes bs ovh Vs := by
    obtain ⟨Z, hZ⟩ := exists_bytesOfWords_wordsOfBytes (pageBytes bs ovh Vs)
    rw [hZ, List.take_left]
  have hfit : ∀ e ∈ pageExc bs ovh Vs, e.2.toNat < 2 ^ e.1 := by
    intro e he
    obtain ⟨V, -, heV⟩ := List.mem_flatMap.1 he
    obtain ⟨-, -, -, hlt⟩ := lt_of_mem_fpfBlock_exc heV
    exact hlt
  have hbuckets := readBuckets_bucketCodes hexc hfit (k := 1) (n := 32) le_rfl le_rfl X
  rw [← bucketWords_eq] at hbuckets
  have hone : ¬ 1 + (pageData bs ovh Vs).length < 1 := by omega
  have hblocks (Y : List Word) : fpfBlocks bs Vs.length (pageBytes bs ovh Vs) (bucketsFrom (pageExc bs ovh Vs) 1 32) (pageData bs ovh Vs).length
      (pageData bs ovh Vs ++ Y) = .ok Vs.flatten := fpfBlocks_blocks hbs ovh hVs Y
  simp only [fpfReadPage, pageStream, hpn, List.cons_append, List.append_assoc, getWord_cons, ok_bind, hoff, hone, if_false, htake, hcount,
    hcontainer, hbc, hbits, hbuckets, Nat.add_sub_cancel_left, hblocks]
  rfl

/-- The decoder takes a page stream and gives the page. -/
theorem fpfReadPage_fpfPage {P : List Word} (hP : P.length ≤ 2 ^ 31) (hdvd : P.length % bs = 0) (X : List Word) :
    fpfReadPage bs P.length (fpfPage bs ovh P ++ X) = .ok (P, X) := by
  have hcover : bs * (P.length / bs) = P.length := Nat.mul_div_cancel' (Nat.dvd_of_mod_eq_zero hdvd)
  rw [fpfPage_eq, fpfReadPage_pageStream hbs ovh (fun V => length_of_mem_chunks hcover.le) (countsFit_chunks hbs ovh hP) (chunks_length _ _ _).symm,
    flatten_chunks, hcover, List.take_length]

end

/-! ## The layout of a page -/

theorem bucketAt_eq (bs ovh : Nat) (Vs : List (List Word)) (k : Nat) :
    (Vs.flatMap fun V => if maxWidth (widths V) - greedyWidth bs ovh 32 (widths V) = k then highBitsAt (greedyWidth bs ovh 32 (widths V)) V else []) =
      bucket (pageExc bs ovh Vs) k := by
  rw [pageExc, bucket_flatMap]
  refine List.flatMap_congr fun V _ => ?_
  rw [fpfBlock_exc, bucket_map_const, bestExceptions, map_snd_exceptions]
  rfl

theorem pageBytes_eq (bs ovh : Nat) (Vs : List (List Word)) :
    pageBytes bs ovh Vs = (Vs.flatMap fun V => blockBytes (greedyWidth bs ovh 32 (widths V)) V).map (BitVec.ofNat 8) := by
  rw [pageBytes, List.map_flatMap]
  exact List.flatMap_congr fun V _ => fpfBlock_bytes bs ovh V

theorem pageData_eq (bs ovh : Nat) (Vs : List (List Word)) :
    pageData bs ovh Vs = Vs.flatMap fun V => packedBlock (greedyWidth bs ovh 32 (widths V)) V :=
  List.flatMap_congr fun V _ => (packedBlock_eq_packBlock _ V).symm

theorem bucketWords_eq_layout (exc : List (Nat × Word)) :
    bucketWords exc = (List.range 32).flatMap fun j => if bucket exc (j + 1) = [] then [] else bucketStream (j + 1) (bucket exc (j + 1)) := by
  rw [bucketWords]
  refine List.flatMap_congr fun j _ => ?_
  rw [bucketStream_eq]
  cases bucket exc (j + 1) <;> rfl

/-- Bytes below 256, in words (R172). -/
theorem getD_wordsOfBytes {L : List Nat} (hL : ∀ n ∈ L, n < 256) {i : Nat} (hi : i < 4 * (wordsOfBytes (L.map (BitVec.ofNat 8))).length) :
    ((wordsOfBytes (L.map (BitVec.ofNat 8))).getD (i / 4) 0).toNat / 2 ^ (8 * (i % 4)) % 2 ^ 8 = L.getD i 0 := by
  have hword := List.getElem?_eq_getElem (l := wordsOfBytes (L.map (BitVec.ofNat 8))) (i := i / 4) (by omega)
  rw [List.getD_eq_getElem?_getD, hword, Option.getD_some, ← wordByte_toNat, wordByte_wordsOfBytes (Nat.mod_lt _ (by decide)) hword, Nat.div_add_mod,
    List.getD_eq_getElem?_getD, List.getD_eq_getElem?_getD, List.getElem?_map]
  cases hn : L[i]? with
  | none => rfl
  | some n => exact (BitVec.toNat_ofNat _ _).trans (Nat.mod_eq_of_lt (hL n (List.mem_of_getElem? hn)))

/-- A page stream is laid out as the table of R172 says. -/
theorem fpfPage_layout {bs : Nat} (hbs : IsBlockSize bs) (ovh : Nat) {P : List Word} (hP : P.length ≤ 2 ^ 31) :
    FpfPageLayout bs ovh P (fpfPage bs ovh P) := by
  obtain ⟨hdata, hbytes, -⟩ := countsFit_chunks hbs ovh hP
  have hblock : ∀ V ∈ chunks bs (P.length / bs) P, V.length = bs := fun V => length_of_mem_chunks (Nat.mul_div_le _ _)
  unfold FpfPageLayout
  simp only [slices_eq_chunks, bucketAt_eq, ← pageData_eq]
  rw [fpfPage_eq, pageStream, bucketWords_eq_layout]
  generalize chunks bs (P.length / bs) P = Vs at hdata hbytes hblock
  rw [pageBytes_eq, List.length_map] at hbytes
  refine ⟨_, _, _, wordsOfBytes (pageBytes bs ovh Vs), rfl, ?_, ?_, ?_, fun i hi => ?_, fun k h1 h32 => ?_⟩
  · exact (BitVec.toNat_ofNat _ _).trans (Nat.mod_eq_of_lt (by omega))
  · rw [pageBytes_eq, List.length_map]
    exact (BitVec.toNat_ofNat _ _).trans (Nat.mod_eq_of_lt hbytes)
  · rw [length_wordsOfBytes, pageBytes_eq, List.length_map]
    rfl
  · rw [pageBytes_eq] at hi ⊢
    refine getD_wordsOfBytes (fun n hn => ?_) hi
    obtain ⟨V, hV, hnV⟩ := List.mem_flatMap.1 hn
    exact lt_of_mem_blockBytes hbs ovh (hblock V hV) hnV
  · rw [BitVec.getLsbD_ofNat, testBit_bitmapOf _ h1 h32, decide_eq_true (by omega : k - 1 < 32)]
    simp

/-! ## The pages of a list -/

theorem sum_pageSizes (page len : Nat) : (pageSizes page len).sum = len := by
  have hdiv := Nat.div_add_mod' len page
  rw [pageSizes, List.sum_append, List.sum_replicate, smul_eq_mul]
  split
  next h => rw [List.sum_nil]; omega
  next h => rw [List.sum_singleton]; omega

theorem dvd_of_mem_pageSizes {bs page len k : Nat} (hpage : bs ∣ page) (hlen : bs ∣ len) (h : k ∈ pageSizes page len) : bs ∣ k := by
  rw [pageSizes, List.mem_append, List.mem_replicate, List.mem_ite_nil_left, List.mem_singleton] at h
  obtain ⟨-, rfl⟩ | ⟨-, rfl⟩ := h
  · exact hpage
  · exact (Nat.dvd_mod_iff hpage).2 hlen

/-- The first page, and the pages of what is left (R170). -/
theorem pageSizes_eq_cons {page len : Nat} (hpage : 0 < page) (hlen : 0 < len) :
    pageSizes page len = min page len :: pageSizes page (len - min page len) := by
  obtain hlt | hle := Nat.lt_or_ge len page
  · rw [Nat.min_eq_right hlt.le, Nat.sub_self, pageSizes, pageSizes, Nat.div_eq_of_lt hlt, Nat.mod_eq_of_lt hlt, if_neg (by omega)]
    simp
  · have hdiv : len / page = (len - page) / page + 1 := Nat.div_eq_sub_div hpage hle
    rw [Nat.min_eq_left hle, pageSizes, pageSizes, hdiv, List.replicate_succ, ← Nat.mod_eq_sub_mod hle, List.cons_append]

theorem pageSizes_zero (page : Nat) : pageSizes page 0 = [] := by simp [pageSizes]

theorem fpfReadPages_fpfPages {bs : Nat} (hbs : IsBlockSize bs) (ovh : Nat) {sizes : List Nat} (hdvd : ∀ k ∈ sizes, bs ∣ k) {A : List Word}
    (hA : A.length ≤ 2 ^ 31) (hsum : sizes.sum ≤ A.length) (X : List Word) :
    fpfReadPages bs sizes (fpfPages bs ovh sizes A ++ X) = .ok (A.take sizes.sum, X) := by
  induction sizes generalizing A with
  | nil => rfl
  | cons k sizes ih =>
    obtain ⟨hk, hsizes⟩ := List.forall_mem_cons.1 hdvd
    rw [List.sum_cons] at hsum
    have hlen : (A.take k).length = k := by rw [List.length_take]; omega
    have hpage := fpfReadPage_fpfPage hbs ovh (P := A.take k) (by omega) (by rw [hlen]; exact Nat.mod_eq_zero_of_dvd hk)
      (fpfPages bs ovh sizes (A.drop k) ++ X)
    have hrest := ih hsizes (A := A.drop k) (by rw [List.length_drop]; omega) (by rw [List.length_drop]; omega)
    rw [hlen] at hpage
    rw [fpfPages, List.append_assoc, fpfReadPages, hpage]
    simp only [ok_bind, hrest, List.sum_cons, List.take_add]
    rfl

/-! ## The codec -/

/-- A compress that answers has a legal `PAGE` (R170). -/
theorem fpfCompress_eq_ok {bs : Nat} {page ovh : Word} {A out : List Word} {r : Nat} (h : fpfCompress bs page ovh A = .ok (r, out)) :
    ¬ BadPage page ∧ pageFault page = none ∧ r = floorTo bs A.length ∧ out = fpfPages bs ovh.toNat (pageSizes page.toNat (floorTo bs A.length)) A := by
  by_cases hpage : BadPage page
  · rw [fpfCompress_of_badPage bs hpage] at h
    exact nomatch h
  · have hfault : pageFault page = none := if_neg hpage
    rw [fpfCompress, hfault] at h
    cases h
    exact ⟨hpage, hfault, rfl, rfl⟩

theorem dvd_page {bs : Nat} (hbs : IsBlockSize bs) {page : Word} (h : ¬ BadPage page) : bs ∣ page.toNat := by
  have h256 : 256 ∣ page.toNat := Nat.dvd_of_mod_eq_zero (not_not.1 (not_or.1 h).2)
  obtain rfl | rfl := hbs
  · exact (by decide : 128 ∣ 256).trans h256
  · exact h256

theorem decodes_of_fpfCompress {bs : Nat} (hbs : IsBlockSize bs) {page ovh : Word} {A out : List Word} {r : Nat} (hA : A.length ≤ 2 ^ 31)
    (h : fpfCompress bs page ovh A = .ok (r, out)) : Decodes (fpfDecompress bs page) (A.take r) out := by
  intro X
  obtain ⟨hpage, hfault, rfl, rfl⟩ := fpfCompress_eq_ok h
  have hlen : (A.take (floorTo bs A.length)).length = floorTo bs A.length := by rw [List.length_take, Nat.min_eq_left (floorTo_le _ _)]
  have hdvd : ∀ k ∈ pageSizes page.toNat (floorTo bs A.length), bs ∣ k := fun k =>
    dvd_of_mem_pageSizes (dvd_page hbs hpage) (Nat.dvd_sub_mod _)
  have hdec := fpfReadPages_fpfPages hbs ovh.toNat hdvd hA (by rw [sum_pageSizes]; exact floorTo_le _ _) X
  rw [sum_pageSizes] at hdec
  simp only [fpfDecompress, hfault, hlen, floorTo_floorTo, hdec, ok_bind, List.length_append, Nat.add_sub_cancel]
  rfl

theorem roundTrips_fpf128 : RoundTrips .fpf128 .fpf128 := fun _ _ _ _ _ hA => decodes_of_fpfCompress (.inl rfl) hA

theorem roundTrips_fpf256 : RoundTrips .fpf256 .fpf256 := fun _ _ _ _ _ hA => decodes_of_fpfCompress (.inr rfl) hA

/-- The first page of a stream, and the stream of the rest (R170). -/
theorem fpfCompress_layout {bs : Nat} (hbs : IsBlockSize bs) {page ovh : Word} {A out : List Word} {r : Nat} (hA : A.length ≤ 2 ^ 31)
    (h : fpfCompress bs page ovh A = .ok (r, out)) :
    (A.length < bs → out = []) ∧
      (bs ≤ A.length →
        let size := min page.toNat (A.length - A.length % bs)
        ∃ (x : List Word) (r' : Nat) (rest : List Word), FpfPageLayout bs ovh.toNat (A.take size) x ∧
          fpfCompress bs page ovh (A.drop size) = .ok (r', rest) ∧ out = x ++ rest) := by
  obtain ⟨hpage, hfault, rfl, rfl⟩ := fpfCompress_eq_ok h
  obtain ⟨hlo, -, -⟩ := hbs.facts
  refine ⟨fun hshort => ?_, fun hlong => ?_⟩
  · rw [(floorTo_eq_zero_iff (by omega) _).2 hshort, pageSizes_zero]
    rfl
  · have hpos : 0 < floorTo bs A.length := Nat.pos_of_ne_zero fun h0 => absurd ((floorTo_eq_zero_iff (by omega) _).1 h0) (Nat.not_lt.2 hlong)
    have hpage0 : 0 < page.toNat := Nat.pos_of_ne_zero (not_or.1 hpage).1
    have hsize : bs ∣ min page.toNat (floorTo bs A.length) := by
      obtain hmin | hmin := min_choice page.toNat (floorTo bs A.length) <;> rw [hmin]
      · exact dvd_page hbs hpage
      · exact Nat.dvd_sub_mod _
    have hrest : floorTo bs (A.drop (min page.toNat (floorTo bs A.length))).length = floorTo bs A.length - min page.toNat (floorTo bs A.length) := by
      obtain ⟨c, hc⟩ := hsize
      rw [List.length_drop, hc, floorTo_eq_mul_div, Nat.sub_mul_div, Nat.mul_sub, ← floorTo_eq_mul_div]
    refine ⟨_, _, _, fpfPage_layout hbs ovh.toNat (by rw [List.length_take]; omega), by rw [fpfCompress, hfault], ?_⟩
    rw [show A.length - A.length % bs = floorTo bs A.length from rfl, hrest, pageSizes_eq_cons hpage0 hpos]
    rfl

/-- Settles O23: the round trip page by page, and the layout of the first page. -/
theorem fastPforRoundTrip : Obligations.FastPforRoundTrip := by
  refine ⟨fun k page ovh A r out hk hA => ?_, fun k bs page ovh A r out hk hA h => ?_⟩
  · simp only [List.mem_cons, List.not_mem_nil, or_false] at hk
    obtain rfl | rfl := hk
    · exact roundTrips_fpf128.forms page ovh r out hA
    · exact roundTrips_fpf256.forms page ovh r out hA
  · simp only [List.mem_cons, Prod.mk.injEq, List.not_mem_nil, or_false] at hk
    obtain ⟨rfl, rfl⟩ | ⟨rfl, rfl⟩ := hk
    · exact fpfCompress_layout (.inl rfl) hA h
    · exact fpfCompress_layout (.inr rfl) hA h

end Sys2Proof.Proofs
end

