-- ==== Sys2Proof/Proofs/Compositions.lean ====
section
/-! PROOF. Compositions and top-level streams (47_composition.md R280 to R285): the leading word of a composition's stream, and the round trips. Each codec's decoder leaves the
words after its stream, so the second stage finds its own; the count that is left for it is what it consumed. -/

namespace Sys2Proof.Proofs

open Sys2Proof.Machine

theorem roundTrips (k : Codec) : RoundTrips k k := by
  cases k with
  | bp => exact roundTrips_bp
  | fpf128 => exact roundTrips_fpf128
  | fpf256 => exact roundTrips_fpf256
  | npfd9 => exact roundTrips_npfd9
  | npfd16 => exact roundTrips_npfd16
  | opfd9 => exact roundTrips_opfd9
  | opfd16 => exact roundTrips_opfd16
  | s9 => exact roundTrips_s9
  | s16 => exact roundTrips_s16
  | vb => exact roundTrips_vb

theorem granule_pos (k : Codec) : 0 < granule k := by cases k <;> decide

/-! ## The leading word -/

/-- What the first stage leaves in front of the second: its stream, or the zero marker (R280). -/
def firstPart (o : List Word) : List Word := if o = [] then [0] else o

theorem compCompress_eq_ok_iff {k1 k2 : Codec} {page ovh : Word} {A : List Word} {r : Nat} {out : List Word} :
    compCompress k1 k2 page ovh A = .ok (r, out) ↔ ∃ r1 o1 r2 o2, headedCompress k1 page ovh A = .ok (r1, o1) ∧
      headlessCompress k2 page ovh (A.drop r1) = .ok (r2, o2) ∧ r = r1 + r2 ∧ out = firstPart o1 ++ o2 := by
  rw [compCompress, exceptBind_eq_ok_iff]
  constructor
  · rintro ⟨⟨r1, o1⟩, h1, h⟩
    obtain ⟨⟨r2, o2⟩, h2, h⟩ := (exceptBind_eq_ok_iff _ _ _).1 h
    cases h
    exact ⟨r1, o1, r2, o2, h1, h2, rfl, rfl⟩
  · rintro ⟨r1, o1, r2, o2, h1, h2, rfl, rfl⟩
    exact ⟨(r1, o1), h1, (exceptBind_eq_ok_iff _ _ _).2 ⟨(r2, o2), h2, rfl⟩⟩

/-- The first word is the count of the first stage, whether it wrote a stream or not. -/
theorem head?_firstPart_append {k : Codec} {page ovh : Word} {A : List Word} {r : Nat} {o : List Word} (h : headedCompress k page ovh A = .ok (r, o))
    (X : List Word) : (firstPart o ++ X).head? = some (BitVec.ofNat 32 r) := by
  obtain ⟨rfl, rfl, -⟩ | ⟨o', rfl, -⟩ := headedCompress_cases h
  · rfl
  · rfl

/-- Settles O41: the first word is that of the headed first stage, or the zero marker. -/
theorem compositionMarkerDiscipline : Obligations.CompositionMarkerDiscipline := by
  intro k1 k2 page ovh A r out hA h
  obtain ⟨r1, o1, r2, o2, h1, -, -, rfl⟩ := compCompress_eq_ok_iff.1 h
  have hr1 := headedCompress_read h1
  have hle := headedCompress_read_le h1
  have hhead := head?_firstPart_append h1 o2
  refine ⟨?_, by rw [hhead, hr1]; rfl⟩
  rw [hhead, Option.some_inj, ← floorTo_eq_zero_iff (granule_pos k1), ← hr1, ← BitVec.toNat_inj, BitVec.toNat_ofNat, Nat.mod_eq_of_lt (by omega)]
  rfl

/-! ## Round trips -/

/-- A legal `PAGE` where the codec reads it. -/
def PageLegalFor (k : Codec) (page : Word) : Prop := k ∈ [Codec.fpf128, .fpf256] → ¬ BadPage page

/-- No integers take no words (R130). -/
theorem headlessDecompress_zero {k : Codec} {page : Word} (hpage : PageLegalFor k page) (X : List Word) :
    headlessDecompress k page X 0 = .ok (0, []) := by
  have hfpf {bs : Nat} (h : ¬ BadPage page) : fpfDecompress bs page X 0 = .ok (0, []) := by
    have hfault : pageFault page = none := if_neg h
    have hsizes : pageSizes page.toNat (floorTo bs 0) = [] := by rw [floorTo, Nat.zero_sub, pageSizes_zero]
    simp only [fpfDecompress, hfault, hsizes, fpfReadPages, ok_bind, Nat.sub_self]
    rfl
  have hlen {α : Type} (n : Nat) (a : α) : (Except.ok (n - n, a) : Except Trap (Nat × α)) = .ok (0, a) := by rw [Nat.sub_self]
  cases k with
  | fpf128 => exact hfpf (hpage (by decide))
  | fpf256 => exact hfpf (hpage (by decide))
  | s9 => exact (by rw [selectorDecompress] : selectorDecompress simple9 X 0 = _)
  | s16 => exact (by rw [selectorDecompress] : selectorDecompress simple16 X 0 = _)
  | vb =>
    simp only [headlessDecompress, vbDecompress, vbValues, ok_bind, Nat.sub_self]
    rfl
  | _ => exact hlen X.length []

/-- The first stage is read back: its stream, or the marker and no integers (R281). -/
theorem headedDecompress_firstPart {k : Codec} {page ovh : Word} {A : List Word} {r : Nat} {o : List Word} (hA : A.length ≤ 2 ^ 31)
    (hpage : PageLegalFor k page) (h : headedCompress k page ovh A = .ok (r, o)) (X : List Word) :
    headedDecompress k page (firstPart o ++ X) = .ok ((firstPart o).length, A.take r) := by
  by_cases ho : o = []
  · obtain ⟨rfl, rfl, -⟩ | ⟨o', hcons, -⟩ := headedCompress_cases h
    · rw [firstPart, if_pos rfl, List.singleton_append, headedDecompress_cons,
        show (0 : Word).toNat = 0 from rfl, headlessDecompress_zero hpage]
      rfl
    · exact absurd (hcons.symm.trans ho) (List.cons_ne_nil _ _)
  · rw [firstPart, if_neg ho]
    exact (roundTrips k).headed hA h ho X

/-- A decoder gives its count rounded down to the granule: what is above does not count (R131). -/
theorem headlessDecompress_floorTo (k : Codec) (page : Word) (W : List Word) (n : Nat) :
    headlessDecompress k page W (floorTo (granule k) n) = headlessDecompress k page W n := by
  have hdiv {g : Nat} (hg : 0 < g) : floorTo g n / g = n / g := by rw [floorTo_eq_mul_div, Nat.mul_div_cancel_left _ hg]
  cases k
  case bp => simp only [headlessDecompress, bpDecompress, granule, hdiv (by decide : 0 < 32)]
  case fpf128 | fpf256 => simp only [headlessDecompress, fpfDecompress, granule, floorTo_floorTo]
  case npfd9 | npfd16 | opfd9 | opfd16 => simp only [headlessDecompress, pfdDecompress, granule, hdiv (by decide : 0 < 128)]
  case s9 | s16 | vb => rw [granule, floorTo_one]

/-- The stream is read with any count that rounds down to what was consumed. -/
theorem headlessDecompress_headlessCompress {k : Codec} {page ovh : Word} {A : List Word} {r n : Nat} {out : List Word} (hA : A.length ≤ 2 ^ 31)
    (h : headlessCompress k page ovh A = .ok (r, out)) (hn : floorTo (granule k) n = r) :
    headlessDecompress k page out n = .ok (out.length, A.take r) := by
  have hdec := (roundTrips k).headless hA h []
  rw [List.append_nil] at hdec
  rw [← headlessDecompress_floorTo, hn, hdec]

/-- The composition's stream is read with any count that leaves the second stage such a count. -/
theorem compDecompress_stages {k1 k2 : Codec} {page ovh : Word} {A : List Word} {r1 r2 n : Nat} {o1 o2 : List Word} (hA : A.length ≤ 2 ^ 31)
    (hpage : PageLegalFor k1 page) (h1 : headedCompress k1 page ovh A = .ok (r1, o1))
    (h2 : headlessCompress k2 page ovh (A.drop r1) = .ok (r2, o2)) (hr1 : r1 ≤ n) (hn : floorTo (granule k2) (n - r1) = r2) :
    compDecompress k1 k2 page (firstPart o1 ++ o2) n = .ok ((firstPart o1 ++ o2).length, A.take (r1 + r2)) := by
  have hfirst := headedDecompress_firstPart hA hpage h1 o2
  have hsecond := headlessDecompress_headlessCompress (by rw [List.length_drop]; omega) h2 hn
  have htaken : (A.take r1).length = r1 := by rw [List.length_take, Nat.min_eq_left (headedCompress_read_le h1)]
  simp only [compDecompress, hfirst, ok_bind, htaken, Nat.not_lt.2 hr1, if_false, List.drop_left, hsecond, List.length_append, List.take_add]
  rfl

theorem compDecompress_compCompress {k1 k2 : Codec} {page ovh : Word} {A : List Word} {r n : Nat} {out : List Word} (hA : A.length ≤ 2 ^ 31)
    (hpage : PageLegalFor k1 page) (h : compCompress k1 k2 page ovh A = .ok (r, out)) (hn : n = r ∨ n = A.length) :
    compDecompress k1 k2 page out n = .ok (out.length, A.take r) := by
  obtain ⟨r1, o1, r2, o2, h1, h2, rfl, rfl⟩ := compCompress_eq_ok_iff.1 h
  have hr2 := headlessCompress_read h2
  rw [List.length_drop] at hr2
  obtain rfl | rfl := hn
  · refine compDecompress_stages hA hpage h1 h2 (Nat.le_add_right _ _) ?_
    rw [Nat.add_sub_cancel_left, hr2, floorTo_floorTo]
  · exact compDecompress_stages hA hpage h1 h2 (headedCompress_read_le h1) hr2.symm

/-- With an illegal `PAGE` a FastPFOR first stage wrote the marker, and its decoder refuses the `PAGE` (log 21). -/
theorem compDecompress_of_badPage {k1 k2 : Codec} {page ovh : Word} {A : List Word} {r : Nat} {out : List Word} (hk : k1 ∈ [Codec.fpf128, .fpf256])
    (hpage : BadPage page) (h : compCompress k1 k2 page ovh A = .ok (r, out)) (n : Nat) :
    compDecompress k1 k2 page out n = .error ⟨.badConfig, page⟩ := by
  obtain ⟨r1, o1, r2, o2, h1, -, -, rfl⟩ := compCompress_eq_ok_iff.1 h
  have hne : firstPart o1 ++ o2 ≠ [] := by
    have hhead := head?_firstPart_append h1 o2
    intro hnil
    rw [hnil] at hhead
    exact nomatch hhead
  rw [compDecompress, headedDecompress_of_badPage hk hpage hne]
  rfl

theorem pageLegalFor_of_imp {k : Codec} {page : Word} (h : k ∈ [Codec.fpf128, .fpf256] → page.toNat ≠ 0 ∧ page.toNat % 256 = 0) :
    PageLegalFor k page := by
  rintro hk (h0 | hmod)
  · exact (h hk).1 h0
  · exact hmod (h hk).2

/-- Settles O42: the first stage reads its own words, and the second what is left. -/
theorem compositionRoundTrip : Obligations.CompositionRoundTrip := fun _ _ _ _ _ _ _ hA h =>
  ⟨fun hpage => compDecompress_compCompress hA (pageLegalFor_of_imp hpage) h (.inl rfl), fun hk hpage => compDecompress_of_badPage hk hpage h _⟩

/-- The codec or composition inside a top-level stream. -/
def innerCompress (k1 : Codec) (k2 : Option Codec) (page ovh : Word) (A : List Word) : CodecResult :=
  match k2 with
  | none => headlessCompress k1 page ovh A
  | some k2 => compCompress k1 k2 page ovh A

def innerDecompress (k1 : Codec) (k2 : Option Codec) (page : Word) (W : List Word) (n : Nat) : CodecResult :=
  match k2 with
  | none => headlessDecompress k1 page W n
  | some k2 => compDecompress k1 k2 page W n

/-- A top-level stream is a count word and the inner stream (R284). -/
theorem topCompress_eq (k1 : Codec) (k2 : Option Codec) (page ovh : Word) (A : List Word) :
    topCompress k1 k2 page ovh A = (innerCompress k1 k2 page ovh A).map (Prod.map id (BitVec.ofNat 32 A.length :: ·)) := by
  cases k2 with
  | none => rw [topCompress, innerCompress]; cases headlessCompress k1 page ovh A <;> rfl
  | some k2 => rw [topCompress, innerCompress]; cases compCompress k1 k2 page ovh A <;> rfl

/-- The inner stream is decoded with the count word as its count (R285). -/
theorem topDecompress_cons (k1 : Codec) (k2 : Option Codec) (page c : Word) (W : List Word) :
    topDecompress k1 k2 page (c :: W) = (innerDecompress k1 k2 page W c.toNat).map (Prod.map (1 + ·) id) := by
  cases k2 with
  | none => rw [topDecompress, innerDecompress]; cases headlessDecompress k1 page W c.toNat <;> rfl
  | some k2 => rw [topDecompress, innerDecompress]; cases compDecompress k1 k2 page W c.toNat <;> rfl

theorem innerDecompress_innerCompress {k1 : Codec} {k2 : Option Codec} {page ovh : Word} {A : List Word} {r : Nat} {out : List Word}
    (hA : A.length ≤ 2 ^ 31) (hpage : PageLegalFor k1 page) (h : innerCompress k1 k2 page ovh A = .ok (r, out)) :
    innerDecompress k1 k2 page out A.length = .ok (out.length, A.take r) := by
  cases k2 with
  | none => exact headlessDecompress_headlessCompress hA h (headlessCompress_read h).symm
  | some k2 => exact compDecompress_compCompress hA hpage h (.inr rfl)

theorem innerDecompress_of_badPage {k1 : Codec} {k2 : Option Codec} {page ovh : Word} {A : List Word} {r : Nat} {out : List Word}
    (hk : k1 ∈ [Codec.fpf128, .fpf256]) (hpage : BadPage page) (h : innerCompress k1 k2 page ovh A = .ok (r, out)) (n : Nat) :
    innerDecompress k1 k2 page out n = .error ⟨.badConfig, page⟩ := by
  cases k2 with
  | none => exact headlessDecompress_of_badPage hk hpage out n
  | some k2 => exact compDecompress_of_badPage hk hpage h n

/-- Settles O43: the count word is the length of the input, which rounds down to what the codec, or the second stage, consumed. -/
theorem topLevelRoundTrip : Obligations.TopLevelRoundTrip := by
  intro k1 k2 page ovh A r out hA h
  rw [topCompress_eq] at h
  cases hinner : innerCompress k1 k2 page ovh A with
  | error t => rw [hinner] at h; exact nomatch h
  | ok p =>
    rw [hinner] at h
    cases h
    have hcount : (BitVec.ofNat 32 A.length).toNat = A.length := (BitVec.toNat_ofNat _ _).trans (Nat.mod_eq_of_lt (by omega))
    rw [topDecompress_cons, hcount]
    refine ⟨fun hpage => ?_, fun hk hpage => ?_⟩
    · rw [innerDecompress_innerCompress hA (pageLegalFor_of_imp hpage) hinner, List.length_cons, Nat.add_comm]
      rfl
    · rw [innerDecompress_of_badPage hk hpage hinner]
      rfl

end Sys2Proof.Proofs
end

