-- ==== Sys2Proof/Proofs/OutputLengths.lean ====
section
/-! PROOF. How many words the decompress functions give (42_blockcodec.md R131): each reader as many as it is asked for, in whole blocks. -/

namespace Sys2Proof.Proofs

open Sys2Proof.Machine

/-! ## Packed words and BinaryPacking -/

theorem length_of_unpackBlocks {b k : Nat} {s U rest : List Word} (h : unpackBlocks b k s = .ok (U, rest)) : U.length = 32 * k := by
  obtain hshort | hlong := Nat.lt_or_ge s.length (k * b)
  · rw [unpackBlocks_short k hshort] at h
    exact nomatch h
  · obtain ⟨U', hU', heq⟩ := unpackBlocks_enough k hlong
    cases heq.symm.trans h
    exact hU'

theorem length_of_bpGroups {k : Nat} {s u rest : List Word} (h : bpGroups k s = .ok (u, rest)) : u.length = 128 * k := by
  induction k generalizing s u rest with
  | zero => cases h; rfl
  | succ k ih =>
    obtain ⟨⟨H, s1⟩, -, h⟩ := (exceptBind_eq_ok_iff _ _ _).1 h
    dsimp only at h
    split at h
    · exact nomatch h
    · obtain ⟨_, -, h⟩ := (exceptBind_eq_ok_iff _ _ _).1 h
      obtain ⟨_, -, h⟩ := (exceptBind_eq_ok_iff _ _ _).1 h
      obtain ⟨_, -, h⟩ := (exceptBind_eq_ok_iff _ _ _).1 h
      obtain ⟨_, -, h⟩ := (exceptBind_eq_ok_iff _ _ _).1 h
      obtain ⟨_, hrest, h⟩ := (exceptBind_eq_ok_iff _ _ _).1 h
      cases h
      simp only [List.length_append, unpack_length, ih hrest]
      omega

theorem length_of_bpSingles {k : Nat} {s u rest : List Word} (h : bpSingles k s = .ok (u, rest)) : u.length = 32 * k := by
  induction k generalizing s u rest with
  | zero => cases h; rfl
  | succ k ih =>
    obtain ⟨⟨H, s1⟩, -, h⟩ := (exceptBind_eq_ok_iff _ _ _).1 h
    dsimp only at h
    split at h
    · exact nomatch h
    · obtain ⟨_, -, h⟩ := (exceptBind_eq_ok_iff _ _ _).1 h
      obtain ⟨_, hrest, h⟩ := (exceptBind_eq_ok_iff _ _ _).1 h
      cases h
      simp only [List.length_append, unpack_length, ih hrest]
      omega

theorem length_of_bpDecompress {W out : List Word} {n r : Nat} (h : bpDecompress W n = .ok (r, out)) : out.length = floorTo 32 n := by
  obtain ⟨_, hgroups, h⟩ := (exceptBind_eq_ok_iff _ _ _).1 h
  obtain ⟨_, hsingles, h⟩ := (exceptBind_eq_ok_iff _ _ _).1 h
  cases h
  rw [List.length_append, length_of_bpGroups hgroups, length_of_bpSingles hsingles, floorTo_eq_mul_div]
  omega

/-! ## The selector codecs and VariableByte -/

theorem length_slotValues (l : List Nat) (p m : Nat) : (slotValues l p m).length = min l.length m := by
  induction l generalizing p m with
  | nil => simp [slotValues]
  | cons w l ih =>
    cases m with
    | zero => simp [slotValues]
    | succ m => rw [slotValues, List.length_cons, ih, List.length_cons]; omega

theorem selectorDecompress_cons_of_some {T : Layouts} {w : Word} {l : List Nat} (hl : T[w.toNat / 2 ^ 28]? = some l) (W : List Word) (n : Nat) :
    selectorDecompress T (w :: W) (n + 1) =
      (selectorDecompress T W (n + 1 - l.length)).map (Prod.map (· + 1) (slotValues l w.toNat (n + 1) ++ ·)) := by
  simp only [selectorDecompress, hl]
  cases selectorDecompress T W (n + 1 - l.length) <;> rfl

theorem selectorDecompress_cons_of_none {T : Layouts} {w : Word} (hl : T[w.toNat / 2 ^ 28]? = none) (W : List Word) (n : Nat) :
    selectorDecompress T (w :: W) (n + 1) = .error malformed := by
  rw [selectorDecompress, hl]

theorem length_of_selectorDecompress {T : Layouts} {W out : List Word} {n r : Nat} (h : selectorDecompress T W n = .ok (r, out)) : out.length = n := by
  induction W generalizing n r out with
  | nil =>
    cases n with
    | zero => cases h; rfl
    | succ n => exact nomatch h
  | cons w W ih =>
    cases n with
    | zero =>
      rw [selectorDecompress] at h
      cases h
      rfl
    | succ n =>
      cases hl : T[w.toNat / 2 ^ 28]? with
      | none => rw [selectorDecompress_cons_of_none hl] at h; exact nomatch h
      | some l =>
        rw [selectorDecompress_cons_of_some hl] at h
        cases hrest : selectorDecompress T W (n + 1 - l.length) with
        | error t => rw [hrest] at h; exact nomatch h
        | ok p =>
          rw [hrest] at h
          cases h
          rw [List.length_append, length_slotValues, ih hrest]
          omega

theorem length_of_vbValues {n : Nat} {bytes rest : List Byte} {vs : List Word} (h : vbValues n bytes = .ok (vs, rest)) : vs.length = n := by
  induction n generalizing bytes rest vs with
  | zero => cases h; rfl
  | succ n ih =>
    obtain ⟨_, -, h⟩ := (exceptBind_eq_ok_iff _ _ _).1 h
    obtain ⟨_, hrest, h⟩ := (exceptBind_eq_ok_iff _ _ _).1 h
    cases h
    rw [List.length_cons, ih hrest]

theorem length_of_vbDecompress {W out : List Word} {n r : Nat} (h : vbDecompress W n = .ok (r, out)) : out.length = n := by
  obtain ⟨_, hvalues, h⟩ := (exceptBind_eq_ok_iff _ _ _).1 h
  cases h
  exact length_of_vbValues hvalues

/-! ## The patched codecs -/

theorem length_of_pfdPatch {b : Nat} {ps : List (Word × Word)} {U U' : List Word} (h : pfdPatch b ps U = .ok U') : U'.length = U.length := by
  induction ps generalizing U with
  | nil => cases h; rfl
  | cons p ps ih =>
    rw [pfdPatch] at h
    split at h
    · exact nomatch h
    · rw [ih h, patch_length]

theorem length_of_pfdReadBlocks {T : Layouts} {k : Nat} {s out rest : List Word} (h : pfdReadBlocks T k s = .ok (out, rest)) :
    out.length = 128 * k := by
  induction k generalizing s out rest with
  | zero => cases h; rfl
  | succ k ih =>
    obtain ⟨⟨H, s1⟩, -, h⟩ := (exceptBind_eq_ok_iff _ _ _).1 h
    dsimp only at h
    split at h
    · exact nomatch h
    · obtain ⟨_, -, h⟩ := (exceptBind_eq_ok_iff _ _ _).1 h
      obtain ⟨_, hunpack, h⟩ := (exceptBind_eq_ok_iff _ _ _).1 h
      obtain ⟨_, hpatch, h⟩ := (exceptBind_eq_ok_iff _ _ _).1 h
      obtain ⟨_, hrest, h⟩ := (exceptBind_eq_ok_iff _ _ _).1 h
      cases h
      rw [List.length_append, length_of_pfdPatch hpatch, length_of_unpackBlocks hunpack, ih hrest]
      omega

theorem length_of_pfdDecompress {T : Layouts} {W out : List Word} {n r : Nat} (h : pfdDecompress T W n = .ok (r, out)) :
    out.length = floorTo 128 n := by
  obtain ⟨_, hblocks, h⟩ := (exceptBind_eq_ok_iff _ _ _).1 h
  cases h
  rw [length_of_pfdReadBlocks hblocks, floorTo_eq_mul_div]

theorem length_of_patchBlock {bs b k : Nat} {ps : List Byte} {U U' : List Word} {ex ex' : List (List Word)}
    (h : patchBlock bs b k ps U ex = .ok (U', ex')) : U'.length = U.length := by
  induction ps generalizing U ex with
  | nil => cases h; rfl
  | cons p ps ih =>
    rw [patchBlock] at h
    split at h
    · exact nomatch h
    · split at h
      · exact nomatch h
      · rw [ih h, patch_length]

theorem length_of_fpfBlocks {bs k limit : Nat} {bc : List Byte} {ex : List (List Word)} {s out : List Word}
    (h : fpfBlocks bs k bc ex limit s = .ok out) : out.length = 32 * (bs / 32) * k := by
  induction k generalizing bc ex limit s out with
  | zero =>
    rw [fpfBlocks] at h
    split at h <;> cases h
    rfl
  | succ k ih =>
    obtain ⟨_, -, h⟩ := (exceptBind_eq_ok_iff _ _ _).1 h
    obtain ⟨_, -, h⟩ := (exceptBind_eq_ok_iff _ _ _).1 h
    dsimp only at h
    split at h
    · exact nomatch h
    · obtain ⟨_, -, h⟩ := (exceptBind_eq_ok_iff _ _ _).1 h
      split at h
      · exact nomatch h
      · obtain ⟨_, hunpack, h⟩ := (exceptBind_eq_ok_iff _ _ _).1 h
        obtain ⟨_, hpatch, h⟩ := (exceptBind_eq_ok_iff _ _ _).1 h
        obtain ⟨_, hrest, h⟩ := (exceptBind_eq_ok_iff _ _ _).1 h
        cases h
        rw [List.length_append, length_of_patchBlock hpatch, length_of_unpackBlocks hunpack, ih hrest, Nat.mul_succ, Nat.add_comm]

theorem length_of_fpfReadPage {bs pn : Nat} (hbs : IsBlockSize bs) (hpn : bs ∣ pn) {W out rest : List Word}
    (h : fpfReadPage bs pn W = .ok (out, rest)) : out.length = pn := by
  obtain ⟨-, -, hdiv⟩ := hbs.facts
  obtain ⟨_, -, h⟩ := (exceptBind_eq_ok_iff _ _ _).1 h
  dsimp only at h
  split at h
  · exact nomatch h
  · obtain ⟨_, -, h⟩ := (exceptBind_eq_ok_iff _ _ _).1 h
    obtain ⟨_, -, h⟩ := (exceptBind_eq_ok_iff _ _ _).1 h
    obtain ⟨_, -, h⟩ := (exceptBind_eq_ok_iff _ _ _).1 h
    obtain ⟨_, -, h⟩ := (exceptBind_eq_ok_iff _ _ _).1 h
    obtain ⟨_, -, h⟩ := (exceptBind_eq_ok_iff _ _ _).1 h
    obtain ⟨_, hblocks, h⟩ := (exceptBind_eq_ok_iff _ _ _).1 h
    cases h
    rw [length_of_fpfBlocks hblocks, hdiv, Nat.mul_div_cancel' hpn]

theorem length_of_fpfReadPages {bs : Nat} (hbs : IsBlockSize bs) {sizes : List Nat} (hsizes : ∀ k ∈ sizes, bs ∣ k) {W out rest : List Word}
    (h : fpfReadPages bs sizes W = .ok (out, rest)) : out.length = sizes.sum := by
  induction sizes generalizing W out rest with
  | nil => cases h; rfl
  | cons k sizes ih =>
    obtain ⟨hk, hrest⟩ := List.forall_mem_cons.1 hsizes
    obtain ⟨_, hpage, h⟩ := (exceptBind_eq_ok_iff _ _ _).1 h
    obtain ⟨_, hpages, h⟩ := (exceptBind_eq_ok_iff _ _ _).1 h
    cases h
    rw [List.length_append, length_of_fpfReadPage hbs hk hpage, ih hrest hpages, List.sum_cons]

theorem fpfDecompress_of_legal {page : Word} (h : ¬ BadPage page) (bs : Nat) (W : List Word) (n : Nat) :
    fpfDecompress bs page W n = fpfReadPages bs (pageSizes page.toNat (floorTo bs n)) W >>= fun p => .ok (W.length - p.2.length, p.1) := by
  have hfault : pageFault page = none := if_neg h
  rw [fpfDecompress, hfault]
  rfl

theorem length_of_fpfDecompress {bs : Nat} (hbs : IsBlockSize bs) {page : Word} {W out : List Word} {n r : Nat}
    (h : fpfDecompress bs page W n = .ok (r, out)) : out.length = floorTo bs n := by
  by_cases hpage : BadPage page
  · rw [fpfDecompress_of_badPage bs hpage] at h
    exact nomatch h
  · rw [fpfDecompress_of_legal hpage] at h
    obtain ⟨_, hpages, h⟩ := (exceptBind_eq_ok_iff _ _ _).1 h
    cases h
    have hdvd : ∀ k ∈ pageSizes page.toNat (floorTo bs n), bs ∣ k := fun k => dvd_of_mem_pageSizes (dvd_page hbs hpage) (Nat.dvd_sub_mod _)
    rw [length_of_fpfReadPages hbs hdvd hpages, sum_pageSizes]

/-! ## The codecs -/

theorem length_of_headlessDecompress {k : Codec} {page : Word} {W out : List Word} {n r : Nat} (h : headlessDecompress k page W n = .ok (r, out)) :
    out.length = floorTo (granule k) n := by
  cases k with
  | bp => exact length_of_bpDecompress h
  | fpf128 => exact length_of_fpfDecompress (.inl rfl) h
  | fpf256 => exact length_of_fpfDecompress (.inr rfl) h
  | npfd9 => exact length_of_pfdDecompress h
  | npfd16 => exact length_of_pfdDecompress h
  | opfd9 => exact length_of_pfdDecompress h
  | opfd16 => exact length_of_pfdDecompress h
  | s9 => exact (length_of_selectorDecompress h).trans (floorTo_one n).symm
  | s16 => exact (length_of_selectorDecompress h).trans (floorTo_one n).symm
  | vb => exact (length_of_vbDecompress h).trans (floorTo_one n).symm

/-- Settles O20: what a compress reads (`headlessCompress_read`), and what each reader gives. -/
theorem headlessFormsRoundToTheGranule : Obligations.HeadlessFormsRoundToTheGranule :=
  ⟨fun _ _ _ _ _ _ => headlessCompress_read, fun _ _ _ _ _ _ h => ⟨length_of_headlessDecompress h, headlessDecompress_read_le h⟩⟩

end Sys2Proof.Proofs
end

