-- ==== Sys2Proof/Proofs/StreamPrefixes.lean ====
section
/-! PROOF. The decompress functions read their words in sequence (60_exceptions.md R306): each is a reader whose answer says how many words it took, so that words after
those are not read, a stream cut short is an underrun, and decoding goes on where an earlier decoding ended. -/

namespace Sys2Proof.Proofs

open Sys2Proof.Machine

/-! ## Codec functions as readers -/

/-- A reader over words. -/
abbrev WordReader := List Word → Except Trap (List Word × List Word)

/-- A reader as a codec function: how many words it took, and what it gave (R130). -/
def ofReader (f : WordReader) (W : List Word) : CodecResult := f W >>= fun p => .ok (W.length - p.2.length, p.1)

theorem ofReader_error {f : WordReader} {W : List Word} {t : Trap} (h : f W = .error t) : ofReader f W = .error t := by
  rw [ofReader, h]
  rfl

theorem ofReader_ok {f : WordReader} {W out s : List Word} (h : f W = .ok (out, s)) : ofReader f W = .ok (W.length - s.length, out) := by
  rw [ofReader, h]
  rfl

theorem reader_error {f : WordReader} {W : List Word} {t : Trap} (h : ofReader f W = .error t) : f W = .error t := by
  cases hf : f W with
  | error e => cases (ofReader_error hf).symm.trans h; rfl
  | ok p => exact nomatch (ofReader_ok hf).symm.trans h

/-- A reader that is sequential stops where its codec function says. -/
theorem reader_ok {f : WordReader} (hf : Sequential f) {W out : List Word} {r : Nat} (h : ofReader f W = .ok (r, out)) :
    r ≤ W.length ∧ f W = .ok (out, W.drop r) := by
  obtain ⟨⟨x, s⟩, hread, heq⟩ := (exceptBind_eq_ok_iff _ _ _).1 h
  obtain ⟨k, hk, rfl, -⟩ := hf W x s hread
  cases heq
  rw [List.length_drop, Nat.sub_sub_self hk]
  exact ⟨hk, hread⟩

theorem sequentialCodec_ofReader {f : WordReader} (hf : Sequential f) : SequentialCodec (ofReader f) := by
  intro W r out h
  obtain ⟨hr, hread⟩ := reader_ok hf h
  obtain ⟨k, hk, hdrop, happ, hcut⟩ := hf W out _ hread
  have hlen := congrArg List.length hdrop
  rw [List.length_drop, List.length_drop] at hlen
  obtain rfl : k = r := by omega
  refine ⟨hr, fun X => ?_, fun m hm => ofReader_error (hcut m hm)⟩
  rw [ofReader_ok (happ X), List.length_append, List.length_take, Nat.min_eq_left hk, Nat.add_sub_cancel]

/-! ## One reader after another -/

/-- One reader and then another, with what both gave. -/
def andThen (f g : WordReader) : WordReader := fun s => f s >>= fun p => g p.2 >>= fun q => .ok (p.1 ++ q.1, q.2)

/-- A reader that takes nothing and gives nothing. -/
def readNothing : WordReader := fun s => .ok ([], s)

theorem sequential_andThen {f g : WordReader} (hf : Sequential f) (hg : Sequential g) : Sequential (andThen f g) :=
  hf.bind fun x => hg.bind (g := fun q => .ok (x ++ q.1, q.2)) fun y => .pure (x ++ y)

theorem andThen_ok {f g : WordReader} {s u s' v s'' : List Word} (hf : f s = .ok (u, s')) (hg : g s' = .ok (v, s'')) :
    andThen f g s = .ok (u ++ v, s'') := by
  rw [andThen, hf, ok_bind, hg]
  rfl

theorem andThen_error_left {f g : WordReader} {s : List Word} {t : Trap} (hf : f s = .error t) : andThen f g s = .error t := by
  rw [andThen, hf]
  rfl

theorem andThen_error_right {f g : WordReader} {s u s' : List Word} {t : Trap} (hf : f s = .ok (u, s')) (hg : g s' = .error t) :
    andThen f g s = .error t := by
  rw [andThen, hf, ok_bind, hg]
  rfl

theorem readNothing_andThen (f : WordReader) : andThen readNothing f = f := by
  funext s
  cases h : f s with
  | error t => exact andThen_error_right (f := readNothing) rfl h
  | ok p => exact andThen_ok (f := readNothing) rfl h

theorem andThen_readNothing (f : WordReader) : andThen f readNothing = f := by
  funext s
  cases h : f s with
  | error t => exact andThen_error_left h
  | ok p => rw [andThen_ok h rfl, List.append_nil]

theorem andThen_assoc (f g h : WordReader) : andThen (andThen f g) h = andThen f (andThen g h) := by
  funext s
  cases hf : f s with
  | error t => rw [andThen_error_left (andThen_error_left hf), andThen_error_left hf]
  | ok p =>
    cases hg : g p.2 with
    | error t => rw [andThen_error_left (andThen_error_right hf hg), andThen_error_right hf (andThen_error_left hg)]
    | ok q =>
      cases hh : h q.2 with
      | error t => rw [andThen_error_right (andThen_ok hf hg) hh, andThen_error_right hf (andThen_error_right hg hh)]
      | ok _ => rw [andThen_ok (andThen_ok hf hg) hh, andThen_ok hf (andThen_ok hg hh), List.append_assoc]

/-- A codec function whose reader for `n1 + n2` integers is the one for `n1` and then the one for `n2` (R140, R170, R187). -/
theorem runsInSequence_ofReader {p : Nat → Nat → Prop} {f : Nat → WordReader} (hseq : ∀ n, Sequential (f n))
    (happ : ∀ n1 n2, p n1 n2 → f (n1 + n2) = andThen (f n1) (f n2)) : RunsInSequence p fun W n => ofReader (f n) W := by
  intro W n1 n2 hp
  beta_reduce
  rw [happ n1 n2 hp]
  refine ⟨fun t h => ofReader_error (andThen_error_left (reader_error h)), fun r u h1 => ?_⟩
  obtain ⟨hr, hread1⟩ := reader_ok (hseq n1) h1
  refine ⟨fun t h => ofReader_error (andThen_error_right hread1 (reader_error h)), fun r' v h2 => ?_⟩
  obtain ⟨hr', hread2⟩ := reader_ok (hseq n2) h2
  rw [ofReader_ok (andThen_ok hread1 hread2), List.length_drop, List.length_drop]
  rw [List.length_drop] at hr'
  congr 2
  omega

/-! ## BinaryPacking (R140) -/

/-- BinaryPacking's reader: the groups, then the single blocks. -/
def bpReader (n : Nat) : WordReader := andThen (bpGroups (n / 32 / 4)) (bpSingles (n / 32 % 4))

theorem bpDecompress_eq (W : List Word) (n : Nat) : bpDecompress W n = ofReader (bpReader n) W := by
  simp only [bpDecompress, ofReader, bpReader, andThen]
  cases bpGroups (n / 32 / 4) W with
  | error t => rfl
  | ok p => simp only [ok_bind]; cases bpSingles (n / 32 % 4) p.2 <;> rfl

theorem sequential_bpReader (n : Nat) : Sequential (bpReader n) := sequential_andThen (.bpGroups _) (.bpSingles _)

theorem bpGroups_succ_andThen (k : Nat) : bpGroups (k + 1) = andThen (bpGroups 1) (bpGroups k) := by
  funext s
  simp only [bpGroups, andThen, bind_assoc]
  refine bind_congr fun p => ?_
  split
  · rfl
  · simp only [bind_assoc, pure_bind, ok_bind, List.append_nil, List.append_assoc]
    rfl

theorem bpSingles_succ_andThen (k : Nat) : bpSingles (k + 1) = andThen (bpSingles 1) (bpSingles k) := by
  funext s
  simp only [bpSingles, andThen, bind_assoc]
  refine bind_congr fun p => ?_
  split
  · rfl
  · simp only [bind_assoc, pure_bind, ok_bind, List.append_nil]
    rfl

/-- A reader of `k` parts that reads the first part and then the others. -/
theorem parts_add {f : Nat → WordReader} (h0 : f 0 = readNothing) (hsucc : ∀ k, f (k + 1) = andThen (f 1) (f k)) (k1 k2 : Nat) :
    f (k1 + k2) = andThen (f k1) (f k2) := by
  induction k1 with
  | zero => rw [Nat.zero_add, h0, readNothing_andThen]
  | succ k1 ih => rw [Nat.succ_add, hsucc, ih, hsucc k1, andThen_assoc]

theorem bpGroups_zero : bpGroups 0 = readNothing := rfl

theorem bpSingles_zero : bpSingles 0 = readNothing := rfl

/-- More integers after whole groups, or after single blocks alone. -/
theorem bpReader_add {n1 n2 : Nat} (h : n1 % 128 = 0 ∨ n1 % 32 = 0 ∧ n1 + n2 < 128) : bpReader (n1 + n2) = andThen (bpReader n1) (bpReader n2) := by
  obtain h | ⟨h, hlt⟩ := h
  · have hsingles : n1 / 32 % 4 = 0 := by omega
    have hgroups : (n1 + n2) / 32 / 4 = n1 / 32 / 4 + n2 / 32 / 4 := by omega
    have hrest : (n1 + n2) / 32 % 4 = n2 / 32 % 4 := by omega
    rw [bpReader, bpReader, bpReader, hsingles, hgroups, hrest, parts_add bpGroups_zero bpGroups_succ_andThen, bpSingles_zero, andThen_readNothing,
      andThen_assoc]
  · have hgroups {n : Nat} (hn : n < 128) : n / 32 / 4 = 0 := by omega
    have hsingles : (n1 + n2) / 32 % 4 = n1 / 32 % 4 + n2 / 32 % 4 := by omega
    rw [bpReader, bpReader, bpReader, hgroups hlt, hgroups (by omega : n1 < 128), hgroups (by omega : n2 < 128), hsingles,
      parts_add bpSingles_zero bpSingles_succ_andThen, bpGroups_zero, readNothing_andThen, readNothing_andThen, readNothing_andThen]

/-! ## NewPFD and OptPFD (R187) -/

theorem pfdReadBlocks_succ_andThen (T : Layouts) (k : Nat) : pfdReadBlocks T (k + 1) = andThen (pfdReadBlocks T 1) (pfdReadBlocks T k) := by
  funext s
  simp only [pfdReadBlocks, andThen, bind_assoc]
  refine bind_congr fun p => ?_
  split
  · rfl
  · simp only [bind_assoc, pure_bind, ok_bind, List.append_nil]
    rfl

/-- The reader of NewPFD and OptPFD. -/
theorem pfdDecompress_eq (T : Layouts) (W : List Word) (n : Nat) : pfdDecompress T W n = ofReader (pfdReadBlocks T (n / 128)) W := rfl

theorem pfdReadBlocks_add (T : Layouts) {n1 n2 : Nat} (h : n1 % 128 = 0) :
    pfdReadBlocks T ((n1 + n2) / 128) = andThen (pfdReadBlocks T (n1 / 128)) (pfdReadBlocks T (n2 / 128)) := by
  have hblocks : (n1 + n2) / 128 = n1 / 128 + n2 / 128 := by omega
  rw [hblocks, parts_add rfl (pfdReadBlocks_succ_andThen T)]

/-! ## FastPFOR (R170, R173) -/

theorem unpackBlocks_take_append {b : Nat} (k : Nat) {s : List Word} (h : k * b ≤ s.length) :
    ∃ U, ∀ Z, unpackBlocks b k (s.take (k * b) ++ Z) = .ok (U, Z) := by
  obtain ⟨U, -, hU⟩ := unpackBlocks_enough k h
  obtain ⟨r, hr, hdrop, happ, -⟩ := Sequential.unpackBlocks b k s U _ hU
  have hlen := congrArg List.length hdrop
  rw [List.length_drop, List.length_drop] at hlen
  obtain rfl : r = k * b := by omega
  exact ⟨U, happ⟩

/-- The blocks of a page are read from its data words alone. -/
theorem fpfBlocks_take (bs k : Nat) (bc : List Byte) (ex : List (List Word)) (limit : Nat) (s : List Word) :
    fpfBlocks bs k bc ex limit (s.take limit) = fpfBlocks bs k bc ex limit s := by
  induction k generalizing bc ex limit s with
  | zero => rfl
  | succ k ih =>
    obtain hall | hlt := Nat.le_total s.length limit
    · rw [List.take_of_length_le hall]
    rw [fpfBlocks, fpfBlocks]
    refine bind_congr fun b => bind_congr fun e => ite_congr rfl (fun _ => rfl) fun _ => bind_congr fun p => ?_
    refine ite_congr rfl (fun _ => rfl) fun hneed => ?_
    have hneed : bs / 32 * b.1.toNat ≤ limit := Nat.not_lt.1 hneed
    obtain ⟨U, hU⟩ := unpackBlocks_take_append (bs / 32) (hneed.trans hlt)
    have hcut : s.take limit = s.take (bs / 32 * b.1.toNat) ++ (s.drop (bs / 32 * b.1.toNat)).take (limit - bs / 32 * b.1.toNat) := by
      rw [← List.take_add, Nat.add_sub_cancel' hneed]
    have hs := hU (s.drop (bs / 32 * b.1.toNat))
    rw [List.take_append_drop] at hs
    rw [hcut, hU, hs]
    simp only [ok_bind, ih]

/-- A page as its offset word, its data words, and the rest: the blocks are read from the data words. -/
theorem fpfReadPage_eq (bs pn : Nat) : fpfReadPage bs pn = fun W => getWord W >>= fun p =>
    if p.1.toNat < 1 then .error malformed
    else takeWords (p.1.toNat - 1) p.2 >>= fun d => getWord d.2 >>= fun count => takeWords (ceil4 count.1.toNat) count.2 >>= fun bw =>
      getWord bw.2 >>= fun bitmap => readBuckets bitmap.1.toNat 32 1 bitmap.2 >>= fun ex =>
        fpfBlocks bs (pn / bs) ((bytesOfWords bw.1).take count.1.toNat) ex.1 (p.1.toNat - 1) d.1 >>= fun out => .ok (out, ex.2) := by
  funext W
  cases W with
  | nil => rfl
  | cons off s =>
    rw [fpfReadPage, getWord_cons]
    simp only [ok_bind]
    refine ite_congr rfl (fun _ => rfl) fun hoff => ?_
    have hlen : (off :: s).length < off.toNat ↔ s.length < off.toNat - 1 := by rw [List.length_cons]; omega
    obtain hshort | hlong := Nat.lt_or_ge s.length (off.toNat - 1)
    · rw [takeWords_short hshort, takeWords_short (hlen.2 hshort)]
      rfl
    · have hdrop : (off :: s).drop off.toNat = s.drop (off.toNat - 1) := by
        rw [show off.toNat = off.toNat - 1 + 1 by omega, List.drop_succ_cons, Nat.add_sub_cancel]
      rw [takeWords_enough hlong, takeWords_enough (Nat.not_lt.1 (mt hlen.1 (Nat.not_lt.2 hlong)))]
      simp only [ok_bind, hdrop, fpfBlocks_take]
      rfl

theorem sequential_fpfReadPage (bs pn : Nat) : Sequential (fpfReadPage bs pn) := by
  rw [fpfReadPage_eq]
  refine Sequential.getWord.bind fun off => ?_
  by_cases hoff : off.toNat < 1
  · simp only [if_pos hoff]
    exact .error _
  simp only [if_neg hoff]
  refine (Sequential.takeWords _).bind fun D => ?_
  dsimp only
  refine Sequential.getWord.bind fun count => ?_
  dsimp only
  refine (Sequential.takeWords _).bind fun bw => ?_
  dsimp only
  refine Sequential.getWord.bind fun bitmap => ?_
  dsimp only
  refine (Sequential.readBuckets _ _ _).bind fun ex => ?_
  dsimp only
  exact .lift _ fun out => .pure out

theorem fpfReadPages_cons (bs pn : Nat) (ps : List Nat) : fpfReadPages bs (pn :: ps) = andThen (fpfReadPage bs pn) (fpfReadPages bs ps) := rfl

theorem sequential_fpfReadPages (bs : Nat) (ps : List Nat) : Sequential (fpfReadPages bs ps) := by
  induction ps with
  | nil => exact .pure _
  | cons pn ps ih => exact sequential_andThen (sequential_fpfReadPage bs pn) ih

theorem fpfReadPages_append (bs : Nat) (ps qs : List Nat) : fpfReadPages bs (ps ++ qs) = andThen (fpfReadPages bs ps) (fpfReadPages bs qs) := by
  induction ps with
  | nil => exact (readNothing_andThen _).symm
  | cons pn ps ih => rw [List.cons_append, fpfReadPages_cons, fpfReadPages_cons, ih, andThen_assoc]

theorem pageSizes_add {page n1 : Nat} (hpage : 0 < page) (h : n1 % page = 0) (n2 : Nat) :
    pageSizes page (n1 + n2) = pageSizes page n1 ++ pageSizes page n2 := by
  obtain ⟨q, rfl⟩ := Nat.dvd_of_mod_eq_zero h
  rw [pageSizes, pageSizes, pageSizes, Nat.mul_add_div hpage, Nat.mul_add_mod, Nat.mul_mod_right, Nat.mul_div_cancel_left _ hpage, if_pos rfl,
    List.replicate_add, List.append_nil, List.append_assoc (List.replicate q page)]

theorem floorTo_add {bs n1 : Nat} (h : bs ∣ n1) (n2 : Nat) : floorTo bs (n1 + n2) = n1 + floorTo bs n2 := by
  have hmod := Nat.mod_le n2 bs
  rw [floorTo, floorTo, Nat.add_mod, Nat.mod_eq_zero_of_dvd h, Nat.zero_add, Nat.mod_mod]
  omega

/-- FastPFOR's reader of `n` integers, `PAGE` being legal. -/
def fpfReader (bs page n : Nat) : WordReader := fpfReadPages bs (pageSizes page (floorTo bs n))

theorem fpfReader_add {bs page n1 : Nat} (hpage : 0 < page) (hbs : bs ∣ page) (h : n1 % page = 0) (n2 : Nat) :
    fpfReader bs page (n1 + n2) = andThen (fpfReader bs page n1) (fpfReader bs page n2) := by
  have hn1 : bs ∣ n1 := hbs.trans (Nat.dvd_of_mod_eq_zero h)
  have hfloor : floorTo bs n1 = n1 := by rw [floorTo, Nat.mod_eq_zero_of_dvd hn1, Nat.sub_zero]
  rw [fpfReader, fpfReader, fpfReader, floorTo_add hn1, hfloor, pageSizes_add hpage h, fpfReadPages_append]

/-! ## VariableByte (R268) -/

theorem sequentialCodec_vbDecompress (n : Nat) : SequentialCodec fun W => vbDecompress W n := by
  intro W r out h
  obtain ⟨⟨vs, rest⟩, hread, heq⟩ := (exceptBind_eq_ok_iff _ _ _).1 h
  obtain ⟨k, hk, rfl, happ, hcut⟩ := Sequential.vbValues n _ vs rest hread
  cases heq
  rw [List.length_drop, Nat.sub_sub_self hk]
  rw [bytesOfWords_length] at hk
  have hle : k ≤ 4 * ceil4 k := by rw [ceil4]; omega
  refine ⟨by rw [ceil4]; omega, fun X => ?_, fun m hm => ?_⟩
  · have hbytes : bytesOfWords (W.take (ceil4 k) ++ X) =
        (bytesOfWords W).take k ++ (((bytesOfWords W).drop k).take (4 * ceil4 k - k) ++ bytesOfWords X) := by
      rw [bytesOfWords_append, bytesOfWords_take, ← List.append_assoc, ← List.take_add, Nat.add_sub_cancel' hle]
    have hlen : ((bytesOfWords W).take k).length = k := by rw [List.length_take, bytesOfWords_length, Nat.min_eq_left hk]
    simp only [vbDecompress, hbytes, happ, ok_bind]
    rw [List.length_append, hlen, Nat.add_sub_cancel]
    rfl
  · have hshort : 4 * m < k := by rw [ceil4] at hm; omega
    simp only [vbDecompress, bytesOfWords_take, hcut _ hshort]
    rfl

/-! ## The codecs -/

theorem readsExactly_of_sequentialCodec {dec : Decompress} (h : ∀ n, SequentialCodec fun W => dec W n) : ReadsExactly dec :=
  fun W n r out hdec => (h n W r out hdec).2

theorem sequentialCodec_fpfDecompress (bs : Nat) (page : Word) (n : Nat) : SequentialCodec fun W => fpfDecompress bs page W n := by
  by_cases hpage : BadPage page
  · intro W r out h
    exact nomatch (fpfDecompress_of_badPage bs hpage W n).symm.trans h
  · have heq : (fun W => fpfDecompress bs page W n) = ofReader (fpfReader bs page.toNat n) := funext fun W => fpfDecompress_of_legal hpage bs W n
    rw [heq]
    exact sequentialCodec_ofReader (sequential_fpfReadPages bs _)

theorem sequentialCodec_pfdDecompress (T : Layouts) (n : Nat) : SequentialCodec fun W => pfdDecompress T W n :=
  sequentialCodec_ofReader (Sequential.pfdReadBlocks T _)

theorem sequentialCodec_bpDecompress (n : Nat) : SequentialCodec fun W => bpDecompress W n := by
  rw [funext fun W => bpDecompress_eq W n]
  exact sequentialCodec_ofReader (sequential_bpReader n)

theorem readsExactly_headlessDecompress (k : Codec) (page : Word) : ReadsExactly (headlessDecompress k page) := by
  apply readsExactly_of_sequentialCodec
  intro n
  cases k with
  | bp => exact sequentialCodec_bpDecompress n
  | fpf128 => exact sequentialCodec_fpfDecompress 128 page n
  | fpf256 => exact sequentialCodec_fpfDecompress 256 page n
  | npfd9 => exact sequentialCodec_pfdDecompress simple9 n
  | npfd16 => exact sequentialCodec_pfdDecompress simple16 n
  | opfd9 => exact sequentialCodec_pfdDecompress simple9 n
  | opfd16 => exact sequentialCodec_pfdDecompress simple16 n
  | s9 => exact selectorDecompress_seq simple9 n
  | s16 => exact selectorDecompress_seq simple16 n
  | vb => exact sequentialCodec_vbDecompress n

end Sys2Proof.Proofs
end

