-- ==== Sys2Proof/Proofs/StreamChecks.lean ====
section
/-! PROOF. Where a stream is malformed and where it ends too early (60_exceptions.md R306, R309), codec by codec: what the reader of a first part does on each of the cases
the rules name, and that a codec function does what the reader of its first part does. -/

namespace Sys2Proof.Proofs

open Sys2Proof.Machine

/-! ## Reading and failing -/

theorem exceptMap_of_ok {α β : Type} {f : α → β} {x : Except Trap α} {a : α} (h : x = .ok a) : x.map f = .ok (f a) := by
  rw [h]
  rfl

/-- A `take(n)` that is an underrun, or is followed by one. -/
theorem takeWords_bind_underrun {α : Type} {n : Nat} {s : List Word} {f : List Word × List Word → Except Trap α}
    (h : n ≤ s.length → f (s.take n, s.drop n) = .error underrun) : takeWords n s >>= f = .error underrun := by
  obtain hshort | hlong := Nat.lt_or_ge s.length n
  · rw [takeWords_short hshort]
    rfl
  · rw [takeWords_enough hlong, ok_bind, h hlong]

/-- A codec function faults as the reader of its first part does. -/
theorem ofReader_andThen_error {f g : WordReader} {W : List Word} {t : Trap} (h : f W = .error t) : ofReader (andThen f g) W = .error t :=
  ofReader_error (andThen_error_left h)

/-! ## BinaryPacking (R140) -/

theorem bpDecompress_error_of_group {n : Nat} (hn : 128 ≤ n) {W : List Word} {t : Trap} (h : bpGroups 1 W = .error t) :
    bpDecompress W n = .error t := by
  obtain ⟨k, hk⟩ : ∃ k, n / 32 / 4 = k + 1 := ⟨n / 32 / 4 - 1, by omega⟩
  rw [bpDecompress_eq, bpReader, hk, bpGroups_succ_andThen, andThen_assoc]
  exact ofReader_andThen_error h

theorem bpDecompress_error_of_single {n : Nat} (hn : 32 ≤ n) (hlt : n < 128) {W : List Word} {t : Trap} (h : bpSingles 1 W = .error t) :
    bpDecompress W n = .error t := by
  obtain ⟨k, hk⟩ : ∃ k, n / 32 % 4 = k + 1 := ⟨n / 32 % 4 - 1, by omega⟩
  rw [bpDecompress_eq, bpReader, hk, show n / 32 / 4 = 0 by omega, bpGroups_zero, readNothing_andThen, bpSingles_succ_andThen]
  exact ofReader_andThen_error h

/-- The width of block `j` in a group header (R137). -/
def headerByte (H : Word) (j : Nat) : Nat := H.toNat / 2 ^ (8 * j) % 2 ^ 8

theorem headerByte_three (H : Word) : headerByte H 3 = H.toNat / 2 ^ 24 := Nat.mod_eq_of_lt (Nat.div_lt_of_lt_mul H.isLt)

theorem headerByte_zero (H : Word) : headerByte H 0 = H.toNat % 2 ^ 8 := by rw [headerByte, Nat.mul_zero, Nat.pow_zero, Nat.div_one]

/-- Some block of a group is wider than a word. -/
theorem exists_headerByte_iff (H : Word) : (∃ j, j < 4 ∧ 32 < headerByte H j) ↔
    32 < H.toNat % 2 ^ 8 ∨ 32 < H.toNat / 2 ^ 8 % 2 ^ 8 ∨ 32 < H.toNat / 2 ^ 16 % 2 ^ 8 ∨ 32 < H.toNat / 2 ^ 24 := by
  rw [← headerByte_three, ← headerByte_zero]
  constructor
  · rintro ⟨j, hj, h⟩
    obtain rfl | rfl | rfl | rfl : j = 0 ∨ j = 1 ∨ j = 2 ∨ j = 3 := by omega
    · exact .inl h
    · exact .inr (.inl h)
    · exact .inr (.inr (.inl h))
    · exact .inr (.inr (.inr h))
  · rintro (h | h | h | h)
    · exact ⟨0, by decide, h⟩
    · exact ⟨1, by decide, h⟩
    · exact ⟨2, by decide, h⟩
    · exact ⟨3, by decide, h⟩

theorem bpGroups_malformed {H : Word} (h : ∃ j, j < 4 ∧ 32 < headerByte H j) (W : List Word) : bpGroups 1 (H :: W) = .error malformed := by
  rw [bpGroups, getWord_cons, ok_bind]
  exact if_pos ((exists_headerByte_iff H).1 h)

theorem bpGroups_underrun {H : Word} (h : ∀ j, j < 4 → headerByte H j ≤ 32) {W : List Word}
    (hW : W.length < headerByte H 0 + headerByte H 1 + headerByte H 2 + headerByte H 3) : bpGroups 1 (H :: W) = .error underrun := by
  have hlegal : ¬ ∃ j, j < 4 ∧ 32 < headerByte H j := fun ⟨j, hj, hlt⟩ => absurd (h j hj) (Nat.not_le.2 hlt)
  rw [headerByte_three, headerByte_zero] at hW
  rw [bpGroups, getWord_cons, ok_bind]
  refine (if_neg (mt (exists_headerByte_iff H).2 hlegal)).trans ?_
  refine takeWords_bind_underrun fun h0 => takeWords_bind_underrun fun h1 => takeWords_bind_underrun fun h2 => takeWords_bind_underrun fun h3 => ?_
  simp only [List.length_drop] at h1 h2 h3
  unfold headerByte at hW
  omega

theorem bpSingles_malformed {H : Word} (h : 32 < H.toNat) (W : List Word) : bpSingles 1 (H :: W) = .error malformed := by
  rw [bpSingles, getWord_cons, ok_bind]
  exact if_pos h

theorem bpSingles_underrun {H : Word} (h : H.toNat ≤ 32) {W : List Word} (hW : W.length < H.toNat) : bpSingles 1 (H :: W) = .error underrun := by
  rw [bpSingles, getWord_cons, ok_bind]
  exact (if_neg (Nat.not_lt.2 h)).trans (takeWords_bind_underrun fun hle => absurd hW (Nat.not_lt.2 hle))

theorem binaryPackingFaults_bpDecompress : BinaryPackingFaults bpDecompress := by
  refine ⟨?_, fun n hn => ?_, fun H W n hn => ?_, fun H W n hn hlt => ?_⟩
  · rw [funext₂ bpDecompress_eq]
    exact runsInSequence_ofReader sequential_bpReader fun _ _ => bpReader_add
  · obtain hlt | hge := Nat.lt_or_ge n 128
    · exact bpDecompress_error_of_single hn hlt rfl
    · exact bpDecompress_error_of_group hge rfl
  · exact ⟨fun h => bpDecompress_error_of_group hn (bpGroups_malformed h W), fun h hW => bpDecompress_error_of_group hn (bpGroups_underrun h hW)⟩
  · exact ⟨fun h => bpDecompress_error_of_single hn hlt (bpSingles_malformed h W),
      fun h hW => bpDecompress_error_of_single hn hlt (bpSingles_underrun h hW)⟩

/-! ## The selector codecs (R225) -/

theorem selectorFaults_selectorDecompress (T : Layouts) : SelectorFaults T (selectorDecompress T) := by
  refine ⟨fun n hn => ?_, fun w W n hn => ?_⟩
  · obtain ⟨n, rfl⟩ := Nat.exists_eq_succ_of_ne_zero hn.ne'
    rfl
  · obtain ⟨n, rfl⟩ := Nat.exists_eq_succ_of_ne_zero hn.ne'
    refine ⟨fun hlen => selectorDecompress_cons_of_none (List.getElem?_eq_none hlen) W n, fun l hl => ?_⟩
    rw [selectorDecompress_cons_of_some hl]
    refine ⟨fun t ht => (exceptMap_eq_error_iff _ _ t).2 ht, fun r out hok => ⟨_, length_slotValues l w.toNat (n + 1), exceptMap_of_ok hok⟩⟩

/-- Every selector of 4 bits names a layout of S16 (R233). -/
theorem selectorDecompress_simple16_faults (W : List Word) (n : Nat) : FaultsSatisfy (· = underrun) (selectorDecompress simple16 W n) := by
  induction W generalizing n with
  | nil =>
    cases n with
    | zero => exact .ok _
    | succ n => exact .error rfl
  | cons w W ih =>
    cases n with
    | zero => exact .ok _
    | succ n =>
      have hsel : w.toNat / 2 ^ 28 < simple16.length := Nat.div_lt_of_lt_mul w.isLt
      rw [selectorDecompress_cons_of_some (List.getElem?_eq_getElem hsel)]
      exact (ih _).map _

/-! ## VariableByte (R268) -/

/-- Bytes with the continuation bit: at the fifth the value is malformed, and before it the end of the stream is an underrun. -/
theorem vbValue_of_continuation {k : Nat} (hk : k ≤ 5) (v : Nat) {Z : List Byte} (hZ : ∀ c ∈ Z.take (5 - k), 128 ≤ c.toNat) :
    vbValue k v Z = .error (if 5 - k ≤ Z.length then malformed else underrun) := by
  induction Z generalizing k v with
  | nil =>
    rw [vbValue]
    obtain hlt | rfl := Nat.lt_or_eq_of_le hk
    · rw [if_neg (Nat.not_le.2 hlt), if_neg (by rw [List.length_nil]; omega)]
    · rfl
  | cons c Z ih =>
    rw [vbValue]
    obtain hlt | rfl := Nat.lt_or_eq_of_le hk
    · have htake : 5 - k = 5 - (k + 1) + 1 := by omega
      rw [htake, List.take_succ_cons] at hZ
      obtain ⟨hc, hZ⟩ := List.forall_mem_cons.1 hZ
      have hcont : c.toNat / 128 ≠ 0 := by omega
      simp only [if_neg (Nat.not_le.2 hlt), if_neg hcont]
      rw [ih hlt _ hZ, htake, List.length_cons]
      simp only [Nat.add_le_add_iff_right]
    · rfl

theorem vbValues_error_after {m k : Nat} {bytes Z : List Byte} {vs : List Word} {t : Trap} (h : vbValues m bytes = .ok (vs, Z))
    (hZ : vbValues k Z = .error t) : vbValues (m + k) bytes = .error t := by
  induction m generalizing bytes vs with
  | zero => cases h; rwa [Nat.zero_add]
  | succ m ih =>
    obtain ⟨p, hp, h⟩ := (exceptBind_eq_ok_iff _ _ _).1 h
    obtain ⟨q, hq, h⟩ := (exceptBind_eq_ok_iff _ _ _).1 h
    cases h
    rw [Nat.succ_add, vbValues, hp, ok_bind]
    simp only [ih hq]
    rfl

theorem variableByteFaults_vbDecompress : VariableByteFaults vbDecompress := by
  intro W vs Y Z m n hY hmn hZ hW
  have hfirst : vbValues m (Y ++ Z) = .ok (vs, Z) := by
    obtain ⟨r, hr, hnil, happ, -⟩ := Sequential.vbValues m Y vs [] hY
    have hall := happ Z
    rwa [List.take_of_length_le (List.drop_eq_nil_iff.1 hnil.symm)] at hall
  obtain ⟨k, rfl⟩ : ∃ k, n = m + (k + 1) := ⟨n - m - 1, by omega⟩
  have hbad : vbValues (m + (k + 1)) (Y ++ Z) = .error (if 5 ≤ Z.length then malformed else underrun) := by
    refine vbValues_error_after hfirst ?_
    rw [vbValues, vbValue_of_continuation (by decide) 0 hZ]
    rfl
  have hdec : vbDecompress W (m + (k + 1)) = .error (if 5 ≤ Z.length then malformed else underrun) := by
    simp only [vbDecompress, hW, hbad]
    rfl
  exact ⟨fun h => by rw [hdec, if_pos h], fun h => by rw [hdec, if_neg (Nat.not_le.2 h)]⟩

/-! ## NewPFD and OptPFD (R187) -/

theorem pfdExceptions_eq (T : Layouts) (e : Nat) (s : List Word) :
    pfdExceptions T e s = (selectorDecompress T s (2 * e)).map fun p => ((p.2.take e).zip (p.2.drop e), s.drop p.1) := by
  rw [pfdExceptions]
  split
  next h =>
    subst h
    rw [Nat.mul_zero, selectorDecompress]
    rfl
  next => cases selectorDecompress T s (2 * e) <;> rfl

theorem pfdPatch_malformed {b : Nat} {ps : List (Word × Word)} (h : ∃ q ∈ ps, 128 ≤ q.1.toNat) (U : List Word) :
    pfdPatch b ps U = .error malformed := by
  induction ps generalizing U with
  | nil => obtain ⟨q, hq, -⟩ := h; exact nomatch hq
  | cons p ps ih =>
    rw [pfdPatch]
    split
    · rfl
    next hp =>
      obtain ⟨q, hq, hlarge⟩ := h
      obtain rfl | hq := List.mem_cons.1 hq
      · exact absurd hlarge hp
      · exact ih ⟨q, hq, hlarge⟩ _

theorem exists_pfdPatch_eq_ok {b : Nat} {ps : List (Word × Word)} (h : ∀ q ∈ ps, q.1.toNat < 128) (U : List Word) :
    ∃ U', pfdPatch b ps U = .ok U' := by
  induction ps generalizing U with
  | nil => exact ⟨U, rfl⟩
  | cons p ps ih =>
    obtain ⟨hp, hps⟩ := List.forall_mem_cons.1 h
    rw [pfdPatch, if_neg (Nat.not_le.2 hp)]
    exact ih hps _

/-- The positions of a block's pairs. -/
theorem map_fst_pairs {T : Layouts} {W X : List Word} {e u : Nat} (h : selectorDecompress T W (2 * e) = .ok (u, X)) :
    ((X.take e).zip (X.drop e)).map Prod.fst = X.take e := by
  have hX := length_of_selectorDecompress h
  rw [List.map_fst_zip]
  rw [List.length_take, List.length_drop]
  omega

theorem pfdHeaderOk_iff (top b e m : Nat) : pfdHeaderOk top b e m = true ↔
    ¬ (top ≠ 0 ∨ 32 < b ∨ (e = 0 ∧ m ≠ 0) ∨ (e ≠ 0 ∧ ¬ (b < m ∧ m ≤ 32 ∧ m - b ≤ 28 ∧ e < 128))) := by
  simp only [pfdHeaderOk, Bool.and_eq_true, Bool.or_eq_true, decide_eq_true_eq]
  omega

section
variable {T : Layouts} {H : Word}

/-- The header of a block is illegal (R187). -/
def BadPfdHeader (H : Word) : Prop :=
  H.toNat / 2 ^ 24 ≠ 0 ∨ 32 < H.toNat % 2 ^ 8 ∨ (H.toNat / 2 ^ 8 % 2 ^ 8 = 0 ∧ H.toNat / 2 ^ 16 % 2 ^ 8 ≠ 0) ∨
    (H.toNat / 2 ^ 8 % 2 ^ 8 ≠ 0 ∧ ¬ (H.toNat % 2 ^ 8 < H.toNat / 2 ^ 16 % 2 ^ 8 ∧ H.toNat / 2 ^ 16 % 2 ^ 8 ≤ 32 ∧
      H.toNat / 2 ^ 16 % 2 ^ 8 - H.toNat % 2 ^ 8 ≤ 28 ∧ H.toNat / 2 ^ 8 % 2 ^ 8 < 128))

theorem pfdReadBlocks_badHeader (h : BadPfdHeader H) (W : List Word) : pfdReadBlocks T 1 (H :: W) = .error malformed := by
  rw [pfdReadBlocks, getWord_cons, ok_bind]
  exact if_pos fun hok => (pfdHeaderOk_iff _ _ _ _).1 hok h

/-- A block with a legal header: its exceptions, its packed words, and the patch loop. -/
theorem pfdReadBlocks_one (h : ¬ BadPfdHeader H) (W : List Word) :
    pfdReadBlocks T 1 (H :: W) = pfdExceptions T (H.toNat / 2 ^ 8 % 2 ^ 8) W >>= fun p => unpackBlocks (H.toNat % 2 ^ 8) 4 p.2 >>= fun q =>
      (pfdPatch (H.toNat % 2 ^ 8) p.1 q.1).map (·, q.2) := by
  rw [pfdReadBlocks, getWord_cons, ok_bind]
  refine (if_neg (not_not.2 ((pfdHeaderOk_iff _ _ _ _).2 h))).trans ?_
  refine bind_congr fun p => bind_congr fun q => ?_
  cases hpatch : pfdPatch (H.toNat % 2 ^ 8) p.1 q.1 with
  | error t => simp only [hpatch]; rfl
  | ok U => simp only [hpatch, ok_bind, pfdReadBlocks, List.append_nil]; rfl

end

theorem pfdDecompress_error_of_block {T : Layouts} {n : Nat} (hn : 128 ≤ n) {W : List Word} {t : Trap} (h : pfdReadBlocks T 1 W = .error t) :
    pfdDecompress T W n = .error t := by
  obtain ⟨k, hk⟩ : ∃ k, n / 128 = k + 1 := ⟨n / 128 - 1, by omega⟩
  rw [pfdDecompress_eq, hk, pfdReadBlocks_succ_andThen]
  exact ofReader_andThen_error h

theorem pfdFaults_pfdDecompress (T : Layouts) : PfdFaults T (pfdDecompress T) := by
  refine ⟨?_, fun n hn => pfdDecompress_error_of_block hn rfl, fun H W n hn => ?_⟩
  · exact runsInSequence_ofReader (fun n => Sequential.pfdReadBlocks T (n / 128)) fun _ _ => pfdReadBlocks_add T
  · refine ⟨fun hbad => pfdDecompress_error_of_block hn (pfdReadBlocks_badHeader hbad W), fun hok t ht => ?_, fun hok u X hX => ?_⟩
    · refine pfdDecompress_error_of_block hn ?_
      rw [pfdReadBlocks_one hok, pfdExceptions_eq, ht]
      rfl
    · have hu := selectorDecompress_read_le hX
      have hpos := map_fst_pairs hX
      have hblock := pfdReadBlocks_one (T := T) hok W
      rw [pfdExceptions_eq, hX] at hblock
      have hlen : (W.drop u).length = W.length - u := List.length_drop
      refine ⟨fun hshort => ?_, fun henough hlarge => ?_, fun henough hsmall hn' => ?_⟩
      · have hU := unpackBlocks_short (b := H.toNat % 2 ^ 8) 4 (s := W.drop u) (by omega)
        refine pfdDecompress_error_of_block hn (hblock.trans ?_)
        rw [Except.map, ok_bind, hU]
        rfl
      · obtain ⟨U, -, hU⟩ := unpackBlocks_enough (b := H.toNat % 2 ^ 8) 4 (s := W.drop u) (by omega)
        obtain ⟨p, hp, hp128⟩ := hlarge
        rw [← hpos, List.mem_map] at hp
        obtain ⟨q, hq, rfl⟩ := hp
        refine pfdDecompress_error_of_block hn (hblock.trans ?_)
        rw [Except.map, ok_bind, hU, ok_bind, pfdPatch_malformed ⟨q, hq, hp128⟩]
        rfl
      · obtain ⟨U, -, hU⟩ := unpackBlocks_enough (b := H.toNat % 2 ^ 8) 4 (s := W.drop u) (by omega)
        have hpairs : ∀ q ∈ (X.take (H.toNat / 2 ^ 8 % 2 ^ 8)).zip (X.drop (H.toNat / 2 ^ 8 % 2 ^ 8)), q.1.toNat < 128 := fun q hq =>
          hsmall q.1 (hpos ▸ List.mem_map_of_mem hq)
        obtain ⟨U', hU'⟩ := exists_pfdPatch_eq_ok hpairs U
        rw [Except.map, ok_bind, hU, ok_bind, hU'] at hblock
        refine ⟨U', ?_⟩
        rw [pfdDecompress_eq, show n / 128 = 1 by omega, ofReader_ok hblock, List.length_cons, List.length_drop, hlen]
        congr 2
        omega

end Sys2Proof.Proofs
end

