-- ==== Sys2Proof/Proofs/PageChecks.lean ====
section
/-! PROOF. The checks of a FastPFOR stream (43_for_patched.md R173) in the order the rule makes them: the parts of a page, its buckets, its blocks. -/

namespace Sys2Proof.Proofs

open Sys2Proof.Machine

/-! ## The buckets -/

theorem readBuckets_of_empty {bitmap k : Nat} (h : bitmap / 2 ^ (k - 1) % 2 = 0) (left : Nat) (s : List Word) :
    readBuckets bitmap (left + 1) k s = (readBuckets bitmap left (k + 1) s).map (Prod.map ([] :: ·) id) := by
  rw [readBuckets, if_pos h]
  cases readBuckets bitmap left (k + 1) s <;> rfl

theorem readBuckets_of_full {bitmap k : Nat} (h : bitmap / 2 ^ (k - 1) % 2 = 1) (left : Nat) (s : List Word) :
    readBuckets bitmap (left + 1) k s = getWord s >>= fun p => if p.1.toNat = 0 then .error malformed else
      unpackBlocks k (ceil32 p.1.toNat) p.2 >>= fun q => (readBuckets bitmap left (k + 1) q.2).map (Prod.map (q.1.take p.1.toNat :: ·) id) := by
  rw [readBuckets, if_neg (by omega)]
  refine bind_congr fun p => ite_congr rfl (fun _ => rfl) fun _ => bind_congr fun q => ?_
  cases hrest : readBuckets bitmap left (k + 1) q.2 <;> (simp only [hrest]; rfl)

theorem bucketFaults : BucketFaults := by
  intro bitmap left k s
  refine ⟨rfl, fun hempty => ?_, fun hfull => ⟨?_, ?_, fun count hcount => ⟨fun hshort => ?_, fun henough => ?_⟩⟩⟩
  · rw [readBuckets_of_empty hempty]
    exact ⟨fun t ht => (exceptMap_eq_error_iff _ _ t).2 ht, fun ex rest hok => exceptMap_of_ok hok⟩
  · rw [readBuckets_of_full hfull]
    rfl
  · rw [readBuckets_of_full hfull]
    rfl
  · rw [readBuckets_of_full hfull, getWord_cons, ok_bind, if_neg hcount.ne', unpackBlocks_short (ceil32 count.toNat) hshort]
    rfl
  · obtain ⟨U, hlen, hU⟩ := unpackBlocks_enough (ceil32 count.toNat) henough
    rw [readBuckets_of_full hfull, getWord_cons, ok_bind, if_neg hcount.ne', hU, ok_bind]
    refine ⟨fun t ht => (exceptMap_eq_error_iff _ _ t).2 ht, fun ex rest hok => ⟨U.take count.toNat, ?_, ?_⟩⟩
    · rw [List.length_take, hlen, ceil32]
      omega
    · exact exceptMap_of_ok hok

/-! ## The blocks -/

section
variable {bs k limit : Nat} {ex : List (List Word)} {s : List Word} {b e : Byte} {bytes : List Byte}

theorem fpfBlocks_of_short (h : bytes.length < 2) : fpfBlocks bs (k + 1) bytes ex limit s = .error malformed := by
  match bytes, h with
  | [], _ => rfl
  | [_], _ => rfl

theorem fpfBlocks_of_wide (h : 32 < b.toNat) : fpfBlocks bs (k + 1) (b :: e :: bytes) ex limit s = .error malformed := if_pos h

/-- A block whose `bestB` is legal, from its exceptions on. -/
theorem fpfBlocks_of_width (h : b.toNat ≤ 32) {x : Except Trap (Nat × List Byte × List Byte)} (hx : readExceptions b.toNat e.toNat bytes = x) :
    fpfBlocks bs (k + 1) (b :: e :: bytes) ex limit s = x >>= fun p => if limit < bs / 32 * b.toNat then .error malformed else
      unpackBlocks b.toNat (bs / 32) s >>= fun u => patchBlock bs b.toNat (p.1 - b.toNat) p.2.1 u.1 ex >>= fun v =>
        (fpfBlocks bs k p.2.2 v.2 (limit - bs / 32 * b.toNat) u.2).map (v.1 ++ ·) := by
  subst hx
  refine (if_neg (Nat.not_lt.2 h)).trans (bind_congr fun p => ite_congr rfl (fun _ => rfl) fun _ => bind_congr fun u => bind_congr fun v => ?_)
  cases hrest : fpfBlocks bs k p.2.2 v.2 (limit - bs / 32 * b.toNat) u.2 <;> (simp only [hrest]; rfl)

theorem readExceptions_of_short {b e : Nat} (he : e ≠ 0) (h : bytes.length < 1 + e) : readExceptions b e bytes = .error malformed := by
  rw [readExceptions, if_neg he]
  cases bytes with
  | nil => rfl
  | cons m bytes =>
    rw [List.length_cons] at h
    simp only [nextByte, ok_bind]
    split
    · rfl
    · rw [nextBytes_short (by omega)]
      rfl

theorem readExceptions_of_badMax {b e : Nat} {m : Byte} (he : e ≠ 0) (h : ¬ (b < m.toNat ∧ m.toNat ≤ 32)) :
    readExceptions b e (m :: bytes) = .error malformed := by
  rw [readExceptions, if_neg he]
  exact if_pos h

theorem fpfBlocks_of_badExceptions (h : readExceptions b.toNat e.toNat bytes = .error malformed) :
    fpfBlocks bs (k + 1) (b :: e :: bytes) ex limit s = .error malformed := by
  obtain hb | hb := Nat.lt_or_ge 32 b.toNat
  · exact fpfBlocks_of_wide hb
  · rw [fpfBlocks_of_width hb h]
    rfl

end

theorem pageBlockFaults (bs : Nat) : PageBlockFaults bs := by
  intro k bytes ex limit s
  refine ⟨fun h => if_pos h, fun h => if_neg h, fpfBlocks_of_short, ?_⟩
  rintro b e bytes rfl
  refine ⟨fpfBlocks_of_wide, fun he hshort => fpfBlocks_of_badExceptions (readExceptions_of_short he hshort), ?_, fun m pos rest hb hbytes => ?_⟩
  · rintro m rest he rfl hm
    exact fpfBlocks_of_badExceptions (readExceptions_of_badMax he hm)
  have hexc : readExceptions b.toNat e.toNat bytes = .ok (m.toNat, pos, rest) := by
    refine readExceptions_good (mb := m) rfl ?_
    obtain ⟨he, rfl, hpos, hrest⟩ | h := hbytes
    · exact .inl ⟨he, rfl, hpos, hrest⟩
    · exact .inr h
  have hcount : pos.length = e.toNat := by
    obtain ⟨he, -, rfl, -⟩ | ⟨-, -, hlen, -⟩ := hbytes
    · exact he.symm
    · exact hlen
  have hblock := fpfBlocks_of_width (bs := bs) (k := k) (ex := ex) (limit := limit) (s := s) hb hexc
  rw [ok_bind] at hblock
  refine ⟨fun hlimit => ?_, fun hlimit hshort => ?_, fun hlimit henough => ?_⟩
  · rw [hblock, if_pos hlimit]
  · rw [hblock, if_neg (Nat.not_lt.2 hlimit), unpackBlocks_short _ hshort]
    rfl
  · obtain ⟨U, hlen, hU⟩ := unpackBlocks_enough (bs / 32) henough
    rw [if_neg (Nat.not_lt.2 hlimit), hU, ok_bind] at hblock
    refine ⟨fun hbad => ?_, fun hpos hvalues => ?_⟩
    · rw [← hcount] at hbad
      rw [hblock, patchBlock_bad pos U ex hbad]
      rfl
    · rw [← hcount] at hvalues ⊢
      obtain ⟨U', hU', hpatch⟩ := patchBlock_good (b := b.toNat) (k := m.toNat - b.toNat) pos U ex hpos hvalues
      rw [hpatch, ok_bind] at hblock
      exact ⟨fun t ht => hblock.trans ((exceptMap_eq_error_iff _ _ t).2 ht),
        fun out hout => ⟨U', hU'.trans hlen, hblock.trans (exceptMap_of_ok hout)⟩⟩

/-! ## The parts of a page -/

/-- A `take(n)` and a `get()` past the end of the words. -/
theorem takeWords_getWord_underrun {α : Type} {n : Nat} {s : List Word} (h : s.length ≤ n) {f : List Word × List Word → Word × List Word → Except Trap α} :
    (takeWords n s >>= fun p => getWord p.2 >>= f p) = .error underrun :=
  takeWords_bind_underrun fun _ => by rw [List.drop_of_length_le h]; rfl

/-- A `take(n)` and a `get()` with the words there. -/
theorem takeWords_getWord {α : Type} {n : Nat} {s M : List Word} {w : Word} (h : s.drop n = w :: M)
    {f : List Word × List Word → Word × List Word → Except Trap α} :
    (takeWords n s >>= fun p => getWord p.2 >>= f p) = f (s.take n, s.drop n) (w, M) := by
  have hlen := congrArg List.length h
  rw [List.length_drop, List.length_cons] at hlen
  rw [takeWords_enough (by omega), ok_bind, h]
  rfl

section
variable {bs pn : Nat} {off : Word} {W : List Word} (hoff : 1 ≤ off.toNat)
include hoff

theorem fpfReadPage_offset_underrun (h : (off :: W).length ≤ off.toNat) : fpfReadPage bs pn (off :: W) = .error underrun :=
  (if_neg (Nat.not_lt.2 hoff)).trans (takeWords_getWord_underrun h)

variable {count : Word} {M : List Word} (hcount : (off :: W).drop off.toNat = count :: M)
include hcount

theorem fpfReadPage_container_underrun (h : M.length ≤ ceil4 count.toNat) : fpfReadPage bs pn (off :: W) = .error underrun :=
  (if_neg (Nat.not_lt.2 hoff)).trans ((takeWords_getWord hcount).trans (takeWords_getWord_underrun h))

/-- A page whose parts are there: its buckets, and then its blocks. -/
theorem fpfReadPage_of_parts {bitmap : Word} {B : List Word} (hbitmap : M.drop (ceil4 count.toNat) = bitmap :: B) :
    fpfReadPage bs pn (off :: W) = readBuckets bitmap.toNat 32 1 B >>= fun p =>
      (fpfBlocks bs (pn / bs) ((bytesOfWords (M.take (ceil4 count.toNat))).take count.toNat) p.1 (off.toNat - 1) W).map (·, p.2) := by
  refine (if_neg (Nat.not_lt.2 hoff)).trans ((takeWords_getWord hcount).trans ((takeWords_getWord hbitmap).trans (bind_congr fun p => ?_)))
  cases hblocks : fpfBlocks bs (pn / bs) ((bytesOfWords (M.take (ceil4 count.toNat))).take count.toNat) p.1 (off.toNat - 1) W <;>
    (simp only [hblocks]; rfl)

end

/-! ## The pages (R170) -/

/-- The reader of a block or more: its first page, and then the other pages. -/
theorem fpfReader_eq_andThen {bs page n : Nat} (hbs : 0 < bs) (hpage : 0 < page) (hn : bs ≤ n) :
    fpfReader bs page n = andThen (fpfReadPage bs (min page (floorTo bs n))) (fpfReadPages bs (pageSizes page (floorTo bs n - min page (floorTo bs n)))) := by
  have hpos : 0 < floorTo bs n := Nat.pos_of_ne_zero (mt (floorTo_eq_zero_iff hbs n).1 (Nat.not_lt.2 hn))
  rw [fpfReader, pageSizes_eq_cons hpage hpos, fpfReadPages_cons]

theorem fastPforFaults_ofReader {bs page : Nat} (hbs : 0 < bs) (hpage : 0 < page) (hdvd : bs ∣ page) :
    FastPforFaults bs page fun W n => ofReader (fpfReader bs page n) W := by
  refine ⟨runsInSequence_ofReader (fun n => sequential_fpfReadPages bs _) fun n1 n2 h => fpfReader_add hpage hdvd h n2, fun n hn => ?_⟩
  have hreader := fpfReader_eq_andThen hbs hpage hn
  have hfirst {W : List Word} {t : Trap} (h : fpfReadPage bs (min page (floorTo bs n)) W = .error t) : ofReader (fpfReader bs page n) W = .error t := by
    rw [hreader]
    exact ofReader_andThen_error h
  refine ⟨hfirst rfl, fun W => hfirst rfl, fun off W hoff => ⟨fun h => hfirst (fpfReadPage_offset_underrun hoff h), fun count M hcount => ?_⟩⟩
  refine ⟨fun h => hfirst (fpfReadPage_container_underrun hoff hcount h), fun bitmap B hbitmap => ?_⟩
  have hparts := fpfReadPage_of_parts (bs := bs) (pn := min page (floorTo bs n)) hoff hcount hbitmap
  refine ⟨fun t ht => hfirst (by rw [hparts, ht]; rfl), fun ex rest hbuckets => ?_⟩
  rw [hbuckets, ok_bind] at hparts
  refine ⟨fun t ht => hfirst (hparts.trans ((exceptMap_eq_error_iff _ _ t).2 ht)), fun out hall hout => ?_⟩
  have hpageOk : fpfReadPage bs (min page (floorTo bs n)) (off :: W) = .ok (out, rest) := hparts.trans (exceptMap_of_ok hout)
  have hone : fpfReader bs page n = fpfReadPage bs (min page (floorTo bs n)) := by
    rw [hreader, Nat.min_eq_right (show floorTo bs n ≤ page from hall), Nat.sub_self, pageSizes_zero]
    exact andThen_readNothing _
  exact ofReader_ok (hone ▸ hpageOk)

end Sys2Proof.Proofs
end

