-- ==== Sys2Proof/Proofs/CodecFaults.lean ====
section
/-! PROOF. Which codec functions fault, and on what (60_exceptions.md R306 to R310): the compress functions, the decompress functions, and the headed forms. -/

namespace Sys2Proof.Proofs

open Sys2Proof.Machine

/-! ## Compress -/

theorem exists_headlessCompress_eq_ok {k : Codec} (hk : k ∈ [Codec.bp, .npfd9, .npfd16, .opfd9, .opfd16, .vb]) (page ovh : Word) (A : List Word) :
    ∃ r out, headlessCompress k page ovh A = .ok (r, out) := by
  have hpfd (search : Search) {T : Layouts} (hT : IsSelectorTable T) : ∃ r out, pfdCompress search T ovh A = .ok (r, out) := by
    obtain ⟨⟨r, out⟩, h⟩ := exists_pfdCompress_eq_ok search hT ovh A
    exact ⟨r, out, h⟩
  simp only [List.mem_cons, List.not_mem_nil, or_false] at hk
  obtain rfl | rfl | rfl | rfl | rfl | rfl := hk
  · exact ⟨_, _, rfl⟩
  · exact hpfd .greedy isSelectorTable_simple9
  · exact hpfd .greedy isSelectorTable_simple16
  · exact hpfd .exhaustive isSelectorTable_simple9
  · exact hpfd .exhaustive isSelectorTable_simple16
  · exact ⟨_, _, rfl⟩

theorem exists_fpfCompress_eq_ok (bs : Nat) {page : Word} (h0 : page.toNat ≠ 0) (h : page.toNat % 256 = 0) (ovh : Word) (A : List Word) :
    ∃ r out, fpfCompress bs page ovh A = .ok (r, out) := by
  rw [fpfCompress, pageFault_of_legal h0 h]
  exact ⟨_, _, rfl⟩

theorem exists_selectorCompress_eq_ok_iff {T : Layouts} (hT : IsSelectorTable T) (A : List Word) :
    (∃ r out, selectorCompress T A = .ok (r, out)) ↔ ∀ v ∈ A, v.toNat < 2 ^ 28 := by
  constructor
  · rintro ⟨r, out, h⟩ v hv
    by_contra hlarge
    obtain ⟨w, hw⟩ := Option.isSome_iff_exists.1 (List.find?_isSome (p := isTooLarge).2 ⟨v, hv, decide_eq_true (Nat.not_lt.1 hlarge)⟩)
    have herr := (selectorWords_eq_error_iff hT ⟨.valueTooLarge, w⟩ (le_refl A.length)).2 ⟨w, hw, rfl⟩
    rw [selectorCompress_eq, herr] at h
    exact nomatch h
  · intro h
    obtain ⟨⟨r, out⟩, hok⟩ := exists_ok_of_faultsSatisfy_valueFault (selectorCompress_faults hT A) h
    exact ⟨r, out, hok⟩

theorem compressFaults (page ovh : Word) (A : List Word) :
    (∀ k ∈ [Codec.bp, .npfd9, .npfd16, .opfd9, .opfd16, .vb], ∃ r out, headlessCompress k page ovh A = .ok (r, out)) ∧
    (∀ k ∈ [Codec.fpf128, .fpf256],
      (page.toNat = 0 ∨ page.toNat % 256 ≠ 0 → headlessCompress k page ovh A = .error ⟨.badConfig, page⟩) ∧
      (page.toNat ≠ 0 → page.toNat % 256 = 0 → ∃ r out, headlessCompress k page ovh A = .ok (r, out))) ∧
    (∀ k ∈ [Codec.s9, .s16], (∃ r out, headlessCompress k page ovh A = .ok (r, out)) ↔ ∀ v ∈ A, v.toNat < 2 ^ 28) := by
  refine ⟨fun k hk => exists_headlessCompress_eq_ok hk page ovh A, fun k hk => ⟨fun h => headlessCompress_of_badPage hk h ovh A, fun h0 h => ?_⟩,
    fun k hk => ?_⟩
  · simp only [List.mem_cons, List.not_mem_nil, or_false] at hk
    obtain rfl | rfl := hk
    · exact exists_fpfCompress_eq_ok 128 h0 h ovh A
    · exact exists_fpfCompress_eq_ok 256 h0 h ovh A
  · simp only [List.mem_cons, List.not_mem_nil, or_false] at hk
    obtain rfl | rfl := hk
    · exact exists_selectorCompress_eq_ok_iff isSelectorTable_simple9 A
    · exact exists_selectorCompress_eq_ok_iff isSelectorTable_simple16 A

/-! ## Decompress -/

/-- The faults of the codec `k`: of its stream, which S16 never finds malformed, and of an illegal `PAGE` (R233, R309, R310). -/
def CodecFault (k : Codec) (page : Word) (t : Trap) : Prop :=
  t = underrun ∨ (t = malformed ∧ k ≠ .s16) ∨
    (t = ⟨.badConfig, page⟩ ∧ k ∈ [Codec.fpf128, .fpf256] ∧ (page.toNat = 0 ∨ page.toNat % 256 ≠ 0))

theorem codecFault_of_streamFault {k : Codec} (hk : k ≠ .s16) {page : Word} {t : Trap} (h : StreamFault t) : CodecFault k page t :=
  h.imp_right fun ht => .inl ⟨ht, hk⟩

theorem fpfDecompress_codecFaults {k : Codec} (hk : k ∈ [Codec.fpf128, .fpf256]) (bs : Nat) (page : Word) (W : List Word) (n : Nat) :
    FaultsSatisfy (CodecFault k page) (fpfDecompress bs page W n) := by
  by_cases hpage : BadPage page
  · rw [fpfDecompress_of_badPage bs hpage]
    exact .error (.inr (.inr ⟨rfl, hk, hpage⟩))
  · have hs16 : k ≠ .s16 := by rintro rfl; exact absurd hk (by decide)
    rw [fpfDecompress_of_legal hpage]
    exact .bind ((streamReader_fpfReadPages _ _ _).mono fun _ => codecFault_of_streamFault hs16) fun _ _ => .ok _

theorem headlessDecompress_codecFaults (k : Codec) (page : Word) (W : List Word) (n : Nat) :
    FaultsSatisfy (CodecFault k page) (headlessDecompress k page W n) := by
  have hstream {k : Codec} (hk : k ≠ .s16) {x : CodecResult} (hx : StreamReader x) : FaultsSatisfy (CodecFault k page) x :=
    hx.mono fun _ => codecFault_of_streamFault hk
  cases k with
  | bp => exact hstream (by decide) (streamReader_bpDecompress W n)
  | fpf128 => exact fpfDecompress_codecFaults (by decide) 128 page W n
  | fpf256 => exact fpfDecompress_codecFaults (by decide) 256 page W n
  | npfd9 => exact hstream (by decide) (streamReader_pfdDecompress simple9 W n)
  | npfd16 => exact hstream (by decide) (streamReader_pfdDecompress simple16 W n)
  | opfd9 => exact hstream (by decide) (streamReader_pfdDecompress simple9 W n)
  | opfd16 => exact hstream (by decide) (streamReader_pfdDecompress simple16 W n)
  | s9 => exact hstream (by decide) (streamReader_selectorDecompress simple9 W n)
  | s16 => exact (selectorDecompress_simple16_faults W n).mono fun _ => .inl
  | vb => exact hstream (by decide) (streamReader_vbDecompress W n)

theorem pfdFaults_headlessDecompress (page : Word) : (∀ k ∈ [Codec.npfd9, .opfd9], PfdFaults simple9 (headlessDecompress k page)) ∧
    ∀ k ∈ [Codec.npfd16, .opfd16], PfdFaults simple16 (headlessDecompress k page) := by
  constructor
  · intro k hk
    simp only [List.mem_cons, List.not_mem_nil, or_false] at hk
    obtain rfl | rfl := hk <;> exact pfdFaults_pfdDecompress simple9
  · intro k hk
    simp only [List.mem_cons, List.not_mem_nil, or_false] at hk
    obtain rfl | rfl := hk <;> exact pfdFaults_pfdDecompress simple16

theorem fastPforFaults_fpfDecompress {bs : Nat} (hbs : IsBlockSize bs) {page : Word} (h0 : page.toNat ≠ 0) (h : page.toNat % 256 = 0) :
    FastPforFaults bs page.toNat (fpfDecompress bs page) := by
  have hlegal : ¬ BadPage page := not_or.2 ⟨h0, not_not.2 h⟩
  obtain ⟨hlo, -⟩ := hbs.facts
  have heq : fpfDecompress bs page = fun W n => ofReader (fpfReader bs page.toNat n) W := funext₂ (fpfDecompress_of_legal hlegal bs)
  rw [heq]
  exact fastPforFaults_ofReader (by omega) (Nat.pos_of_ne_zero h0) (dvd_page hbs hlegal)

theorem fastPforFaults_headlessDecompress {p : Codec × Nat} (hp : p ∈ [(Codec.fpf128, 128), (.fpf256, 256)]) {page : Word} (h0 : page.toNat ≠ 0)
    (h : page.toNat % 256 = 0) : FastPforFaults p.2 page.toNat (headlessDecompress p.1 page) := by
  simp only [List.mem_cons, List.not_mem_nil, or_false] at hp
  obtain rfl | rfl := hp
  · exact fastPforFaults_fpfDecompress (.inl rfl) h0 h
  · exact fastPforFaults_fpfDecompress (.inr rfl) h0 h

theorem headedDecompress_eq_error_iff (k : Codec) (page L : Word) (W : List Word) (t : Trap) :
    headedDecompress k page (L :: W) = .error t ↔ headlessDecompress k page W L.toNat = .error t := by
  rw [headedDecompress_cons, exceptMap_eq_error_iff]

/-- Settles O19: the compress functions, then codec by codec the checks its reader makes. -/
theorem compressFaultsExactly : Obligations.CompressFaultsExactly :=
  ⟨compressFaults, headlessDecompress_codecFaults, fun _ hk _ W n h => headlessDecompress_of_badPage hk h W n, readsExactly_headlessDecompress,
    fun _ => binaryPackingFaults_bpDecompress, fun _ => ⟨selectorFaults_selectorDecompress simple9, selectorFaults_selectorDecompress simple16⟩,
    rfl, rfl, fun _ => variableByteFaults_vbDecompress, fun k hk page => (pfdFaults_headlessDecompress page).1 k hk,
    fun k hk page => (pfdFaults_headlessDecompress page).2 k hk, fun _ hp _ => fastPforFaults_headlessDecompress hp,
    bucketFaults, pageBlockFaults 128, pageBlockFaults 256, headedDecompress_eq_error_iff⟩

end Sys2Proof.Proofs
end
